-- ==== Sys2Proof/Word.lean ====
section
/-! DEFINITION. The word types of the codec and the four word widths (00_scope.md R6, R8; 30_encoding.md R57). -/

namespace Sys2Proof

/-- One byte of data memory: a number in 0..255 (20_memory.md R33). -/
abbrev Byte := BitVec 8

/-- The content of a register of the block: `REG_W` = 64 bits (00_scope.md R8). -/
abbrev Word := BitVec 64

/-- A value-word or packed-word width, `INW_SET` = `OUTW_SET` = {8, 16, 32, 64} (00_scope.md R6). -/
inductive Width where
  | w8
  | w16
  | w32
  | w64
deriving DecidableEq, Repr

/-- The width in bits: `8 << code` (30_encoding.md R57). -/
def Width.bits : Width → Nat
  | .w8 => 8
  | .w16 => 16
  | .w32 => 32
  | .w64 => 64

/-- The width in bytes, `N/8` (00_scope.md R12, 43_width_adaptation.md R121). -/
def Width.bytes : Width → Nat
  | .w8 => 1
  | .w16 => 2
  | .w32 => 4
  | .w64 => 8

end Sys2Proof
end

