-- ==== Sys2Proof/Config.lean ====
section
/-! DEFINITION. What a platform fixes (the OPEN parameters of 00_scope.md R8 and 60_exceptions.md R134), as one record of plain
data that State carries and no step changes, and the model's free value. -/

namespace Sys2Proof

/-- Byte order of a multi-byte word in data memory, the OPEN parameter `ENDIAN` (20_memory.md R37). -/
inductive Endian where
  | le
  | be
deriving DecidableEq, Repr

/-- Direction of an engine access, the third argument of `BusOK` (60_exceptions.md R134). -/
inductive BusDir where
  | read
  | write
deriving DecidableEq, Repr

/-- An engine access as `BusOK(addr, n, dir)` sees it (60_exceptions.md R134). -/
structure BusRequest where
  addr : Nat
  size : Nat
  dir  : BusDir
deriving DecidableEq, Repr

/-- A half-open range of byte addresses `[base, base + len)` (60_exceptions.md R124, R125). -/
structure Extent where
  base : Nat
  len  : Nat
deriving DecidableEq, Repr

/-- The platform's OPEN parameters (00_scope.md R8, 70_reset_and_hazards.md R153). `REG_BASE` and the number of instances
stand in State, one window address for each instance. -/
structure Platform where
  /-- `ADDR_W`, 1..64: data memory has `2^ADDR_W` bytes (20_memory.md R33). -/
  addrW         : Nat
  /-- `ENDIAN` (20_memory.md R37). -/
  endian        : Endian
  /-- The engine accesses the platform refuses: `BusOK` is false for exactly these (60_exceptions.md R134). -/
  busRefuses    : List BusRequest
  /-- Regions of data memory whose reads have side effects or do not return the last write (20_memory.md R42). -/
  deviceRegions : List Extent
  /-- Whether the platform decodes the register windows inside the address space of data memory (20_memory.md R35). -/
  windowsInData : Bool
deriving DecidableEq, Repr

/-- A legal platform: `ADDR_W` in 1..64 (00_scope.md R8). -/
abbrev Platform.Legal (p : Platform) : Prop := 1 ≤ p.addrW ∧ p.addrW ≤ 64

/-- The platform of `State.reset`: `ADDR_W` at its default 64, little-endian, `BusOK` = true, no device region.
DESIGN CHOICE, log entry 3 (95_test_vectors.md uses these parameters). -/
def Platform.standard : Platform :=
  { addrW := 64, endian := .le, busRefuses := [], deviceRegions := [], windowsInData := false }

/-- `REG_WINDOW`: the size of a register window in bytes (10_state.md R16). -/
def Config.regWindow : Nat := 0x100

/-- What a byte of data memory that nothing has written reads as. DESIGN CHOICE, log entry 1 (unsafe): the spec gives data
memory no power-on contents. -/
def Config.unlistedByte : Byte := 0

/-- A draw ("any value" of 93_implementation_defined.md): the n-th byte drawn is `freeByte n`. It has no body, so no proof can
see a value of it (log entry 5, safe). -/
opaque Config.freeByte : Nat → Byte

end Sys2Proof
end

