-- ==== Sys2Proof/Syntax.lean ====
section
/-! DEFINITION. The instructions (one constructor for each row of spec/opcode_table.json), the raw forms a host puts on the
block (30_encoding.md R54, R69), command words as data, error codes, and the host program syntax of 30_encoding.md R66 to R68. -/

namespace Sys2Proof

/-- The two operations of a command word (30_encoding.md R56). -/
inductive Op where
  | pack
  | unpack
deriving DecidableEq, Repr

/-- The values of STATUS.ERR (60_exceptions.md R123). The reserved codes 10..15 are never reported and have no name. -/
inductive Err where
  | ok
  | reserved
  | opcode
  | width
  | srcLen
  | capacity
  | align
  | range
  | overlap
  | bus
deriving DecidableEq, Repr

/-- A command word that passed its decoding: `Cmd(op, InW, OutW, W)` of 30_encoding.md R62. -/
structure Command where
  op   : Op
  inw  : Width
  outw : Width
  /-- The bit-width `W`. -/
  w    : Nat
deriving DecidableEq, Repr

/-- The instructions of spec/opcode_table.json. The first two are CMD64 command words (a word that selects PACK or UNPACK by
match and mask, 30_encoding.md R63, with any `W` in 0..127, R58), the rest host operations on the register interface (R69). -/
inductive Instr where
  /-- PACK (41_pack.md R84). -/
  | pack (inw outw : Width) (w : BitVec 7)
  /-- UNPACK (42_unpack.md R98). -/
  | unpack (inw outw : Width) (w : BitVec 7)
  /-- RegRead(off) (40_host_registers.md R71). -/
  | regRead (off : BitVec 8)
  /-- RegWrite(0x00, v) (R72). -/
  | regWriteCtrl (v : Word)
  /-- RegWrite(0x08, v) (R73). -/
  | regWriteStatus (v : Word)
  /-- RegWrite(0x10, v) (R74, R75). -/
  | regWriteCmd (v : Word)
  /-- RegWrite(0x18, v) (R76, R77). -/
  | regWriteSrcBase (v : Word)
  /-- RegWrite(0x20, v) (R76, R77). -/
  | regWriteSrcLen (v : Word)
  /-- RegWrite(0x28, v) (R76, R77). -/
  | regWriteDstBase (v : Word)
  /-- RegWrite(0x30, v) (R76, R77). -/
  | regWriteDstCap (v : Word)
  /-- RegWrite(0x38, v) (R76, R77). -/
  | regWriteCount (v : Word)
  /-- RegWrite(0x40, v) (R78). -/
  | regWriteWords (v : Word)
  /-- RegWrite(off, v) for a reserved offset 0x48..0xF8 (R79). -/
  | regWriteReserved (off : BitVec 8) (v : Word)
deriving DecidableEq, Repr

/-- Direction of a host operation: `W` or `R` (30_encoding.md R69). -/
inductive Dir where
  | write
  | read
deriving DecidableEq, Repr

/-- The raw form of an instruction, which the decoder reads: a 64-bit command word in format CMD64 (30_encoding.md R55), or a
host operation `(dir, offset, data)` with its access size in bytes (R69, 40_host_registers.md R70). -/
inductive Transfer where
  | cmd64 (word : Word)
  | hostOp (dir : Dir) (off size : Nat) (data : Word)
deriving DecidableEq, Repr

/-- A host access outside the model (40_host_registers.md R70). -/
inductive AccessReject where
  /-- An access that is not 64 bits wide. -/
  | size
  /-- An access not aligned to 8 bytes. -/
  | misaligned
  /-- An access outside the 0x100-byte window. -/
  | outsideWindow
deriving DecidableEq, Repr

/-- Why the decoder reads no instruction from a transfer. The first two concern a command word, which selects neither PACK nor
UNPACK: it is still taken by a write to CMD and fails with its error code (30_encoding.md R62). -/
inductive Reject where
  /-- RSV0 or RSV1 is not 0. -/
  | reservedBits
  /-- OP is 0b00 or 0b11. -/
  | reservedOp
  | access (r : AccessReject)
deriving DecidableEq, Repr

/-- The nine registers by name (10_state.md R16). -/
inductive Reg where
  | ctrl
  | status
  | cmd
  | srcBase
  | srcLen
  | dstBase
  | dstCap
  | count
  | words
deriving DecidableEq, Repr

/-- One line of a host program (30_encoding.md R67). `bz` is control flow of the host, not an operation of the block (R82). -/
inductive Line where
  | label (l : String)
  | wr (r : Reg) (v : Word)
  | rd (r : Reg) (t : String)
  | bz (t : String) (mask : Word) (l : String)
deriving DecidableEq, Repr

/-- The pseudo-instructions of the host syntax (30_encoding.md R68). `fresh` is the fresh label of a WAITDONE. -/
inductive Pseudo where
  | waitdone (fresh : String)
  | ack
  | clrdrop
  | run (command : Word) (fresh : String)
  | setup (sb sl db dc n : Word)
deriving DecidableEq, Repr

end Sys2Proof
end

