-- ==== Sys2Proof/WellFormed.lean ====
section
/-! DEFINITION. Which instructions are well formed: a legal bit-width (00_scope.md R7, 30_encoding.md R58) and a legal register
offset (40_host_registers.md R70, R79). -/

namespace Sys2Proof

/-- `W` is legal for value words of width `inw`: `1 <= W <= InW` (00_scope.md R7). -/
def legalW (inw : Width) (w : BitVec 7) : Bool :=
  decide (1 ≤ w.toNat) && decide (w.toNat ≤ inw.bits)

/-- A register offset is a multiple of 8 in 0x00..0xF8 (40_host_registers.md R70). -/
def alignedOffset (off : BitVec 8) : Bool := decide (off.toNat % 8 = 0)

/-- Well-formed instructions. A PACK or UNPACK word with an illegal `W` is ill formed, and still has its meaning: it fails with
ERR_WIDTH (60_exceptions.md R128). -/
def Instr.wf : Instr → Bool
  | .pack inw _ w => legalW inw w
  | .unpack inw _ w => legalW inw w
  | .regRead off => alignedOffset off
  | .regWriteCtrl _ => true
  | .regWriteStatus _ => true
  | .regWriteCmd _ => true
  | .regWriteSrcBase _ => true
  | .regWriteSrcLen _ => true
  | .regWriteDstBase _ => true
  | .regWriteDstCap _ => true
  | .regWriteCount _ => true
  | .regWriteWords _ => true
  | .regWriteReserved off _ => alignedOffset off && decide (0x48 ≤ off.toNat)

end Sys2Proof
end

