-- ==== Sys2Proof/Decode.lean ====
section
/-! DEFINITION. Decoding, total on every command word and every host access, and the encoder, both from 30_encoding.md R54 to
R69; then the assembler and the pseudo-instructions of R66 to R68. -/

namespace Sys2Proof

/-! ### Fields of a command word (30_encoding.md R55) -/

/-- OP, bits 1:0. -/
def cmdOp (c : Word) : BitVec 2 := c.extractLsb' 0 2
/-- INW, bits 3:2. -/
def cmdInw (c : Word) : BitVec 2 := c.extractLsb' 2 2
/-- OUTW, bits 5:4. -/
def cmdOutw (c : Word) : BitVec 2 := c.extractLsb' 4 2
/-- RSV0, bits 7:6. -/
def cmdRsv0 (c : Word) : BitVec 2 := c.extractLsb' 6 2
/-- W, bits 14:8. -/
def cmdW (c : Word) : BitVec 7 := c.extractLsb' 8 7
/-- RSV1, bits 63:15. -/
def cmdRsv1 (c : Word) : BitVec 49 := c.extractLsb' 15 49

/-- The width a width code names, `8 << code` (30_encoding.md R57). -/
def widthOfCode (c : BitVec 2) : Width :=
  if c = 0 then .w8 else if c = 1 then .w16 else if c = 2 then .w32 else .w64

/-- `code` of 30_encoding.md R61. -/
def widthCode : Width → BitVec 2
  | .w8 => 0
  | .w16 => 1
  | .w32 => 2
  | .w64 => 3

/-- The OP field's value of an operation (30_encoding.md R56). -/
def opCode : Op → BitVec 2
  | .pack => 1
  | .unpack => 2

/-- `enc(op, iw, ow, w)` (30_encoding.md R61). -/
def encodeCommand (op : Op) (inw outw : Width) (w : BitVec 7) : Word :=
  (opCode op).setWidth 64 ||| ((widthCode inw).setWidth 64 <<< 2) ||| ((widthCode outw).setWidth 64 <<< 4)
    ||| (w.setWidth 64 <<< 8)

/-- `decode(c)`: every 64-bit word is a command or `Bad(E)` (30_encoding.md R62). Reserved bits are looked at first, then OP, then
`W`. -/
def decodeCommand (c : Word) : Except Err Command :=
  if cmdRsv0 c ≠ 0 ∨ cmdRsv1 c ≠ 0 then .error .reserved
  else if cmdOp c = 0 ∨ cmdOp c = 3 then .error .opcode
  else if (cmdW c).toNat = 0 ∨ (widthOfCode (cmdInw c)).bits < (cmdW c).toNat then .error .width
  else .ok { op := if cmdOp c = 1 then .pack else .unpack
             inw := widthOfCode (cmdInw c)
             outw := widthOfCode (cmdOutw c)
             w := (cmdW c).toNat }

/-! ### The decoder -/

/-- The instruction a CMD64 word selects by match and mask (30_encoding.md R63): RSV0 and RSV1 clear, OP = 0b01 PACK, OP = 0b10
UNPACK. `W` is taken as it stands (R58). -/
def decodeCmd64 (c : Word) : Except Reject Instr :=
  if cmdRsv0 c ≠ 0 ∨ cmdRsv1 c ≠ 0 then .error .reservedBits
  else if cmdOp c = 1 then .ok (.pack (widthOfCode (cmdInw c)) (widthOfCode (cmdOutw c)) (cmdW c))
  else if cmdOp c = 2 then .ok (.unpack (widthOfCode (cmdInw c)) (widthOfCode (cmdOutw c)) (cmdW c))
  else .error .reservedOp

/-- The register write at an offset of the window (10_state.md R16, 40_host_registers.md R72 to R79). -/
def decodeWrite (off : Nat) (v : Word) : Instr :=
  match off with
  | 0x00 => .regWriteCtrl v
  | 0x08 => .regWriteStatus v
  | 0x10 => .regWriteCmd v
  | 0x18 => .regWriteSrcBase v
  | 0x20 => .regWriteSrcLen v
  | 0x28 => .regWriteDstBase v
  | 0x30 => .regWriteDstCap v
  | 0x38 => .regWriteCount v
  | 0x40 => .regWriteWords v
  | _ => .regWriteReserved (BitVec.ofNat 8 off) v

/-- A host access: only a 64-bit access at a multiple of 8 inside the 0x100-byte window has a meaning
(40_host_registers.md R70). -/
def decodeHostOp (dir : Dir) (off size : Nat) (v : Word) : Except AccessReject Instr :=
  if size ≠ 8 then .error .size
  else if off % 8 ≠ 0 then .error .misaligned
  else if Config.regWindow ≤ off then .error .outsideWindow
  else match dir with
    | .read => .ok (.regRead (BitVec.ofNat 8 off))
    | .write => .ok (decodeWrite off v)

/-- The decoder, total on every transfer. -/
def decode : Transfer → Except Reject Instr
  | .cmd64 word => decodeCmd64 word
  | .hostOp dir off size data =>
    match decodeHostOp dir off size data with
    | .ok i => .ok i
    | .error r => .error (.access r)

/-! ### The encoder -/

/-- The transfer that carries an instruction (30_encoding.md R61, R69). A read carries no data (`data` is absent for `R`). -/
def encode : Instr → Transfer
  | .pack inw outw w => .cmd64 (encodeCommand .pack inw outw w)
  | .unpack inw outw w => .cmd64 (encodeCommand .unpack inw outw w)
  | .regRead off => .hostOp .read off.toNat 8 0
  | .regWriteCtrl v => .hostOp .write 0x00 8 v
  | .regWriteStatus v => .hostOp .write 0x08 8 v
  | .regWriteCmd v => .hostOp .write 0x10 8 v
  | .regWriteSrcBase v => .hostOp .write 0x18 8 v
  | .regWriteSrcLen v => .hostOp .write 0x20 8 v
  | .regWriteDstBase v => .hostOp .write 0x28 8 v
  | .regWriteDstCap v => .hostOp .write 0x30 8 v
  | .regWriteCount v => .hostOp .write 0x38 8 v
  | .regWriteWords v => .hostOp .write 0x40 8 v
  | .regWriteReserved off v => .hostOp .write off.toNat 8 v

/-! ### Words numbered as spec/opcode_table.json numbers them -/

/-- The transfer of an instruction whose bits are `w`. A row of 64 bits is a CMD64 word. A HOSTOP row gives the offset its low
byte; the rest of the layout is the model's (DESIGN CHOICE, log entry 8: bits 15:8 the direction, 0 for W and 1 for R, and bits
79:16 the data), since 30_encoding.md R69 leaves the travel of a triple to the platform. -/
def tableTransfer (nbits w : Nat) : Option Transfer :=
  let b := w % 2 ^ nbits
  if nbits = 64 then some (.cmd64 (BitVec.ofNat 64 b))
  else
    match (b >>> 8) % 256 with
    | 0 => some (.hostOp .write (b % 256) 8 (BitVec.ofNat 64 (b >>> 16)))
    | 1 => some (.hostOp .read (b % 256) 8 (BitVec.ofNat 64 (b >>> 16)))
    | _ => none

/-- The instruction the decoder reads from the bits of a row of spec/opcode_table.json. -/
def decodeTableWord (nbits w : Nat) : Option Instr :=
  match tableTransfer nbits w with
  | some t => (decode t).toOption
  | none => none

/-! ### Assembler and host program syntax (30_encoding.md R66 to R68) -/

/-- The width a decimal number of the assembler names. -/
def widthOfNat (n : Nat) : Option Width :=
  match n with
  | 8 => some .w8
  | 16 => some .w16
  | 32 => some .w32
  | 64 => some .w64
  | _ => none

/-- The word of `PACK(i=, o=, w=)` or `UNPACK(i=, o=, w=)`; the assembler rejects widths outside {8,16,32,64} and `w` outside
0..127 (30_encoding.md R66). -/
def assemble (op : Op) (i o w : Nat) : Option Word :=
  match widthOfNat i, widthOfNat o with
  | some inw, some outw => if w ≤ 127 then some (encodeCommand op inw outw (BitVec.ofNat 7 w)) else none
  | _, _ => none

/-- `off(<REG>)`: the offset of a register (10_state.md R16). -/
def regOffset : Reg → BitVec 8
  | .ctrl => 0x00
  | .status => 0x08
  | .cmd => 0x10
  | .srcBase => 0x18
  | .srcLen => 0x20
  | .dstBase => 0x28
  | .dstCap => 0x30
  | .count => 0x38
  | .words => 0x40

/-- The host operation of a line; labels and host branches are none (30_encoding.md R67). -/
def lineInstr : Line → Option Instr
  | .label _ => none
  | .wr r v => some (decodeWrite (regOffset r).toNat v)
  | .rd r _ => some (.regRead (regOffset r))
  | .bz _ _ _ => none

/-- The lines a pseudo-instruction stands for (30_encoding.md R68). -/
def expandPseudo : Pseudo → List Line
  | .waitdone l => [.label l, .rd .status "t", .bz "t" 0x2 l]
  | .ack => [.wr .status 0x2]
  | .clrdrop => [.wr .status 0x4]
  | .run c l => [.wr .cmd c, .label l, .rd .status "t", .bz "t" 0x2 l]
  | .setup sb sl db dc n => [.wr .srcBase sb, .wr .srcLen sl, .wr .dstBase db, .wr .dstCap dc, .wr .count n]

/-- Whether the host takes a `BZ t, mask, L`: `(t & mask) == 0` (30_encoding.md R67). -/
def bzTaken (t mask : Word) : Bool := decide (t &&& mask = 0)

end Sys2Proof
end

