-- ==== Sys2Proof/Machine/State.lean ====
section
/-! DEFINITION. The state of the machine as plain data (10_state.md R15 to R32), the reasons a step can stop, and the state right
after reset (70_reset_and_hazards.md R149). -/

namespace Sys2Proof.Machine

/-- Data memory: bytes by address, in one canonical form (addresses strictly rising, no entry equal to what an unlisted address
reads as; `Memory.wf` in Machine/Ops.lean). -/
abbrev Memory := List Host.Cell

/-- One memory access of a command's access sequence: `Rd(i)` reads source word `i`, `Wr(k)` writes destination word `k`
(41_pack.md R92, 42_unpack.md R106). -/
inductive Access where
  | rd (i : Nat)
  | wr (k : Nat)
deriving DecidableEq, Repr

/-- The hidden engine state of a running command (10_state.md R30). -/
structure Job where
  /-- OP. -/
  op    : Op
  /-- INW. -/
  inw   : Width
  /-- OUTW. -/
  outw  : Width
  /-- WB, the bit-width `W`. -/
  w     : Nat
  /-- CNT, the copy of COUNT. -/
  cnt   : Nat
  /-- SB, the copy of SRC_BASE. -/
  sb    : Nat
  /-- DB, the copy of DST_BASE. -/
  db    : Nat
  /-- POS: how many accesses of the access sequence are done. -/
  pos   : Nat
  /-- RDATA: the source words read so far, by source word index. -/
  rdata : List (Nat × Nat)
deriving DecidableEq, Repr

/-- PHASE, with the running command's hidden state in RUN (10_state.md R30). The hidden fields do not exist in IDLE, where the
spec lets no rule read them (93_implementation_defined.md U14). STATUS.BUSY is 1 exactly in RUN and has its home here. -/
inductive Phase where
  | idle
  | run (job : Job)
deriving DecidableEq, Repr

/-- The buffers a command that went to RUN owns from its CMD write until the host reads DONE = 1: the required source and
destination extents, and the destination word's bytes (70_reset_and_hazards.md R155). The model's own record, for the draws of
20_memory.md R53 (log entry 6). -/
structure Claim where
  src      : Extent
  dst      : Extent
  dstBytes : Nat
deriving DecidableEq, Repr

/-- One codec instance: its nine registers, its flags and its hidden engine state (10_state.md R15). -/
structure Codec where
  /-- `REG_BASE`, the byte address of the register window (10_state.md R16). A platform parameter: no step changes it. -/
  regBase : Nat
  /-- The reset input is asserted (70_reset_and_hazards.md R148). -/
  inReset : Bool
  /-- CTRL.IE (10_state.md R17). -/
  ie      : Bool
  /-- STATUS.DONE (10_state.md R18). -/
  done    : Bool
  /-- STATUS.DROP (10_state.md R18). -/
  drop    : Bool
  /-- STATUS.ERR (10_state.md R18). -/
  err     : Err
  /-- CMD (10_state.md R19). -/
  cmd     : Word
  /-- SRC_BASE (10_state.md R20). -/
  srcBase : Word
  /-- SRC_LEN (10_state.md R21). -/
  srcLen  : Word
  /-- DST_BASE (10_state.md R22). -/
  dstBase : Word
  /-- DST_CAP (10_state.md R23). -/
  dstCap  : Word
  /-- COUNT (10_state.md R24). -/
  count   : Word
  /-- WORDS (10_state.md R25). -/
  words   : Word
  /-- PHASE (with STATUS.BUSY) and the hidden engine state (10_state.md R30). -/
  phase   : Phase
  /-- The model's own: the buffers of the commands that went to RUN since the host last read DONE = 1, the latest first. Only
  that read ends a claim: neither a new command nor a reset does (20_memory.md R47, R48, 70_reset_and_hazards.md R155; log
  entry 6). -/
  claims  : List Claim
  /-- The model's own: the ranges other agents wrote inside the running command's extents (20_memory.md R53, log entry 6). -/
  raced   : List Extent
deriving DecidableEq, Repr

/-- What reaches the machine from outside, one per step. -/
inductive Input where
  /-- A command word in format CMD64 given to instance `inst`: the data of a host write to CMD (30_encoding.md R54). -/
  | command (inst : Nat) (word : Word)
  /-- A host access of `size` bytes at a bus address (40_host_registers.md R70). -/
  | access (dir : Dir) (addr size : Nat) (data : Word)
  /-- Instance `inst` takes its next engine step (40_host_registers.md R81). -/
  | engine (inst : Nat)
  /-- The reset input of instance `inst` is asserted or released (70_reset_and_hazards.md R148). -/
  | reset (inst : Nat) (asserted : Bool)
  /-- The host reads a byte of data memory (20_memory.md R34). -/
  | memRead (addr : Nat)
  /-- The host writes a byte of data memory (20_memory.md R34). -/
  | memWrite (addr : Nat) (value : Byte)
deriving DecidableEq, Repr

/-- The machine: the platform's parameters, the codec instances, the shared data memory, and what stands outside. The instances
are `before ++ codec :: after`, in order. `codec` is the one the current step is about; every meaning acts on it. -/
structure State where
  /-- The platform's OPEN parameters. No step changes them. -/
  platform : Platform
  /-- The instances before the selected one. -/
  before   : List Codec
  /-- The selected instance. -/
  codec    : Codec
  /-- The instances after the selected one. -/
  after    : List Codec
  /-- Data memory, shared by the host and every instance (20_memory.md R33). -/
  mem      : Memory
  /-- The inputs to come, in order: which agent moves next (40_host_registers.md R81). -/
  inputs   : List Input
  /-- The value the last host read returned (40_host_registers.md R71; the host's temporary `t` of 30_encoding.md R67). -/
  readData : Word
  /-- The model's own: how many free bytes have been drawn (log entry 5). -/
  draws    : Nat
deriving DecidableEq, Repr

/-- Why the machine stops with a fault. -/
inductive Fault where
  /-- A host access to data memory at an address at or above `2^ADDR_W`, which does not exist (20_memory.md R33). Raised by
  the input `memRead` or `memWrite`, never by an instruction. Safe: the model stops. -/
  | noSuchAddress
deriving DecidableEq, Repr

/-- Why the machine gives a step no meaning. -/
inductive Refusal where
  /-- An instruction whose meaning is not written yet. No arm of `exec` answers it. Safe. -/
  | notModelled (mnemonic : String)
  /-- A register access that is not 64 bits wide (40_host_registers.md R70). Raised by `step`. Safe: the spec refuses it. -/
  | accessSize
  /-- A register access not aligned to 8 bytes (40_host_registers.md R70). Raised by `step`, and by the meanings of ill-formed
  RegRead and RegWrite_reserved. Safe: the spec refuses it. -/
  | accessMisaligned
  /-- A register access outside every register window (40_host_registers.md R70). Raised by `step`. Safe. -/
  | accessOutsideWindow
  /-- The ill-formed RegWrite_reserved whose offset names a register (below 0x48). No decoding gives it. Safe. -/
  | notReservedOffset
  /-- An input names an instance the platform does not have. Raised by `step`. Safe. -/
  | noSuchInstance
  /-- A command that passed all its checks, with a buffer over a register window or a device region (20_memory.md R35, R42;
  70_reset_and_hazards.md R155 says such a command is refused). Raised by PACK, UNPACK and RegWrite_CMD. Safe. -/
  | bufferOutsideModel
  /-- A host access to data memory in a device region or over a register window, whose behaviour the spec does not give
  (20_memory.md R35, R42). Raised by the input `memRead` or `memWrite`. Safe. -/
  | deviceAccess
deriving DecidableEq, Repr

/-- An instance in the reset state (70_reset_and_hazards.md R149), with its reset input asserted or not, and the claims that
the host has still not ended. -/
def Codec.resetState (regBase : Nat) (asserted : Bool) (claims : List Claim) : Codec :=
  { regBase := regBase, inReset := asserted
    ie := false, done := false, drop := false, err := .ok
    cmd := 0, srcBase := 0, srcLen := 0, dstBase := 0, dstCap := 0, count := 0, words := 0
    phase := .idle, claims := claims, raced := [] }

/-- The machine right after reset on a platform `p` whose instances have their windows at `base` and at `more`: every instance in
its reset state, with the reset input released. -/
def State.resetOn (p : Platform) (base : Nat) (more : List Nat) : State :=
  { platform := p
    before := []
    codec := Codec.resetState base false []
    after := more.map fun b => Codec.resetState b false []
    mem := []
    inputs := []
    readData := 0
    draws := 0 }

/-- The machine right after reset on the standard platform, with one instance whose window is at address 0 (DESIGN CHOICE, log
entry 3). -/
def State.reset : State := State.resetOn Platform.standard 0 []

end Sys2Proof.Machine
end

