-- ==== Sys2Proof/Machine/Operands.lean ====
section
/-! DEFINITION. The exact arithmetic (00_scope.md R10, 43_width_adaptation.md R112 to R121) and the operands of a command: its
lengths, extents, word widths and word addresses (30_encoding.md R60, 60_exceptions.md R124, R125). -/

namespace Sys2Proof.Machine

/-- `ceildiv(a, b)` (00_scope.md R10). -/
def ceildiv (a b : Nat) : Nat := (a + b - 1) / b

/-- `x & mask(n)`, which is `x mod 2^n` (43_width_adaptation.md R112). -/
def maskTo (n x : Nat) : Nat := x % 2 ^ n

/-- `v[lo + len - 1 : lo]`, as a number (00_scope.md R9). -/
def slice (v lo len : Nat) : Nat := maskTo len (v >>> lo)

/-- The packed length `N = ceildiv(count*W, OutW)` (43_width_adaptation.md R113). -/
def packedLength (count w : Nat) (outw : Width) : Nat := ceildiv (count * w) outw.bits

/-- The end of a half-open range. -/
def extentEnd (e : Extent) : Nat := e.base + e.len

/-- Two non-empty ranges that share a byte: `a.lo < b.hi and b.lo < a.hi` (60_exceptions.md R133). -/
def extentsMeet (a b : Extent) : Bool :=
  decide (a.len ≠ 0) && decide (b.len ≠ 0) && decide (a.base < extentEnd b) && decide (b.base < extentEnd a)

/-- A non-empty range that reaches past `2^ADDR_W` (60_exceptions.md R132). -/
def extentOutOfRange (addrW : Nat) (e : Extent) : Bool :=
  decide (e.len ≠ 0) && decide (2 ^ addrW < extentEnd e)

/-- `N` of a command. -/
def jobPackedWords (j : Job) : Nat := packedLength j.cnt j.w j.outw

/-- Width of the source words: `InW` for PACK, `OutW` for UNPACK (30_encoding.md R60). -/
def jobSrcWidth (j : Job) : Width :=
  match j.op with
  | .pack => j.inw
  | .unpack => j.outw

/-- Width of the destination words (30_encoding.md R60). -/
def jobDstWidth (j : Job) : Width :=
  match j.op with
  | .pack => j.outw
  | .unpack => j.inw

/-- `sreq`: how many source words the command reads (60_exceptions.md R125). -/
def jobSrcWords (j : Job) : Nat :=
  match j.op with
  | .pack => j.cnt
  | .unpack => jobPackedWords j

/-- `dreq`: how many destination words the command writes (60_exceptions.md R125). -/
def jobDstWords (j : Job) : Nat :=
  match j.op with
  | .pack => jobPackedWords j
  | .unpack => j.cnt

/-- `SX`, the required source extent in bytes (60_exceptions.md R124). -/
def jobSrc (j : Job) : Extent := ⟨j.sb, jobSrcWords j * (jobSrcWidth j).bytes⟩

/-- `DX`, the required destination extent in bytes (60_exceptions.md R124). -/
def jobDst (j : Job) : Extent := ⟨j.db, jobDstWords j * (jobDstWidth j).bytes⟩

/-- The bytes of source word `i`: `base + i*(N/8)` (20_memory.md R38). -/
def jobSrcWord (j : Job) (i : Nat) : Extent := ⟨j.sb + i * (jobSrcWidth j).bytes, (jobSrcWidth j).bytes⟩

/-- The bytes of destination word `k` (20_memory.md R38). -/
def jobDstWord (j : Job) (k : Nat) : Extent := ⟨j.db + k * (jobDstWidth j).bytes, (jobDstWidth j).bytes⟩

/-- How many accesses the command makes: `count + N` (70_reset_and_hazards.md R162). -/
def jobLength (j : Job) : Nat := j.cnt + jobPackedWords j

/-- The buffers a running command owns (70_reset_and_hazards.md R155). -/
def jobClaim (j : Job) : Claim := ⟨jobSrc j, jobDst j, (jobDstWidth j).bytes⟩

/-- The hidden engine state of a command as acceptance sets it: copies of the registers, POS = 0 and RDATA empty
(60_exceptions.md R124). -/
def jobOf (m : Command) (c : Codec) : Job :=
  { op := m.op, inw := m.inw, outw := m.outw, w := m.w
    cnt := c.count.toNat, sb := c.srcBase.toNat, db := c.dstBase.toNat
    pos := 0, rdata := [] }

/-- The checks on the registers of a decoded command, in code order 4 to 8 (60_exceptions.md R124, R129 to R133). -/
def checkJob (addrW : Nat) (c : Codec) (j : Job) : Except Err Job :=
  if c.srcLen.toNat < jobSrcWords j then .error .srcLen
  else if c.dstCap.toNat < jobDstWords j then .error .capacity
  else if j.sb % (jobSrcWidth j).bytes ≠ 0 ∨ j.db % (jobDstWidth j).bytes ≠ 0 then .error .align
  else if extentOutOfRange addrW (jobSrc j) ∨ extentOutOfRange addrW (jobDst j) then .error .range
  else if extentsMeet (jobSrc j) (jobDst j) then .error .overlap
  else .ok j

/-- All eight acceptance checks of a command word, the lowest failing code first (60_exceptions.md R124, R136). -/
def checkCommand (addrW : Nat) (c : Codec) (v : Word) : Except Err Job :=
  match decodeCommand v with
  | .error e => .error e
  | .ok m => checkJob addrW c (jobOf m c)

end Sys2Proof.Machine
end

