-- ==== Sys2Proof/Machine/Flags.lean ====
section
/-! DEFINITION. The flags of STATUS and what writes them: BUSY, DONE, DROP, ERR, the STATUS and CTRL words a host reads, the end
of a command with an error (00_scope.md R13) or with success (60_exceptions.md R137), the acknowledgement
(40_host_registers.md R73), and the interrupt output (60_exceptions.md R138). -/

namespace Sys2Proof.Machine

/-- STATUS.BUSY: 1 exactly in phase RUN (10_state.md R18, R30). -/
def Codec.busy (c : Codec) : Bool :=
  match c.phase with
  | .idle => false
  | .run _ => true

/-- The code of STATUS.ERR (60_exceptions.md R123). -/
def errCode : Err → BitVec 4
  | .ok => 0
  | .reserved => 1
  | .opcode => 2
  | .width => 3
  | .srcLen => 4
  | .capacity => 5
  | .align => 6
  | .range => 7
  | .overlap => 8
  | .bus => 9

/-- A flag as the bit 0 of a register word. -/
def flagWord (b : Bool) : Word := if b then 1 else 0

/-- CTRL as a host reads it: IE in bit 0, the reserved bits 0 (40_host_registers.md R71). -/
def ctrlWord (c : Codec) : Word := flagWord c.ie

/-- STATUS as a host reads it (40_host_registers.md R71): BUSY, DONE, DROP in bits 0, 1, 2 and ERR in bits 11:8. -/
def statusWord (c : Codec) : Word :=
  flagWord c.busy ||| (flagWord c.done <<< 1) ||| (flagWord c.drop <<< 2) ||| ((errCode c.err).setWidth 64 <<< 8)

/-- The output `irq = CTRL.IE and STATUS.DONE` (60_exceptions.md R138). -/
def Codec.irq (c : Codec) : Bool := c.ie && c.done

/-- `fail(E)`: the command ends with an error (00_scope.md R13). -/
def Codec.fail (c : Codec) (e : Err) : Codec :=
  { c with phase := .idle, done := true, err := e, words := 0 }

/-- `complete(n)`: the command ends with success (60_exceptions.md R137). -/
def Codec.complete (c : Codec) (n : Nat) : Codec :=
  { c with phase := .idle, done := true, err := .ok, words := BitVec.ofNat 64 n }

/-- The head of `Accept(v)`: CMD takes the word, and DONE, ERR and WORDS are cleared (60_exceptions.md R124,
40_host_registers.md R74). -/
def Codec.take (c : Codec) (v : Word) : Codec :=
  { c with cmd := v, done := false, err := .ok, words := 0 }

/-- The end of `Accept(v)` for a command that goes to RUN (60_exceptions.md R124): from now on it claims its buffers, beside the
claims the host has not ended (70_reset_and_hazards.md R155, log entry 6). -/
def Codec.start (c : Codec) (j : Job) : Codec :=
  { c with phase := .run j, claims := jobClaim j :: c.claims, raced := [] }

/-- A dropped register write: DROP becomes 1 and nothing else changes (40_host_registers.md R75, R77). -/
def Codec.dropWrite (c : Codec) : Codec := { c with drop := true }

/-- `RegWrite(0x08, v)`: bit 1 clears DONE and ERR, bit 2 clears DROP (40_host_registers.md R73). -/
def Codec.acknowledge (c : Codec) (v : Word) : Codec :=
  { c with
    done := if v.getLsbD 1 then false else c.done
    err := if v.getLsbD 1 then .ok else c.err
    drop := if v.getLsbD 2 then false else c.drop }

/-- What a host read of STATUS settles: once it returns DONE = 1 the host owns the buffers again (20_memory.md R47,
70_reset_and_hazards.md R155). Nothing else ends a claim, and no register changes. -/
def Codec.seen (c : Codec) : Codec :=
  if c.done then { c with claims := [] } else c

end Sys2Proof.Machine
end

