-- ==== Sys2Proof/Machine/Ops.lean ====
section
/-! DEFINITION. The named operations over memory, draws, instances and registers: byte and word access in both byte orders
(20_memory.md R37), races (R53), the platform's answers (60_exceptions.md R134), taking a command (60_exceptions.md R124), and
reset (70_reset_and_hazards.md R148 to R151). The block has no trap: a command's end by an error is `Codec.fail`
(Machine/Flags.lean), and its "return" is the acknowledgement. -/

namespace Sys2Proof.Machine

/-! ### Memory, byte by byte -/

/-- The byte at an address. -/
def Memory.read : Memory → Nat → Byte
  | [], _ => Config.unlistedByte
  | (k, b) :: m, a => if k = a then b else Memory.read m a

/-- Write a byte, keeping the canonical form. -/
def Memory.write : Memory → Nat → Byte → Memory
  | [], a, v => if v = Config.unlistedByte then [] else [(a, v)]
  | (k, b) :: m, a, v =>
    if a < k then (if v = Config.unlistedByte then (k, b) :: m else (a, v) :: (k, b) :: m)
    else if a = k then (if v = Config.unlistedByte then m else (a, v) :: m)
    else (k, b) :: Memory.write m a v

/-- Every address of the list is above `lo`, in strictly rising order, and no byte is what an unlisted address reads as. -/
def Memory.wfAbove : Nat → Memory → Bool
  | _, [] => true
  | lo, (k, b) :: m => decide (lo ≤ k) && decide (b ≠ Config.unlistedByte) && Memory.wfAbove (k + 1) m

/-- The canonical form of memory. -/
def Memory.wf (m : Memory) : Bool := Memory.wfAbove 0 m

/-- Write consecutive bytes from an address. -/
def Memory.writeBytes : Memory → Nat → List Byte → Memory
  | m, _, [] => m
  | m, a, b :: bs => Memory.writeBytes (Memory.write m a b) (a + 1) bs

/-- The `n` bytes from an address, in address order. -/
def Memory.readBytes (m : Memory) (a n : Nat) : List Byte :=
  (List.range n).map fun t => Memory.read m (a + t)

/-! ### Words: byte order decided once (20_memory.md R37) -/

/-- The number whose byte `t` is element `t`: the least significant byte first. -/
def leNumber : List Byte → Nat
  | [] => 0
  | b :: bs => b.toNat + 256 * leNumber bs

/-- The `n` low bytes of a number, the least significant first. -/
def leBytes : Nat → Nat → List Byte
  | 0, _ => []
  | n + 1, v => BitVec.ofNat 8 v :: leBytes n (v / 256)

/-- The number that bytes in address order hold under `ENDIAN`. -/
def numberOfBytes (e : Endian) (bs : List Byte) : Nat :=
  match e with
  | .le => leNumber bs
  | .be => leNumber bs.reverse

/-- The bytes in address order that hold a number under `ENDIAN`. -/
def bytesOfNumber (e : Endian) (n v : Nat) : List Byte :=
  match e with
  | .le => leBytes n v
  | .be => (leBytes n v).reverse

/-- `MemRead(a, n)` (00_scope.md R12). -/
def State.memRead (s : State) (x : Extent) : Nat :=
  numberOfBytes s.platform.endian (Memory.readBytes s.mem x.base x.len)

/-! ### Draws (93_implementation_defined.md: "any value") -/

/-- The next `n` free bytes. -/
def State.freeBytes (s : State) (n : Nat) : List Byte :=
  (List.range n).map fun t => Config.freeByte (s.draws + t)

/-- Every byte of a range takes a free value. -/
def State.freeRange (s : State) (x : Extent) : State :=
  { s with mem := Memory.writeBytes s.mem x.base (s.freeBytes x.len), draws := s.draws + x.len }

/-- Every byte of each of some ranges takes a free value, range after range. -/
def State.freeRanges (s : State) (xs : List Extent) : State := xs.foldl State.freeRange s

/-! ### The instances (10_state.md R32) -/

/-- All instances, in order. -/
def State.codecs (s : State) : List Codec := s.before ++ s.codec :: s.after

/-- The instances other than the selected one. -/
def State.others (s : State) : List Codec := s.before ++ s.after

/-- Which instance is selected. -/
def State.selected (s : State) : Nat := s.before.length

/-- Select instance `k`. -/
def State.select (s : State) (k : Nat) : Option State :=
  match s.codecs.drop k with
  | [] => none
  | c :: rest => some { s with before := s.codecs.take k, codec := c, after := rest }

/-- Whether a bus address lies in the instance's register window (40_host_registers.md R70). -/
def inWindow (addr : Nat) (c : Codec) : Bool :=
  decide (c.regBase ≤ addr) && decide (addr < c.regBase + Config.regWindow)

/-- The instance whose register window holds a bus address. -/
def State.route (s : State) (addr : Nat) : Option Nat := s.codecs.findIdx? (inWindow addr)

/-- The next instance with an engine step to take when no input is pending: the selected one if it runs, else the first that
does (weak fairness, 70_reset_and_hazards.md R161; log entry 7). -/
def State.runner (s : State) : Option Nat :=
  if s.codec.busy then some s.selected else s.codecs.findIdx? Codec.busy

/-! ### Races (20_memory.md R53, 70_reset_and_hazards.md R155, R158) -/

/-- The words of a destination extent that a range meets, as one range. -/
def claimWordsHit (cl : Claim) (x : Extent) : Extent :=
  if extentsMeet cl.dst x then
    let first := (max x.base cl.dst.base - cl.dst.base) / cl.dstBytes
    let last := (min (extentEnd x) (extentEnd cl.dst) - 1 - cl.dst.base) / cl.dstBytes
    ⟨cl.dst.base + first * cl.dstBytes, (last + 1 - first) * cl.dstBytes⟩
  else ⟨cl.dst.base, 0⟩

/-- Another agent writes a range: a running command whose extents it meets records it. -/
def Codec.noteWrite (x : Extent) (c : Codec) : Codec :=
  match c.phase with
  | .idle => c
  | .run j => if extentsMeet (jobSrc j) x || extentsMeet (jobDst j) x then { c with raced := x :: c.raced } else c

/-- The destination words an instance claims which a write of another agent to a range spoils. -/
def Codec.spoiled (x : Extent) (c : Codec) : List Extent := c.claims.map fun cl => claimWordsHit cl x

/-- The spoiled words of some instances take free values. -/
def State.spoil (x : Extent) (cs : List Codec) (s : State) : State := s.freeRanges (cs.flatMap (Codec.spoiled x))

/-- Whether an instance claims a destination that a range meets. -/
def Codec.holds (x : Extent) (c : Codec) : Bool := c.claims.any fun cl => extentsMeet cl.dst x

/-- Whether a range meets a destination an instance of `cs` claims: a read of it by another agent is a draw. -/
def readRaces (x : Extent) (cs : List Codec) : Bool := cs.any (Codec.holds x)

/-! ### The platform -/

/-- `BusOK(addr, n, dir)` (60_exceptions.md R134). -/
def State.busOK (s : State) (x : Extent) (dir : BusDir) : Bool :=
  !s.platform.busRefuses.contains ⟨x.base, x.len, dir⟩

/-- The ranges of data memory outside the model: device regions, and the register windows where the platform decodes them there
(20_memory.md R35, R42). -/
def State.outsideRegions (s : State) : List Extent :=
  s.platform.deviceRegions
    ++ (if s.platform.windowsInData then s.codecs.map fun c => ⟨c.regBase, Config.regWindow⟩ else [])

/-- Whether a range lies over a region outside the model. -/
def State.outsideModel (s : State) (x : Extent) : Bool := s.outsideRegions.any fun r => extentsMeet r x

/-! ### Engine access to data memory -/

/-- The engine reads a word (41_pack.md R93): the number memory holds, or a draw where another agent raced (20_memory.md R53). -/
def State.engineLoad (s : State) (x : Extent) : Nat × State :=
  if s.codec.raced.any (fun r => extentsMeet r x) || readRaces x s.others then
    (numberOfBytes s.platform.endian (s.freeBytes x.len), { s with draws := s.draws + x.len })
  else (s.memRead x, s)

/-- The engine writes a word (41_pack.md R93); for the other instances it is a write of another agent. -/
def State.engineStore (s : State) (x : Extent) (v : Nat) : State :=
  State.spoil x s.others
    { s with mem := Memory.writeBytes s.mem x.base (bytesOfNumber s.platform.endian x.len v)
             before := s.before.map (Codec.noteWrite x)
             after := s.after.map (Codec.noteWrite x) }

/-! ### Host access to data memory (20_memory.md R34) -/

/-- The host reads a byte: what memory holds, or a draw in a destination an instance still claims. -/
def hostMemRead (a : Nat) (s : State) : Host.Outcome State Fault Refusal :=
  if 2 ^ s.platform.addrW ≤ a then .fault .noSuchAddress
  else if s.outsideModel ⟨a, 1⟩ then .refused .deviceAccess
  else if readRaces ⟨a, 1⟩ s.codecs then
    .next { s with readData := (Config.freeByte s.draws).setWidth 64, draws := s.draws + 1 }
  else .next { s with readData := (Memory.read s.mem a).setWidth 64 }

/-- The host writes a byte. -/
def hostMemWrite (a : Nat) (v : Byte) (s : State) : Host.Outcome State Fault Refusal :=
  if 2 ^ s.platform.addrW ≤ a then .fault .noSuchAddress
  else if s.outsideModel ⟨a, 1⟩ then .refused .deviceAccess
  else
    .next (State.spoil ⟨a, 1⟩ s.codecs
      { s with mem := Memory.write s.mem a v
               before := s.before.map (Codec.noteWrite ⟨a, 1⟩)
               codec := s.codec.noteWrite ⟨a, 1⟩
               after := s.after.map (Codec.noteWrite ⟨a, 1⟩) })

/-! ### Registers of the selected instance -/

/-- The value at an offset of the window: a register, or 0 at a reserved offset (40_host_registers.md R71). -/
def readReg (c : Codec) (off : Nat) : Word :=
  match off with
  | 0x00 => ctrlWord c
  | 0x08 => statusWord c
  | 0x10 => c.cmd
  | 0x18 => c.srcBase
  | 0x20 => c.srcLen
  | 0x28 => c.dstBase
  | 0x30 => c.dstCap
  | 0x38 => c.count
  | 0x40 => c.words
  | _ => 0

/-- A host write that changes the selected instance by `f`. While the reset input is asserted no register write happens
(70_reset_and_hazards.md R148). -/
def writeAlways (f : Codec → Codec) (s : State) : Host.Outcome State Fault Refusal :=
  if s.codec.inReset then .next s else .next { s with codec := f s.codec }

/-- A host write to an operand register: made by `f` while BUSY = 0, dropped while BUSY = 1 (40_host_registers.md R76, R77). -/
def writeOperand (f : Codec → Codec) (s : State) : Host.Outcome State Fault Refusal :=
  writeAlways (fun c => if c.busy then c.dropWrite else f c) s

/-- `Accept(v)` in the step of the write that is taken (60_exceptions.md R124): the command fails, completes at once
(`count` = 0), or goes to RUN. A command with a buffer over a device region or a register window is refused
(70_reset_and_hazards.md R155). -/
def acceptCommand (v : Word) (s : State) : Host.Outcome State Fault Refusal :=
  let c := s.codec.take v
  match checkCommand s.platform.addrW c v with
  | .error e => .next { s with codec := c.fail e }
  | .ok j =>
    if jobLength j = 0 then .next { s with codec := c.complete 0 }
    else if s.outsideModel (jobSrc j) || s.outsideModel (jobDst j) then .refused .bufferOutsideModel
    else .next { s with codec := c.start j }

/-- A host write to CMD: a command is taken while BUSY = 0, the write is dropped while BUSY = 1 (40_host_registers.md R74, R75). -/
def writeCommand (v : Word) (s : State) : Host.Outcome State Fault Refusal :=
  if s.codec.inReset then .next s
  else if s.codec.busy then .next { s with codec := s.codec.dropWrite }
  else acceptCommand v s

/-! ### Reset (70_reset_and_hazards.md R148 to R151) -/

/-- The reset input is asserted: the instance is in its reset state at once, and a running command's destination words take free
values. No other byte of memory changes. The host has read no DONE = 1 by it, so the claims stay (log entry 6). -/
def assertReset (s : State) : State :=
  let t := match s.codec.phase with
    | .idle => s
    | .run j => s.freeRange (jobDst j)
  { t with codec := Codec.resetState s.codec.regBase true s.codec.claims }

/-- The reset input is released: the instance stays in its reset state and takes register writes again (R152). -/
def releaseReset (s : State) : State := { s with codec := { s.codec with inReset := false } }

end Sys2Proof.Machine
end

