-- ==== Sys2Proof/Machine/Pack.lean ====
section
/-! DEFINITION. PACK (41_pack.md): its access sequence, the words it writes, and the meaning of a PACK command word. The
running command's steps are in Machine/Engine.lean. -/

namespace Sys2Proof.Machine

/-- The writes that follow `Rd(i)`: every packed word `k` with `i*W < (k+1)*OutW <= (i+1)*W`, in increasing order
(41_pack.md R92). -/
def packWrites (ow w i : Nat) : List Access :=
  (List.range' (i * w / ow) ((i + 1) * w / ow - i * w / ow)).map Access.wr

/-- `PackSeq` from value `i` on, with `n` values to go; at the end the last, partly filled word. -/
def packSeqFrom (ow w : Nat) : Nat → Nat → List Access
  | 0, i => if i * w % ow ≠ 0 then [.wr (ceildiv (i * w) ow - 1)] else []
  | n + 1, i => .rd i :: (packWrites ow w i ++ packSeqFrom ow w n (i + 1))

/-- `PackSeq(count, OutW, W)` (41_pack.md R92). -/
def packSeq (count ow w : Nat) : List Access := packSeqFrom ow w count 0

/-- The packed bitstream `S` of the values read: the sum of `(x & mask(W)) << (i*W)` (41_pack.md R85, R93). -/
def packStream (w : Nat) : List (Nat × Nat) → Nat
  | [] => 0
  | (i, x) :: r => (maskTo w x <<< (i * w)) + packStream w r

/-- `packedWord(k) = S[(k+1)*OutW - 1 : k*OutW]` (41_pack.md R85). -/
def packedWord (ow w : Nat) (rdata : List (Nat × Nat)) (k : Nat) : Nat :=
  slice (packStream w rdata) (k * ow) ow

/-- Values by index, as RDATA holds them. -/
def indexed (xs : List Nat) : List (Nat × Nat) := xs.zipIdx.map fun p => (p.2, p.1)

/-- `pack(xs, W)`: the packed words of a whole block (41_pack.md R84, R85). -/
def packWords (ow w : Nat) (xs : List Nat) : List Nat :=
  (List.range (ceildiv (xs.length * w) ow)).map (packedWord ow w (indexed xs))

/-- PACK: the command word is written to CMD (41_pack.md R84, 30_encoding.md R54), so the command is taken, checked and started
(60_exceptions.md R124), or the write is dropped while BUSY = 1. -/
def execPack (inw outw : Width) (w : BitVec 7) (s : State) : Host.Outcome State Fault Refusal :=
  writeCommand (encodeCommand .pack inw outw w) s

end Sys2Proof.Machine
end

