-- ==== Sys2Proof/Machine/Unpack.lean ====
section
/-! DEFINITION. UNPACK (42_unpack.md): its access sequence, the values it writes, and the meaning of an UNPACK command word. The
running command's steps are in Machine/Engine.lean. -/

namespace Sys2Proof.Machine

/-- The reads before `Wr(i)`: every packed word from `next` to the last one value `i` has a bit in (42_unpack.md R106). -/
def unpackReads (ow w i next : Nat) : List Access :=
  (List.range' next ((i * w + w - 1) / ow + 1 - next)).map Access.rd

/-- `UnpackSeq` from value `i` on, with `n` values to go and packed words below `next` already read. -/
def unpackSeqFrom (ow w : Nat) : Nat → Nat → Nat → List Access
  | 0, _, _ => []
  | n + 1, i, next =>
    unpackReads ow w i next ++ .wr i :: unpackSeqFrom ow w n (i + 1) (max next ((i * w + w - 1) / ow + 1))

/-- `UnpackSeq(count, OutW, W)` (42_unpack.md R106). -/
def unpackSeq (count ow w : Nat) : List Access := unpackSeqFrom ow w count 0 0

/-- The packed bitstream of the packed words read: the sum of `p_k * 2^(k*OutW)` (42_unpack.md R99, R107). -/
def unpackStream (ow : Nat) : List (Nat × Nat) → Nat
  | [] => 0
  | (k, p) :: r => (p <<< (k * ow)) + unpackStream ow r

/-- `value(i) = S[i*W + W - 1 : i*W]` (42_unpack.md R99). -/
def unpackedValue (ow w : Nat) (rdata : List (Nat × Nat)) (i : Nat) : Nat :=
  slice (unpackStream ow rdata) (i * w) w

/-- Packed words by index, as RDATA holds them. -/
def indexedPacked (ps : List Nat) : List (Nat × Nat) := ps.zipIdx.map fun p => (p.2, p.1)

/-- `unpack(ps, count, W)`: the values of a whole block (42_unpack.md R98, R99). -/
def unpackValues (ow w count : Nat) (ps : List Nat) : List Nat :=
  (List.range count).map (unpackedValue ow w (indexedPacked ps))

/-- UNPACK: the command word is written to CMD (42_unpack.md R98, 30_encoding.md R54), so the command is taken, checked and
started (60_exceptions.md R124), or the write is dropped while BUSY = 1. -/
def execUnpack (inw outw : Width) (w : BitVec 7) (s : State) : Host.Outcome State Fault Refusal :=
  writeCommand (encodeCommand .unpack inw outw w) s

end Sys2Proof.Machine
end

