-- ==== Sys2Proof/Machine/Engine.lean ====
section
/-! DEFINITION. The engine: one memory access of the running command per step (41_pack.md R93, 42_unpack.md R107), the bus
error (60_exceptions.md R134) and the completion (R137). -/

namespace Sys2Proof.Machine

/-- The access sequence of a command (41_pack.md R92, 42_unpack.md R106). -/
def jobSeq (j : Job) : List Access :=
  match j.op with
  | .pack => packSeq j.cnt j.outw.bits j.w
  | .unpack => unpackSeq j.cnt j.outw.bits j.w

/-- The value of destination word `k` from the source words read so far (41_pack.md R93, 42_unpack.md R107). -/
def jobValue (j : Job) (k : Nat) : Nat :=
  match j.op with
  | .pack => packedWord j.outw.bits j.w j.rdata k
  | .unpack => unpackedValue j.outw.bits j.w j.rdata k

/-- The words of a destination that racing writes met take free values (20_memory.md R53). -/
def State.spoilRaced (cl : Claim) (raced : List Extent) (s : State) : State :=
  s.freeRanges (raced.map (claimWordsHit cl))

/-- `fail(ERR_BUS)`: the access is not made, the command ends, and every word of its destination takes a free value
(60_exceptions.md R134). -/
def busFail (j : Job) (s : State) : State :=
  let t := s.freeRange (jobDst j)
  { t with codec := { t.codec.fail .bus with raced := [] } }

/-- POS counts an access made; after the last one the command completes in the same step (41_pack.md R93, 60_exceptions.md
R137). -/
def advance (j : Job) (s : State) : State :=
  if j.pos + 1 = jobLength j then
    let t := s.spoilRaced (jobClaim j) s.codec.raced
    { t with codec := { t.codec.complete (jobPackedWords j) with raced := [] } }
  else { s with codec := { s.codec with phase := .run { j with pos := j.pos + 1 } } }

/-- `Rd(i)`: source word `i` goes to RDATA. -/
def engineRead (j : Job) (i : Nat) (s : State) : State :=
  if s.busOK (jobSrcWord j i) .read then
    let r := s.engineLoad (jobSrcWord j i)
    advance { j with rdata := j.rdata ++ [(i, r.1)] } r.2
  else busFail j s

/-- `Wr(k)`: destination word `k` is written whole. -/
def engineWrite (j : Job) (k : Nat) (s : State) : State :=
  if s.busOK (jobDstWord j k) .write then
    advance j (s.engineStore (jobDstWord j k) (jobValue j k))
  else busFail j s

/-- One engine step of the selected instance. An instance in IDLE or in reset, or with no access left, has none to take
(60_exceptions.md R147, 70_reset_and_hazards.md R148). -/
def engineStep (s : State) : State :=
  if s.codec.inReset then s
  else
    match s.codec.phase with
    | .idle => s
    | .run j =>
      match (jobSeq j)[j.pos]? with
      | none => s
      | some (.rd i) => engineRead j i s
      | some (.wr k) => engineWrite j k s

/-- `n` engine steps of the selected instance with nothing between them. -/
def engineRun : Nat → State → State
  | 0, s => s
  | n + 1, s => engineRun n (engineStep s)

end Sys2Proof.Machine
end

