-- ==== Sys2Proof/Machine/HostRegs.lean ====
section
/-! DEFINITION. The meanings of the host register operations (40_host_registers.md R71 to R79). -/

namespace Sys2Proof.Machine

/-- RegRead(off): the value goes to the host. No register changes (R71, R80); a read of STATUS that returns DONE = 1 gives the host
its buffers back (20_memory.md R47). -/
def execRegRead (off : BitVec 8) (s : State) : Host.Outcome State Fault Refusal :=
  if alignedOffset off then
    .next { s with readData := readReg s.codec off.toNat
                   codec := if off = 0x08 then s.codec.seen else s.codec }
  else .refused .accessMisaligned

/-- RegWrite CTRL: IE takes bit 0, busy or not (R72). -/
def execRegWriteCtrl (v : Word) (s : State) : Host.Outcome State Fault Refusal :=
  writeAlways (fun c => { c with ie := v.getLsbD 0 }) s

/-- RegWrite STATUS: write 1 to clear, busy or not (R73). -/
def execRegWriteStatus (v : Word) (s : State) : Host.Outcome State Fault Refusal :=
  writeAlways (fun c => c.acknowledge v) s

/-- RegWrite CMD: take a command (R74), or drop the write (R75). -/
def execRegWriteCmd (v : Word) (s : State) : Host.Outcome State Fault Refusal :=
  writeCommand v s

/-- RegWrite SRC_BASE (R76, R77). -/
def execRegWriteSrcBase (v : Word) (s : State) : Host.Outcome State Fault Refusal :=
  writeOperand (fun c => { c with srcBase := v }) s

/-- RegWrite SRC_LEN (R76, R77). -/
def execRegWriteSrcLen (v : Word) (s : State) : Host.Outcome State Fault Refusal :=
  writeOperand (fun c => { c with srcLen := v }) s

/-- RegWrite DST_BASE (R76, R77). -/
def execRegWriteDstBase (v : Word) (s : State) : Host.Outcome State Fault Refusal :=
  writeOperand (fun c => { c with dstBase := v }) s

/-- RegWrite DST_CAP (R76, R77). -/
def execRegWriteDstCap (v : Word) (s : State) : Host.Outcome State Fault Refusal :=
  writeOperand (fun c => { c with dstCap := v }) s

/-- RegWrite COUNT (R76, R77). -/
def execRegWriteCount (v : Word) (s : State) : Host.Outcome State Fault Refusal :=
  writeOperand (fun c => { c with count := v }) s

/-- RegWrite WORDS: read only, so no effect and no DROP (R78). -/
def execRegWriteWords (_v : Word) (s : State) : Host.Outcome State Fault Refusal :=
  writeAlways (fun c => c) s

/-- RegWrite at a reserved offset: no effect (R79). An offset that is no reserved one is ill formed. -/
def execRegWriteReserved (off : BitVec 8) (_v : Word) (s : State) : Host.Outcome State Fault Refusal :=
  if !alignedOffset off then .refused .accessMisaligned
  else if off.toNat < 0x48 then .refused .notReservedOffset
  else writeAlways (fun c => c) s

end Sys2Proof.Machine
end

