-- ==== Sys2Proof/Machine/Dispatch.lean ====
section
/-! DEFINITION. One arm per instruction: the meaning each constructor of Instr has. -/

namespace Sys2Proof.Machine

def exec (i : Instr) (s : State) : Host.Outcome State Fault Refusal :=
  match i with
  | .pack inw outw w => Sys2Proof.Machine.execPack inw outw w s
  | .unpack inw outw w => Sys2Proof.Machine.execUnpack inw outw w s
  | .regRead off => Sys2Proof.Machine.execRegRead off s
  | .regWriteCtrl v => Sys2Proof.Machine.execRegWriteCtrl v s
  | .regWriteStatus v => Sys2Proof.Machine.execRegWriteStatus v s
  | .regWriteCmd v => Sys2Proof.Machine.execRegWriteCmd v s
  | .regWriteSrcBase v => Sys2Proof.Machine.execRegWriteSrcBase v s
  | .regWriteSrcLen v => Sys2Proof.Machine.execRegWriteSrcLen v s
  | .regWriteDstBase v => Sys2Proof.Machine.execRegWriteDstBase v s
  | .regWriteDstCap v => Sys2Proof.Machine.execRegWriteDstCap v s
  | .regWriteCount v => Sys2Proof.Machine.execRegWriteCount v s
  | .regWriteWords v => Sys2Proof.Machine.execRegWriteWords v s
  | .regWriteReserved off v => Sys2Proof.Machine.execRegWriteReserved off v s

end Sys2Proof.Machine
end

