-- ==== Sys2Proof/Machine/Inputs.lean ====
section
/-! DEFINITION. What one input does to the machine: which instance it is about, what the decoder reads from it, and the agent
that moves (40_host_registers.md R81, 70_reset_and_hazards.md R148). -/

namespace Sys2Proof.Machine

/-- The refusal of a register access the decoder rejects (40_host_registers.md R70). -/
def refusalOf : AccessReject → Refusal
  | .size => .accessSize
  | .misaligned => .accessMisaligned
  | .outsideWindow => .accessOutsideWindow

/-- The instruction a command word stands for. A word that selects neither PACK nor UNPACK is still written to CMD, and fails
there with its code (30_encoding.md R62, R63). -/
def commandInstr (word : Word) : Instr :=
  match decode (.cmd64 word) with
  | .ok i => i
  | .error _ => .regWriteCmd word

/-- Run `f` on the machine with instance `k` selected. -/
def onInst (k : Nat) (f : State → Host.Outcome State Fault Refusal) (s : State) : Host.Outcome State Fault Refusal :=
  match s.select k with
  | some t => f t
  | none => .refused .noSuchInstance

/-- A host access at a bus address, decoded against the selected instance's window. -/
def accessSelected (dir : Dir) (addr size : Nat) (data : Word) (s : State) : Host.Outcome State Fault Refusal :=
  match decodeHostOp dir (addr - s.codec.regBase) size data with
  | .ok i => exec i s
  | .error r => .refused (refusalOf r)

/-- One input, with the inputs after it still pending in the state. -/
def applyInput (i : Input) (s : State) : Host.Outcome State Fault Refusal :=
  match i with
  | .command k word => onInst k (fun t => exec (commandInstr word) t) s
  | .access dir addr size data =>
    match s.route addr with
    | some k => onInst k (accessSelected dir addr size data) s
    | none => .refused .accessOutsideWindow
  | .engine k => onInst k (fun t => .next (engineStep t)) s
  | .reset k true => onInst k (fun t => .next (assertReset t)) s
  | .reset k false => onInst k (fun t => .next (releaseReset t)) s
  | .memRead a => hostMemRead a s
  | .memWrite a v => hostMemWrite a v s

/-- No input is pending: an engine with a step to take takes it, and a machine whose instances are all idle stays as it is
(60_exceptions.md R147, 70_reset_and_hazards.md R161). -/
def freeRunning (s : State) : Host.Outcome State Fault Refusal :=
  match s.runner with
  | some k => onInst k (fun t => .next (engineStep t)) s
  | none => .next s

/-- The input that carries a transfer to the selected instance. -/
def inputOf (s : State) : Transfer → Input
  | .cmd64 word => .command s.selected word
  | .hostOp dir off size data => .access dir (s.codec.regBase + off) size data

end Sys2Proof.Machine
end

