-- ==== Sys2Proof/Machine/Step.lean ====
section
/-! DEFINITION. One step of the machine: the next input, or an engine step when none is pending. -/

namespace Sys2Proof.Machine

/-- One atomic step (40_host_registers.md R81): the head of the inputs says which agent moves. -/
def step (s : State) : Host.Outcome State Fault Refusal :=
  match s.inputs with
  | i :: rest => applyInput i { s with inputs := rest }
  | [] => freeRunning s

/-- The state with the instruction of the bits `w` as the next input, for the selected instance. The block fetches nothing
(10_state.md R28): this stands for the host's putting the command word or the access on the block (log entry 9). -/
def State.withFetchWord (s : State) (nbits w : Nat) : State :=
  match tableTransfer nbits w with
  | some t => { s with inputs := inputOf s t :: s.inputs }
  | none => s

end Sys2Proof.Machine
end

