-- ==== Sys2Proof/Machine/Sequential.lean ====
section
/-! DEFINITION. The sequential forms of PACK and UNPACK with a bit cursor (41_pack.md R89, 42_unpack.md R103), and the cursor's
own arithmetic (43_width_adaptation.md R115). The engine's meaning is the bitstream formula; these are the forms an
implementation may use, which the spec says write the same words. -/

namespace Sys2Proof.Machine

/-- The packing cursor: bit cursor `b`, the word being built `cur`, and the words written so far. -/
structure PackCursor where
  b   : Nat
  cur : Nat
  out : List Nat
deriving DecidableEq, Repr

/-- The inner loop of R89: place the bits of `x` from bit `placed` on. Each turn places at least one bit, so `W` turns do. -/
def placeValue (ow w x : Nat) : Nat → Nat → PackCursor → PackCursor
  | 0, _, p => p
  | n + 1, placed, p =>
    if placed < w then
      let take := min (w - placed) (ow - p.b)
      let cur := p.cur ||| (maskTo take (x >>> placed) <<< p.b)
      if p.b + take = ow then placeValue ow w x n (placed + take) ⟨0, 0, p.out ++ [cur]⟩
      else placeValue ow w x n (placed + take) ⟨p.b + take, cur, p.out⟩
    else p

/-- The outer loop of R89. -/
def placeValues (ow w : Nat) : List Nat → PackCursor → PackCursor
  | [], p => p
  | x :: xs, p => placeValues ow w xs (placeValue ow w (maskTo w x) w 0 p)

/-- PACK in its sequential form: the words it writes, in order (41_pack.md R89). -/
def packSequential (ow w : Nat) (xs : List Nat) : List Nat :=
  let p := placeValues ow w xs ⟨0, 0, []⟩
  if p.b ≠ 0 then p.out ++ [p.cur] else p.out

/-- The unpacking cursor: packed word index `k` and read cursor `b`. -/
structure UnpackCursor where
  k : Nat
  b : Nat
deriving DecidableEq, Repr

/-- The inner loop of R103: gather the bits of one value from bit `got` on, from the packed words `ps`. -/
def gatherValue (ow w : Nat) (ps : List Nat) : Nat → Nat → Nat → UnpackCursor → Nat × UnpackCursor
  | 0, _, v, p => (v, p)
  | n + 1, got, v, p =>
    if got < w then
      let take := min (w - got) (ow - p.b)
      let v' := v ||| (maskTo take ((ps.getD p.k 0) >>> p.b) <<< got)
      if p.b + take = ow then gatherValue ow w ps n (got + take) v' ⟨p.k + 1, 0⟩
      else gatherValue ow w ps n (got + take) v' ⟨p.k, p.b + take⟩
    else (v, p)

/-- The outer loop of R103, for `n` values to go. -/
def gatherValues (ow w : Nat) (ps : List Nat) : Nat → UnpackCursor → List Nat
  | 0, _ => []
  | n + 1, p =>
    let r := gatherValue ow w ps w 0 0 p
    r.1 :: gatherValues ow w ps n r.2

/-- UNPACK in its sequential form: the values it writes, in order (42_unpack.md R103). -/
def unpackSequential (ow w count : Nat) (ps : List Nat) : List Nat := gatherValues ow w ps count ⟨0, 0⟩

/-- The bit cursor `b_i` of value `i` (43_width_adaptation.md R115). -/
def bitCursor (ow w i : Nat) : Nat := i * w % ow

/-- The packed word `k_i` value `i` starts in (43_width_adaptation.md R115). -/
def wordCursor (ow w i : Nat) : Nat := i * w / ow

end Sys2Proof.Machine
end

