-- ==== Sys2Proof/Safety.lean ====
section
/-! DEFINITION. What counts as a safe run, and the invariant of the machine: the relations between the parts of the state that
every step keeps (10_state.md R18, R30; 60_exceptions.md R124; 20_memory.md R33). -/

namespace Sys2Proof.Machine

/-- A range lies in data memory, `0 .. 2^ADDR_W - 1` (20_memory.md R33). -/
abbrev extentInside (addrW : Nat) (x : Extent) : Prop := x.len = 0 ∨ extentEnd x ≤ 2 ^ addrW

/-- The source word indices read in the first `POS` accesses of the command's sequence. -/
def jobReadsDone (j : Job) : List Nat :=
  ((jobSeq j).take j.pos).filterMap fun a =>
    match a with
    | .rd i => some i
    | .wr _ => none

/-- A running command passed its checks, has an access left, and RDATA holds exactly the source words read so far
(60_exceptions.md R124, 10_state.md R30). -/
structure Job.Inv (addrW : Nat) (j : Job) : Prop where
  w_pos : 1 ≤ j.w
  w_le : j.w ≤ j.inw.bits
  pos_lt : j.pos < jobLength j
  src_aligned : j.sb % (jobSrcWidth j).bytes = 0
  dst_aligned : j.db % (jobDstWidth j).bytes = 0
  src_inside : extentInside addrW (jobSrc j)
  dst_inside : extentInside addrW (jobDst j)
  disjoint : extentsMeet (jobSrc j) (jobDst j) = false
  rdata_index : j.rdata.map Prod.fst = jobReadsDone j
  rdata_word : ∀ p ∈ j.rdata, p.2 < 2 ^ (jobSrcWidth j).bits

/-- The command word a running command was decoded from, and the registers it copied, are still in the registers, because writes
to them are dropped (40_host_registers.md R75, R77). -/
structure Job.Copies (c : Codec) (j : Job) : Prop where
  cmd : decodeCommand c.cmd = .ok ⟨j.op, j.inw, j.outw, j.w⟩
  count : j.cnt = c.count.toNat
  src : j.sb = c.srcBase.toNat
  dst : j.db = c.dstBase.toNat
  srcLen : jobSrcWords j ≤ c.srcLen.toNat
  dstCap : jobDstWords j ≤ c.dstCap.toNat

/-- The destination a command owns lies in data memory and is a whole number of words (60_exceptions.md R125, R132). -/
structure Claim.Inv (addrW : Nat) (cl : Claim) : Prop where
  inside : extentInside addrW cl.dst
  bytes_pos : 0 < cl.dstBytes
  whole : cl.dst.len % cl.dstBytes = 0

/-- The invariant of one instance (10_state.md R18; 40_host_registers.md R71: WORDS is 0 while the command runs; 70_reset_and_hazards.md
R148). -/
structure Codec.Inv (addrW : Nat) (c : Codec) : Prop where
  busy_clear : c.busy = true → c.done = false ∧ c.err = .ok ∧ c.words = 0
  err_done : c.err ≠ .ok → c.done = true
  err_words : c.err ≠ .ok → c.words = 0
  in_reset : c.inReset = true → c = Codec.resetState c.regBase true c.claims
  job : ∀ j, c.phase = .run j → j.Inv addrW ∧ Job.Copies c j ∧ c.claims.head? = some (jobClaim j)
  claims : ∀ cl ∈ c.claims, cl.Inv addrW
  raced_run : c.phase = .idle → c.raced = []

/-- Every listed byte of memory exists. -/
abbrev Memory.Inside (addrW : Nat) (m : Memory) : Prop := ∀ p ∈ m, p.1 < 2 ^ addrW

/-- The invariant of the machine. -/
structure State.Inv (s : State) : Prop where
  platform : s.platform.Legal
  mem_wf : Memory.wf s.mem = true
  mem_inside : Memory.Inside s.platform.addrW s.mem
  codecs : ∀ c ∈ s.codecs, c.Inv s.platform.addrW

/-- A run of `n` steps that meets no fault and no refusal. -/
def safeRun : Nat → State → Prop
  | 0, _ => True
  | n + 1, s =>
    match step s with
    | .next t => safeRun n t
    | .fault _ => False
    | .refused _ => False

/-- What no step changes: the platform's parameters, and the number, order and windows of the instances (00_scope.md R8). -/
abbrev State.SamePlatform (s t : State) : Prop :=
  t.platform = s.platform ∧ t.codecs.map Codec.regBase = s.codecs.map Codec.regBase

/-! ### Terms the claims use -/

/-- Every register and flag of an instance has its reset value, and every offset of its window reads 0
(70_reset_and_hazards.md R149). -/
abbrev Codec.IsReset (c : Codec) : Prop :=
  c.ie = false ∧ c.busy = false ∧ c.done = false ∧ c.drop = false ∧ c.err = .ok ∧ c.cmd = 0 ∧ c.srcBase = 0 ∧ c.srcLen = 0
    ∧ c.dstBase = 0 ∧ c.dstCap = 0 ∧ c.count = 0 ∧ c.words = 0 ∧ c.phase = .idle ∧ c.irq = false
    ∧ ∀ off, readReg c off = 0

/-- The registers and flags of an instance that no engine step writes (10_state.md R27): all but STATUS.BUSY, DONE and ERR, and
WORDS. -/
abbrev Codec.SameOperands (c d : Codec) : Prop :=
  d.regBase = c.regBase ∧ d.inReset = c.inReset ∧ d.ie = c.ie ∧ d.drop = c.drop ∧ d.cmd = c.cmd ∧ d.srcBase = c.srcBase
    ∧ d.srcLen = c.srcLen ∧ d.dstBase = c.dstBase ∧ d.dstCap = c.dstCap ∧ d.count = c.count

/-- Two instances with the same registers, flags and hidden engine state; only the model's record of racing writes may
differ. -/
abbrev Codec.SameState (c d : Codec) : Prop := d = { c with raced := d.raced }

/-- Two addresses in one word of a claimed destination. -/
abbrev Claim.SameWord (cl : Claim) (a b : Nat) : Prop :=
  cl.dst.base ≤ a ∧ a < extentEnd cl.dst ∧ cl.dst.base ≤ b
    ∧ (b - cl.dst.base) / cl.dstBytes = (a - cl.dst.base) / cl.dstBytes

/-- The byte at `b` is one drawn on the way from `s` to `t`. -/
abbrev State.DrawnAt (s t : State) (b : Nat) : Prop :=
  ∃ n, s.draws ≤ n ∧ n < t.draws ∧ Memory.read t.mem b = Config.freeByte n

/-- An address outside a range. -/
abbrev extentMisses (x : Extent) (a : Nat) : Prop := a < x.base ∨ extentEnd x ≤ a

/-- No other instance claims a destination that the range meets. -/
def State.alone (s : State) (x : Extent) : Bool := !readRaces x s.others

/-- The command word PACK or UNPACK as an instruction of the opcode table. -/
def commandOf (op : Op) (inw outw : Width) (w : BitVec 7) : Instr :=
  match op with
  | .pack => .pack inw outw w
  | .unpack => .unpack inw outw w

/-- The four operands `(sw, sreq, dw, dreq)` of Accept: source word width and words, destination word width and words
(60_exceptions.md R124). -/
def acceptOperands (op : Op) (inw outw : Width) (count n : Nat) : Width × Nat × Width × Nat :=
  match op with
  | .pack => (inw, count, outw, n)
  | .unpack => (outw, n, inw, count)

/-- The checks of codes 4 to 8 pass, written out on the registers (60_exceptions.md R129 to R133). -/
abbrev PassesChecks (addrW : Nat) (c : Codec) (sw : Width) (sreq : Nat) (dw : Width) (dreq : Nat) : Prop :=
  sreq ≤ c.srcLen.toNat ∧ dreq ≤ c.dstCap.toNat
    ∧ c.srcBase.toNat % sw.bytes = 0 ∧ c.dstBase.toNat % dw.bytes = 0
    ∧ (sreq ≠ 0 → c.srcBase.toNat + sreq * sw.bytes ≤ 2 ^ addrW)
    ∧ (dreq ≠ 0 → c.dstBase.toNat + dreq * dw.bytes ≤ 2 ^ addrW)
    ∧ (sreq ≠ 0 → dreq ≠ 0 →
        c.dstBase.toNat + dreq * dw.bytes ≤ c.srcBase.toNat ∨ c.srcBase.toNat + sreq * sw.bytes ≤ c.dstBase.toNat)

/-- The state after a command word `v` was taken and failed with `e`: the flags of `fail` (00_scope.md R13), the word in CMD, and
nothing else changed. -/
def State.failedWith (s : State) (v : Word) (e : Err) : State :=
  { s with codec := { s.codec with
      cmd := v, phase := .idle, done := true, err := e, words := 0 } }

/-- The state after a command of no values was taken: it completes at once (41_pack.md R94, 42_unpack.md R108). -/
def State.completedEmpty (s : State) (v : Word) : State :=
  { s with codec := { s.codec with
      cmd := v, phase := .idle, done := true, err := .ok, words := 0 } }

/-- The state after a command was taken and went to RUN (60_exceptions.md R124), with the model's claim on its buffers (log
entry 6). -/
def State.started (s : State) (v : Word) (op : Op) (inw outw : Width) (w : Nat) : State :=
  let j : Job := { op := op, inw := inw, outw := outw, w := w, cnt := s.codec.count.toNat
                   sb := s.codec.srcBase.toNat, db := s.codec.dstBase.toNat, pos := 0, rdata := [] }
  { s with codec := { s.codec with
      cmd := v, phase := .run j, done := false, err := .ok, words := 0
      claims := ⟨jobSrc j, jobDst j, (jobDstWidth j).bytes⟩ :: s.codec.claims, raced := [] } }

/-- The registers of an instance after a dropped write. -/
def State.dropped (s : State) : State := { s with codec := { s.codec with drop := true } }

end Sys2Proof.Machine
end

