-- ==== Sys2Proof/Certificates/Slice0/Obligations.lean ====
section
/-! DEFINITION. The statements for the provers. Each docstring names the rules of spec/ it formalises. -/

open Sys2Proof Sys2Proof.Machine

/-! ### Encoding -/

/-- Every well-formed instruction decodes from its own encoding, and PACK and UNPACK words do so for every `W` in 0..127
(30_encoding.md R58, R61, R63, R69). -/
def Obligations.InstructionsDecodeFromTheirEncoding : Prop :=
  (∀ i : Instr, i.wf = true → decode (encode i) = .ok i)
    ∧ ∀ (op : Op) (inw outw : Width) (w : BitVec 7), decode (encode (commandOf op inw outw w)) = .ok (commandOf op inw outw w)

/-- Every 64-bit word decodes to exactly one outcome (30_encoding.md R62): reserved bits first, then OP, then `W`, and a word that
decodes to a command is the encoding of that command. -/
def Obligations.EveryCommandWordHasOneOutcome : Prop :=
  ∀ c : Word,
    (decodeCommand c = .error .reserved ↔ c &&& 0xFFFFFFFFFFFF80C0 ≠ 0)
      ∧ (decodeCommand c = .error .opcode ↔ c &&& 0xFFFFFFFFFFFF80C0 = 0 ∧ (c &&& 3 = 0 ∨ c &&& 3 = 3))
      ∧ (decodeCommand c = .error .width ↔
          c &&& 0xFFFFFFFFFFFF80C0 = 0 ∧ (c &&& 3 = 1 ∨ c &&& 3 = 2)
            ∧ ((c.toNat >>> 8) % 128 = 0 ∨ 8 <<< ((c.toNat >>> 2) % 4) < (c.toNat >>> 8) % 128))
      ∧ (∀ e, decodeCommand c = .error e → e = .reserved ∨ e = .opcode ∨ e = .width)
      ∧ ∀ m, decodeCommand c = .ok m →
          c = encodeCommand m.op m.inw m.outw (BitVec.ofNat 7 m.w) ∧ 1 ≤ m.w ∧ m.w ≤ m.inw.bits
            ∧ m.w = (c.toNat >>> 8) % 128 ∧ m.inw.bits = 8 <<< ((c.toNat >>> 2) % 4)
            ∧ m.outw.bits = 8 <<< ((c.toNat >>> 4) % 4) ∧ (m.op = .pack ↔ c &&& 3 = 1)

/-- The match and mask of spec/opcode_table.json select PACK and UNPACK, for every `W` (30_encoding.md R63). -/
def Obligations.MatchAndMaskSelectTheCommand : Prop :=
  ∀ c : Word,
    ((∃ inw outw w, decode (.cmd64 c) = .ok (.pack inw outw w)) ↔ c &&& 0xFFFFFFFFFFFF80C3 = 1)
      ∧ ((∃ inw outw w, decode (.cmd64 c) = .ok (.unpack inw outw w)) ↔ c &&& 0xFFFFFFFFFFFF80C3 = 2)

/-- Words written out in 95_test_vectors.md V5, V6 and V7 decode to what they stand for (a sanity statement). -/
def Obligations.WrittenOutWordsDecode : Prop :=
  decode (.cmd64 0x0000000000000301) = .ok (.pack .w8 .w8 3)
    ∧ decode (.cmd64 0x000000000000210D) = .ok (.pack .w64 .w8 33)
    ∧ decode (.cmd64 0x0000000000000C26) = .ok (.unpack .w16 .w32 12)
    ∧ decode (.cmd64 0x0000000000008301) = .error .reservedBits
    ∧ decode (.hostOp .write 0x10 8 0x301) = .ok (.regWriteCmd 0x301)
    ∧ decode (.hostOp .read 0x08 8 0) = .ok (.regRead 0x08)

/-! ### Reset -/

/-- After reset every register of every instance has its reset value and reads 0, and `irq` is 0 (70_reset_and_hazards.md R149),
on every platform and for every number of instances; and so it is when the reset input is asserted. -/
def Obligations.ResetClearsEveryRegister : Prop :=
  (∀ (p : Platform) (base : Nat) (more : List Nat), ∀ c ∈ (State.resetOn p base more).codecs, c.IsReset)
    ∧ ∀ s : State, (assertReset s).codec.IsReset

/-- Asserting reset abandons a running command: its destination bytes take free values, no other byte of memory changes, and the
instance is in its reset state; an idle instance's reset changes no memory (70_reset_and_hazards.md R148, R150, R151). How the draws
are taken, and that the claims stay, is the model's (log entries 5 and 6). -/
def Obligations.ResetAbandonsTheRunningCommand : Prop :=
  ∀ (s t : State) (k : Nat) (rest : List Input),
    Memory.wf s.mem = true → s.inputs = .reset k true :: rest → State.select { s with inputs := rest } k = some t →
      ∃ u, step s = .next u ∧ u.codec = Codec.resetState t.codec.regBase true t.codec.claims
        ∧ u.before = t.before ∧ u.after = t.after ∧ u.platform = s.platform ∧ u.inputs = rest ∧ u.readData = s.readData
        ∧ (t.codec.phase = .idle → u.mem = s.mem ∧ u.draws = s.draws)
        ∧ ∀ j, t.codec.phase = .run j →
            (∀ n, n < (jobDst j).len → Memory.read u.mem ((jobDst j).base + n) = Config.freeByte (s.draws + n))
              ∧ (∀ a, extentMisses (jobDst j) a → Memory.read u.mem a = Memory.read s.mem a)
              ∧ u.draws = s.draws + (jobDst j).len

/-- While the reset input is asserted no register write and no engine step happens (70_reset_and_hazards.md R148). That a held-off
write answers a next state, with DROP as it was, is the model's reading (log entry 13): every form of every writing instruction
leaves the machine as it is. -/
def Obligations.ResetHoldsOffEveryWrite : Prop :=
  ∀ s : State, s.codec.inReset = true →
    engineStep s = s
      ∧ (∀ (op : Op) (inw outw : Width) (w : BitVec 7), exec (commandOf op inw outw w) s = .next s)
      ∧ (∀ v : Word, exec (.regWriteCtrl v) s = .next s ∧ exec (.regWriteStatus v) s = .next s
          ∧ exec (.regWriteCmd v) s = .next s ∧ exec (.regWriteSrcBase v) s = .next s ∧ exec (.regWriteSrcLen v) s = .next s
          ∧ exec (.regWriteDstBase v) s = .next s ∧ exec (.regWriteDstCap v) s = .next s
          ∧ exec (.regWriteCount v) s = .next s ∧ exec (.regWriteWords v) s = .next s)
      ∧ ∀ (off : BitVec 8) (v : Word), (Instr.regWriteReserved off v).wf = true → exec (.regWriteReserved off v) s = .next s

/-- The state after reset meets the machine's invariant, on every legal platform. -/
def Obligations.ResetMeetsTheInvariant : Prop :=
  ∀ (p : Platform) (base : Nat) (more : List Nat), p.Legal → (State.resetOn p base more).Inv

/-! ### The machine's invariant and its step -/

/-- Every step keeps the machine's invariant (10_state.md R18, R30; 20_memory.md R33; 40_host_registers.md R75, R77;
70_reset_and_hazards.md R148). -/
def Obligations.EveryStepKeepsTheInvariant : Prop :=
  ∀ s t : State, s.Inv → step s = .next t → t.Inv

/-- No step changes the platform's parameters, or the number, order and windows of the instances (00_scope.md R8, 10_state.md
R16). -/
def Obligations.EveryStepKeepsThePlatform : Prop :=
  ∀ s t : State, step s = .next t → s.SamePlatform t

/-- A step whose next input is a command word or a register access runs the decoded instruction, on the instance the input is
about, with that input taken off (30_encoding.md R54, R69; 40_host_registers.md R70). A command word that selects no instruction is
written to CMD (R62). The model's own are the inputs (log entries 9 and 10), the routing of an address to the first window that
holds it (log entry 15), and decodeTableWord and withFetchWord (log entries 8 and 9). -/
def Obligations.StepRunsTheDecodedInstruction : Prop :=
  (∀ (s t : State) (k : Nat) (word : Word) (rest : List Input),
      s.inputs = .command k word :: rest → State.select { s with inputs := rest } k = some t →
        (∀ i, decode (.cmd64 word) = .ok i → step s = exec i t)
          ∧ ∀ r, decode (.cmd64 word) = .error r → step s = exec (.regWriteCmd word) t)
    ∧ (∀ (s t : State) (dir : Dir) (addr size k : Nat) (data : Word) (rest : List Input) (i : Instr),
        s.inputs = .access dir addr size data :: rest → s.route addr = some k →
          State.select { s with inputs := rest } k = some t →
            decode (.hostOp dir (addr - t.codec.regBase) size data) = .ok i → step s = exec i t)
    ∧ (∀ (s t : State) (k : Nat), s.select k = some t →
        t.codecs = s.codecs ∧ t.selected = k ∧ t.platform = s.platform ∧ t.mem = s.mem ∧ t.inputs = s.inputs
          ∧ t.readData = s.readData ∧ t.draws = s.draws)
    ∧ ∀ (s : State) (w : Nat) (i : Instr), decodeTableWord 64 w = some i → step (s.withFetchWord 64 w) = exec i s

/-- A step whose next input is an engine step, a reset or a host memory access makes that agent move, on the instance the input names
(40_host_registers.md R81, 70_reset_and_hazards.md R148, 20_memory.md R34). The inputs as such, and the refusal of an engine,
reset or command input that names no instance, are the model's (log entry 10). -/
def Obligations.StepMovesTheAgentOfItsInput : Prop :=
  (∀ (s t : State) (k : Nat) (rest : List Input), State.select { s with inputs := rest } k = some t →
      (s.inputs = .engine k :: rest → step s = .next (engineStep t))
        ∧ (s.inputs = .reset k true :: rest → step s = .next (assertReset t))
        ∧ (s.inputs = .reset k false :: rest → step s = .next { t with codec := { t.codec with inReset := false } }))
    ∧ (∀ (s : State) (a : Nat) (v : Byte) (rest : List Input),
        (s.inputs = .memRead a :: rest → step s = hostMemRead a { s with inputs := rest })
          ∧ (s.inputs = .memWrite a v :: rest → step s = hostMemWrite a v { s with inputs := rest }))
    ∧ ∀ (s : State) (k : Nat) (rest : List Input), s.codecs.length ≤ k →
        (s.inputs = .engine k :: rest → step s = .refused .noSuchInstance)
          ∧ (∀ asserted, s.inputs = .reset k asserted :: rest → step s = .refused .noSuchInstance)
          ∧ ∀ word, s.inputs = .command k word :: rest → step s = .refused .noSuchInstance

/-- With no input pending, a running selected instance takes an engine step, and a machine whose instances are all idle stays as
it is (60_exceptions.md R147). Which running instance moves first is the model's choice (log entry 7). -/
def Obligations.StepWithNoInputRunsTheEngine : Prop :=
  ∀ s : State, s.inputs = [] →
    (s.codec.busy = true → step s = .next (engineStep s))
      ∧ ((∀ c ∈ s.codecs, c.busy = false) → step s = .next s)
      ∧ ∀ (t : State) (k : Nat), s.codec.busy = false → s.codecs.findIdx? Codec.busy = some k → s.select k = some t →
          step s = .next (engineStep t)

/-- A register access that is not 64 bits wide, not aligned to 8 bytes or outside every window is refused
(40_host_registers.md R70). Which of the refusals answers an access that breaks several conditions, the alignment read off the
offset and the first window that holds the address are the model's (log entry 15). -/
def Obligations.OtherRegisterAccessesAreRefused : Prop :=
  ∀ (s : State) (dir : Dir) (addr size : Nat) (data : Word) (rest : List Input),
    s.inputs = .access dir addr size data :: rest →
      (s.route addr = none → step s = .refused .accessOutsideWindow)
        ∧ ∀ (t : State) (k : Nat), s.route addr = some k → State.select { s with inputs := rest } k = some t →
            (size ≠ 8 → step s = .refused .accessSize)
              ∧ (size = 8 → (addr - t.codec.regBase) % 8 ≠ 0 → step s = .refused .accessMisaligned)

/-! ### Host register operations -/

/-- RegRead answers the register at the offset, 0 at a reserved one, and changes no register, no flag and no memory
(40_host_registers.md R71). A read of STATUS that returns DONE = 1 ends the instance's claims, the model's record (log
entry 6). -/
def Obligations.RegReadAnswersTheRegister : Prop :=
  ∀ (off : BitVec 8) (s : State), off.toNat % 8 = 0 →
    ∃ t, exec (.regRead off) s = .next t
      ∧ (off = 0x00 → t.readData = if s.codec.ie then 1 else 0)
      ∧ (off = 0x08 → t.readData.getLsbD 0 = s.codec.busy ∧ t.readData.getLsbD 1 = s.codec.done
          ∧ t.readData.getLsbD 2 = s.codec.drop ∧ t.readData.extractLsb' 8 4 = errCode s.codec.err
          ∧ t.readData.extractLsb' 3 5 = 0 ∧ t.readData.extractLsb' 12 52 = 0)
      ∧ (off = 0x10 → t.readData = s.codec.cmd) ∧ (off = 0x18 → t.readData = s.codec.srcBase)
      ∧ (off = 0x20 → t.readData = s.codec.srcLen) ∧ (off = 0x28 → t.readData = s.codec.dstBase)
      ∧ (off = 0x30 → t.readData = s.codec.dstCap) ∧ (off = 0x38 → t.readData = s.codec.count)
      ∧ (off = 0x40 → t.readData = s.codec.words) ∧ (0x48 ≤ off.toNat → t.readData = 0)
      ∧ t = { s with readData := t.readData, codec := t.codec }
      ∧ t.codec = { s.codec with claims := t.codec.claims }
      ∧ (off ≠ 0x08 ∨ s.codec.done = false → t.codec = s.codec)
      ∧ (off = 0x08 → s.codec.done = true → t.codec.claims = [])

/-- No register read has a side effect (40_host_registers.md R80): it changes no register, flag, hidden engine state, memory or draw
of any instance, and a second read answers what it would have answered before. Only the value read changes and, on a STATUS read with
DONE = 1, the instance's claims, which are the model's record (log entry 6). -/
def Obligations.RegisterReadsHaveNoSideEffect : Prop :=
  ∀ (off off' : BitVec 8) (s t : State), off'.toNat % 8 = 0 → exec (.regRead off) s = .next t →
    t = { s with readData := t.readData, codec := { s.codec with claims := t.codec.claims } }
      ∧ ∃ u v, exec (.regRead off') s = .next u ∧ exec (.regRead off') t = .next v ∧ v.readData = u.readData

/-- RegWrite CTRL sets IE from bit 0, busy or not, and changes nothing else (40_host_registers.md R72). -/
def Obligations.RegWriteCtrlSetsTheInterruptEnable : Prop :=
  ∀ (v : Word) (s : State), s.codec.inReset = false →
    exec (.regWriteCtrl v) s = .next { s with codec := { s.codec with ie := v.getLsbD 0 } }

/-- RegWrite STATUS: a 1 in bit 1 clears DONE and ERR, a 1 in bit 2 clears DROP, busy or not, and nothing else changes
(40_host_registers.md R73). -/
def Obligations.RegWriteStatusClearsByOnes : Prop :=
  ∀ (v : Word) (s : State), s.codec.inReset = false →
    exec (.regWriteStatus v) s = .next { s with codec := { s.codec with
      done := s.codec.done && !v.getLsbD 1
      err := if v.getLsbD 1 then .ok else s.codec.err
      drop := s.codec.drop && !v.getLsbD 2 } }

/-- A write to an operand register while BUSY = 0 stores the value whole and changes nothing else (40_host_registers.md R76). -/
def Obligations.OperandWritesStoreWhileIdle : Prop :=
  ∀ (v : Word) (s : State), s.codec.inReset = false → s.codec.busy = false →
    exec (.regWriteSrcBase v) s = .next { s with codec := { s.codec with srcBase := v } }
      ∧ exec (.regWriteSrcLen v) s = .next { s with codec := { s.codec with srcLen := v } }
      ∧ exec (.regWriteDstBase v) s = .next { s with codec := { s.codec with dstBase := v } }
      ∧ exec (.regWriteDstCap v) s = .next { s with codec := { s.codec with dstCap := v } }
      ∧ exec (.regWriteCount v) s = .next { s with codec := { s.codec with count := v } }

/-- A write to an operand register while BUSY = 1 sets DROP and changes nothing else (40_host_registers.md R77). -/
def Obligations.OperandWritesDropWhileBusy : Prop :=
  ∀ (v : Word) (s : State), s.codec.inReset = false → s.codec.busy = true →
    exec (.regWriteSrcBase v) s = .next s.dropped ∧ exec (.regWriteSrcLen v) s = .next s.dropped
      ∧ exec (.regWriteDstBase v) s = .next s.dropped ∧ exec (.regWriteDstCap v) s = .next s.dropped
      ∧ exec (.regWriteCount v) s = .next s.dropped

/-- A write to CMD while BUSY = 1, as a register write or as a PACK or UNPACK word, sets DROP and changes nothing else
(40_host_registers.md R75). -/
def Obligations.CommandsDropWhileBusy : Prop :=
  ∀ s : State, s.codec.inReset = false → s.codec.busy = true →
    (∀ v : Word, exec (.regWriteCmd v) s = .next s.dropped)
      ∧ ∀ (op : Op) (inw outw : Width) (w : BitVec 7), exec (commandOf op inw outw w) s = .next s.dropped

/-- Writes to WORDS and to the reserved offsets have no effect and no flag, and reads of the reserved offsets answer 0
(40_host_registers.md R78, R79). -/
def Obligations.ReadOnlyAndReservedWritesDoNothing : Prop :=
  ∀ s : State,
    (∀ v : Word, exec (.regWriteWords v) s = .next s)
      ∧ ∀ off : BitVec 8, off.toNat % 8 = 0 → 0x48 ≤ off.toNat →
          (∀ v : Word, exec (.regWriteReserved off v) s = .next s)
            ∧ ∃ t, exec (.regRead off) s = .next t ∧ t.readData = 0

/-- The ill-formed forms are refused: a read or a reserved write at an offset that is no multiple of 8 (40_host_registers.md R70) and
a reserved write at a register's offset (the model's, log entry 20). -/
def Obligations.IllFormedAccessesAreRefused : Prop :=
  ∀ (s : State) (off : BitVec 8) (v : Word),
    (off.toNat % 8 ≠ 0 → exec (.regRead off) s = .refused .accessMisaligned
        ∧ exec (.regWriteReserved off v) s = .refused .accessMisaligned)
      ∧ (off.toNat % 8 = 0 → off.toNat < 0x48 → exec (.regWriteReserved off v) s = .refused .notReservedOffset)

/-! ### Taking a command -/

/-- A PACK or UNPACK word is the data of a write to CMD (30_encoding.md R54). -/
def Obligations.CommandWordsAreCmdWrites : Prop :=
  ∀ (op : Op) (inw outw : Width) (w : BitVec 7) (s : State),
    exec (commandOf op inw outw w) s = exec (.regWriteCmd (encodeCommand op inw outw w)) s

/-- A taken command word with a reserved bit set fails with ERR_RESERVED whatever its other fields hold; with clear reserved bits and
OP 0b00 or 0b11 it fails with ERR_OPCODE; no memory changes (60_exceptions.md R126, R127). -/
def Obligations.ReservedWordsFail : Prop :=
  ∀ (v : Word) (s : State), s.codec.inReset = false → s.codec.busy = false →
    (v &&& 0xFFFFFFFFFFFF80C0 ≠ 0 → exec (.regWriteCmd v) s = .next (s.failedWith v .reserved))
      ∧ (v &&& 0xFFFFFFFFFFFF80C0 = 0 → v &&& 3 = 0 ∨ v &&& 3 = 3 →
          exec (.regWriteCmd v) s = .next (s.failedWith v .opcode))

/-- A taken PACK or UNPACK fails with the code of its first failing check, in code order 3 to 8, with the conditions written out on
the registers; CMD takes the word and nothing else changes (60_exceptions.md R124, R128 to R133). -/
def Obligations.CommandsFailAtTheirFirstFailingCheck : Prop :=
  ∀ (op : Op) (inw outw : Width) (w : BitVec 7) (s : State), s.codec.inReset = false → s.codec.busy = false →
    ∀ (sw dw : Width) (sreq dreq : Nat),
      (sw, sreq, dw, dreq) = acceptOperands op inw outw s.codec.count.toNat
        ((s.codec.count.toNat * w.toNat + outw.bits - 1) / outw.bits) →
      let c := s.codec
      let outcome := exec (commandOf op inw outw w) s
      let v := encodeCommand op inw outw w
      (w.toNat = 0 ∨ inw.bits < w.toNat → outcome = .next (s.failedWith v .width))
        ∧ (1 ≤ w.toNat → w.toNat ≤ inw.bits → c.srcLen.toNat < sreq → outcome = .next (s.failedWith v .srcLen))
        ∧ (1 ≤ w.toNat → w.toNat ≤ inw.bits → sreq ≤ c.srcLen.toNat → c.dstCap.toNat < dreq →
            outcome = .next (s.failedWith v .capacity))
        ∧ (1 ≤ w.toNat → w.toNat ≤ inw.bits → sreq ≤ c.srcLen.toNat → dreq ≤ c.dstCap.toNat →
            c.srcBase.toNat % sw.bytes ≠ 0 ∨ c.dstBase.toNat % dw.bytes ≠ 0 → outcome = .next (s.failedWith v .align))
        ∧ (1 ≤ w.toNat → w.toNat ≤ inw.bits → sreq ≤ c.srcLen.toNat → dreq ≤ c.dstCap.toNat →
            c.srcBase.toNat % sw.bytes = 0 → c.dstBase.toNat % dw.bytes = 0 →
            (sreq ≠ 0 ∧ 2 ^ s.platform.addrW < c.srcBase.toNat + sreq * sw.bytes)
              ∨ (dreq ≠ 0 ∧ 2 ^ s.platform.addrW < c.dstBase.toNat + dreq * dw.bytes) →
            outcome = .next (s.failedWith v .range))
        ∧ (1 ≤ w.toNat → w.toNat ≤ inw.bits → sreq ≤ c.srcLen.toNat → dreq ≤ c.dstCap.toNat →
            c.srcBase.toNat % sw.bytes = 0 → c.dstBase.toNat % dw.bytes = 0 →
            (sreq ≠ 0 → c.srcBase.toNat + sreq * sw.bytes ≤ 2 ^ s.platform.addrW) →
            (dreq ≠ 0 → c.dstBase.toNat + dreq * dw.bytes ≤ 2 ^ s.platform.addrW) →
            sreq ≠ 0 → dreq ≠ 0 → c.srcBase.toNat < c.dstBase.toNat + dreq * dw.bytes →
            c.dstBase.toNat < c.srcBase.toNat + sreq * sw.bytes → outcome = .next (s.failedWith v .overlap))

/-- A taken PACK or UNPACK that passes every check, of at least one value and with its buffers in plain memory, goes to RUN with copies
of its operands, POS = 0 and RDATA empty; DONE, ERR and WORDS are cleared and no other register or flag changes (60_exceptions.md R124).
The same for the write of the word to CMD (40_host_registers.md R74). That the instance then claims its buffers, beside the claims it
held, with no race recorded, is the model's record (log entry 6). -/
def Obligations.PassingCommandsStart : Prop :=
  ∀ (op : Op) (inw outw : Width) (w : BitVec 7) (s : State), s.codec.inReset = false → s.codec.busy = false →
    ∀ (sw dw : Width) (sreq dreq : Nat),
      (sw, sreq, dw, dreq) = acceptOperands op inw outw s.codec.count.toNat
        ((s.codec.count.toNat * w.toNat + outw.bits - 1) / outw.bits) →
      1 ≤ w.toNat → w.toNat ≤ inw.bits → s.codec.count ≠ 0 → PassesChecks s.platform.addrW s.codec sw sreq dw dreq →
      s.outsideModel ⟨s.codec.srcBase.toNat, sreq * sw.bytes⟩ = false →
      s.outsideModel ⟨s.codec.dstBase.toNat, dreq * dw.bytes⟩ = false →
        exec (commandOf op inw outw w) s = .next (s.started (encodeCommand op inw outw w) op inw outw w.toNat)
          ∧ exec (.regWriteCmd (encodeCommand op inw outw w)) s
              = .next (s.started (encodeCommand op inw outw w) op inw outw w.toNat)

/-- A command of no values completes in the step that takes it, with any SRC_LEN and DST_CAP, and its `W` and its alignment are still
checked (41_pack.md R94, 42_unpack.md R108). -/
def Obligations.CommandsOfNoValuesCompleteAtOnce : Prop :=
  ∀ (op : Op) (inw outw : Width) (w : BitVec 7) (s : State), s.codec.inReset = false → s.codec.busy = false →
    s.codec.count = 0 →
      ∀ (sw dw : Width) (sreq dreq : Nat), (sw, sreq, dw, dreq) = acceptOperands op inw outw 0 0 →
        let v := encodeCommand op inw outw w
        (w.toNat = 0 ∨ inw.bits < w.toNat → exec (commandOf op inw outw w) s = .next (s.failedWith v .width))
          ∧ (1 ≤ w.toNat → w.toNat ≤ inw.bits →
              s.codec.srcBase.toNat % sw.bytes ≠ 0 ∨ s.codec.dstBase.toNat % dw.bytes ≠ 0 →
                exec (commandOf op inw outw w) s = .next (s.failedWith v .align))
          ∧ (1 ≤ w.toNat → w.toNat ≤ inw.bits →
              s.codec.srcBase.toNat % sw.bytes = 0 → s.codec.dstBase.toNat % dw.bytes = 0 →
                exec (commandOf op inw outw w) s = .next (s.completedEmpty v))

/-- A command that passes every check with a buffer over a device region or a register window is refused (20_memory.md R42,
70_reset_and_hazards.md R155). -/
def Obligations.BuffersOutsideTheModelAreRefused : Prop :=
  ∀ (op : Op) (inw outw : Width) (w : BitVec 7) (s : State), s.codec.inReset = false → s.codec.busy = false →
    ∀ (sw dw : Width) (sreq dreq : Nat),
      (sw, sreq, dw, dreq) = acceptOperands op inw outw s.codec.count.toNat
        ((s.codec.count.toNat * w.toNat + outw.bits - 1) / outw.bits) →
      1 ≤ w.toNat → w.toNat ≤ inw.bits → s.codec.count ≠ 0 → PassesChecks s.platform.addrW s.codec sw sreq dw dreq →
      s.outsideModel ⟨s.codec.srcBase.toNat, sreq * sw.bytes⟩ = true
        ∨ s.outsideModel ⟨s.codec.dstBase.toNat, dreq * dw.bytes⟩ = true →
        exec (commandOf op inw outw w) s = .refused .bufferOutsideModel

/-- Errors of codes 1 to 8 are found in the step that takes the command, which changes no memory; an engine step of a running command
reports none of them (60_exceptions.md R135). -/
def Obligations.AcceptanceErrorsChangeNoMemory : Prop :=
  (∀ (i : Instr) (s t : State),
      (∃ v, i = .regWriteCmd v) ∨ (∃ op inw outw w, i = commandOf op inw outw w) → exec i s = .next t →
        t.mem = s.mem ∧ t.draws = s.draws)
    ∧ ∀ (s : State) (j : Job), s.codec.phase = .run j →
        (engineStep s).codec.err = s.codec.err ∨ (engineStep s).codec.err = .ok ∨ (engineStep s).codec.err = .bus

/-- What every instruction leaves alone: the platform, the other instances, memory, the pending inputs and the draws, and for each kind
its registers. Reads write the returned value only; writes write their register, DROP or the flags the rules name
(40_host_registers.md R71 to R79, 60_exceptions.md R124). In reset, and over a dropped command, what a taken command would write stays.
Of the model's record, only a STATUS read ends a claim (log entry 6). -/
def Obligations.InstructionsKeepEverythingElse : Prop :=
  ∀ (i : Instr) (s t : State), exec i s = .next t →
    t.platform = s.platform ∧ t.before = s.before ∧ t.after = s.after ∧ t.inputs = s.inputs ∧ t.draws = s.draws
      ∧ (∀ a, Memory.read t.mem a = Memory.read s.mem a)
      ∧ t.codec.regBase = s.codec.regBase ∧ t.codec.inReset = s.codec.inReset
      ∧ ((∀ off, i ≠ .regRead off) → t.readData = s.readData)
      ∧ ((∀ v, i ≠ .regWriteCtrl v) → t.codec.ie = s.codec.ie)
      ∧ ((∀ v, i ≠ .regWriteSrcBase v) → t.codec.srcBase = s.codec.srcBase)
      ∧ ((∀ v, i ≠ .regWriteSrcLen v) → t.codec.srcLen = s.codec.srcLen)
      ∧ ((∀ v, i ≠ .regWriteDstBase v) → t.codec.dstBase = s.codec.dstBase)
      ∧ ((∀ v, i ≠ .regWriteDstCap v) → t.codec.dstCap = s.codec.dstCap)
      ∧ ((∀ v, i ≠ .regWriteCount v) → t.codec.count = s.codec.count)
      ∧ ((∀ v, i ≠ .regWriteStatus v) → t.codec.drop = s.codec.drop ∨ (s.codec.busy = true ∧ t.codec.drop = true))
      ∧ (s.codec.busy = true → t.codec.phase = s.codec.phase ∧ t.codec.cmd = s.codec.cmd ∧ t.codec.words = s.codec.words
          ∧ ((∀ v, i ≠ .regWriteStatus v) → t.codec.done = s.codec.done ∧ t.codec.err = s.codec.err))
      ∧ (s.codec.inReset = true → t.codec = { s.codec with claims := t.codec.claims })
      ∧ (i ≠ .regRead 0x08 → ∃ new, t.codec.claims = new ++ s.codec.claims)
      ∧ ((∀ v, i ≠ .regWriteCmd v) → (∀ op inw outw w, i ≠ commandOf op inw outw w) →
          t.codec.phase = s.codec.phase ∧ t.codec.cmd = s.codec.cmd ∧ t.codec.words = s.codec.words
            ∧ ((∀ v, i ≠ .regWriteStatus v) → t.codec.done = s.codec.done ∧ t.codec.err = s.codec.err))

/-! ### The engine -/

/-- An engine read puts source word `i`, as memory holds it, into RDATA and counts the access; nothing else changes
(41_pack.md R93, 42_unpack.md R107). -/
def Obligations.EngineReadStep : Prop :=
  ∀ (s : State) (j : Job) (i : Nat), s.codec.inReset = false → s.codec.phase = .run j →
    (jobSeq j)[j.pos]? = some (.rd i) → s.busOK (jobSrcWord j i) .read = true →
    s.codec.raced = [] → s.alone (jobSrcWord j i) = true → j.pos + 1 ≠ jobLength j →
      engineStep s = { s with codec := { s.codec with
        phase := .run { j with pos := j.pos + 1, rdata := j.rdata ++ [(i, s.memRead (jobSrcWord j i))] } } }

/-- An engine write stores destination word `k` whole: for PACK the word of the sum over RDATA of `(x & mask(W)) << (i*W)`, for UNPACK
the value of the sum of `p << (k*OutW)`; every other byte of memory stays; after the last access the command completes in the same step
(41_pack.md R93, 42_unpack.md R107). -/
def Obligations.EngineWriteStep : Prop :=
  ∀ (s : State) (j : Job) (k : Nat), Memory.wf s.mem = true → s.codec.inReset = false → s.codec.phase = .run j →
    j.w ≤ j.inw.bits →
    (jobSeq j)[j.pos]? = some (.wr k) → s.busOK (jobDstWord j k) .write = true →
    s.codec.raced = [] → s.alone (jobDstWord j k) = true →
      (j.op = .pack → (engineStep s).memRead (jobDstWord j k)
          = (j.rdata.map fun p => (p.2 % 2 ^ j.w) * 2 ^ (p.1 * j.w)).sum / 2 ^ (k * j.outw.bits) % 2 ^ j.outw.bits)
        ∧ (j.op = .unpack → (engineStep s).memRead (jobDstWord j k)
          = (j.rdata.map fun p => p.2 * 2 ^ (p.1 * j.outw.bits)).sum / 2 ^ (k * j.w) % 2 ^ j.w)
        ∧ (∀ a, extentMisses (jobDstWord j k) a → Memory.read (engineStep s).mem a = Memory.read s.mem a)
        ∧ (engineStep s).draws = s.draws
        ∧ (j.pos + 1 ≠ jobLength j →
            (engineStep s).codec = { s.codec with phase := .run { j with pos := j.pos + 1 } })
        ∧ (j.pos + 1 = jobLength j →
            (engineStep s).codec = { s.codec with
              phase := .idle, done := true, err := .ok, words := BitVec.ofNat 64 (jobPackedWords j) })

/-- A refused access is not made and ends the command with ERR_BUS: BUSY and WORDS 0, DONE 1, every byte of the required destination
extent a free value, no byte outside it changed, so the source unchanged (60_exceptions.md R134). How the draws are taken is the model's
(log entry 5). -/
def Obligations.BusErrorEndsTheCommand : Prop :=
  ∀ (s : State) (j : Job) (a : Access), Memory.wf s.mem = true → s.codec.inReset = false → s.codec.phase = .run j →
    (jobSeq j)[j.pos]? = some a →
    (∀ i, a = .rd i → s.busOK (jobSrcWord j i) .read = false) →
    (∀ k, a = .wr k → s.busOK (jobDstWord j k) .write = false) →
      (engineStep s).codec = { s.codec with phase := .idle, done := true, err := .bus, words := 0, raced := [] }
        ∧ (engineStep s).before = s.before ∧ (engineStep s).after = s.after
        ∧ (∀ n, n < (jobDst j).len →
            Memory.read (engineStep s).mem ((jobDst j).base + n) = Config.freeByte (s.draws + n))
        ∧ (∀ b, extentMisses (jobDst j) b → Memory.read (engineStep s).mem b = Memory.read s.mem b)
        ∧ (extentsMeet (jobSrc j) (jobDst j) = false → ∀ n, n < (jobSrc j).len →
            Memory.read (engineStep s).mem ((jobSrc j).base + n) = Memory.read s.mem ((jobSrc j).base + n))

/-- The step of a command's last access completes it: PHASE IDLE, BUSY 0, DONE 1, ERR 0 and WORDS = N, which the register holds whole
(60_exceptions.md R137, 41_pack.md R88, 42_unpack.md R102), races or not (20_memory.md R53). -/
def Obligations.LastAccessCompletesTheCommand : Prop :=
  ∀ (s : State) (j : Job), s.Inv → s.codec.phase = .run j → j.pos + 1 = jobLength j →
    (∀ i, (jobSeq j)[j.pos]? = some (.rd i) → s.busOK (jobSrcWord j i) .read = true) →
    (∀ k, (jobSeq j)[j.pos]? = some (.wr k) → s.busOK (jobDstWord j k) .write = true) →
      (engineStep s).codec.phase = .idle ∧ (engineStep s).codec.busy = false ∧ (engineStep s).codec.done = true
        ∧ (engineStep s).codec.err = .ok
        ∧ (engineStep s).codec.words.toNat = (j.cnt * j.w + j.outw.bits - 1) / j.outw.bits

/-- An engine step writes STATUS and WORDS only, of its own instance only: CTRL, CMD, the operand registers and DROP stay, and so do the
other instances' registers and engines (10_state.md R27, R32). -/
def Obligations.EngineStepsKeepTheRegisters : Prop :=
  ∀ s : State,
    s.codec.SameOperands (engineStep s).codec ∧ (engineStep s).platform = s.platform ∧ (engineStep s).inputs = s.inputs
      ∧ (engineStep s).readData = s.readData
      ∧ List.Forall₂ Codec.SameState s.before (engineStep s).before
      ∧ List.Forall₂ Codec.SameState s.after (engineStep s).after

/-- An engine step writes no byte outside the running command's required destination extent, whatever the platform answers and whatever
racing writes the command met (20_memory.md R34, 41_pack.md R97, 42_unpack.md R111). -/
def Obligations.EngineStepsWriteOnlyTheDestination : Prop :=
  ∀ (s : State) (j : Job), s.codec.phase = .run j → 1 ≤ j.w → s.alone (jobDst j) = true →
    ∀ a, extentMisses (jobDst j) a → Memory.read (engineStep s).mem a = Memory.read s.mem a

/-- `PackSeq` (41_pack.md R92): its length is `count + N`; read `i` stands at place `i + floor(i*W/OutW)`; the reads are `0..count-1` and the
writes `0..N-1`, each in increasing order; and a word is written after the read of every value with a bit in it. -/
def Obligations.PackSequenceOrder : Prop :=
  ∀ (count w : Nat) (outw : Width), 1 ≤ w →
    (packSeq count outw.bits w).length = count + packedLength count w outw
      ∧ (∀ p i, (packSeq count outw.bits w)[p]? = some (.rd i) ↔ i < count ∧ p = i + i * w / outw.bits)
      ∧ (packSeq count outw.bits w).filterMap (fun a => match a with | .rd i => some i | .wr _ => none) = List.range count
      ∧ (packSeq count outw.bits w).filterMap (fun a => match a with | .wr k => some k | .rd _ => none)
          = List.range (packedLength count w outw)
      ∧ ∀ p k i, (packSeq count outw.bits w)[p]? = some (.wr k) → i < count →
          i * w < (k + 1) * outw.bits → k * outw.bits < (i + 1) * w → .rd i ∈ (packSeq count outw.bits w).take p

/-- `UnpackSeq` (42_unpack.md R106): its length is `N + count`; write `i` stands right after the reads of every packed word with a bit of value
`i`; the reads are `0..N-1` and the writes `0..count-1`, each in increasing order. -/
def Obligations.UnpackSequenceOrder : Prop :=
  ∀ (count w : Nat) (outw : Width), 1 ≤ w →
    (unpackSeq count outw.bits w).length = packedLength count w outw + count
      ∧ (∀ p i, (unpackSeq count outw.bits w)[p]? = some (.wr i)
          ↔ i < count ∧ p = i + (i * w + w - 1) / outw.bits + 1)
      ∧ (unpackSeq count outw.bits w).filterMap (fun a => match a with | .rd i => some i | .wr _ => none)
          = List.range (packedLength count w outw)
      ∧ (unpackSeq count outw.bits w).filterMap (fun a => match a with | .wr k => some k | .rd _ => none) = List.range count
      ∧ ∀ p i k, (unpackSeq count outw.bits w)[p]? = some (.wr i) → k ≤ (i * w + w - 1) / outw.bits →
          .rd k ∈ (unpackSeq count outw.bits w).take p

/-- A command that goes to RUN makes exactly `count + N` accesses, one per engine step, and then ends; it ends sooner only at an ERR_BUS
(70_reset_and_hazards.md R162). -/
def Obligations.CommandsMakeExactlyTheirAccesses : Prop :=
  ∀ (s : State) (j : Job), s.codec.inReset = false → s.codec.phase = .run j → 1 ≤ j.w → j.pos = 0 → 1 ≤ j.cnt →
    (∀ n, n < j.cnt + packedLength j.cnt j.w j.outw →
        (∃ j', (engineRun n s).codec.phase = .run j' ∧ j'.pos = n) ∨ (engineRun n s).codec.err = .bus)
      ∧ (engineRun (j.cnt + packedLength j.cnt j.w j.outw) s).codec.busy = false
      ∧ (engineRun (j.cnt + packedLength j.cnt j.w j.outw) s).codec.done = true
      ∧ (s.platform.busRefuses = [] →
          (∀ n, n < j.cnt + packedLength j.cnt j.w j.outw → (engineRun n s).codec.busy = true)
            ∧ (engineRun (j.cnt + packedLength j.cnt j.w j.outw) s).codec.err = .ok)

/-- PACK, from its command word to its result (41_pack.md R84, R85, R87, R88): the word is taken and goes to RUN; after `count + N` engine steps packed
word `k` is `S[(k+1)*OutW - 1 : k*OutW]` of the source words in memory, every byte outside those `N` words is unchanged, and DONE = 1, ERR = 0,
WORDS = N, with the operand registers as they were. -/
def Obligations.PackWritesTheBitstream : Prop :=
  ∀ (inw outw : Width) (w : BitVec 7) (s : State) (count n : Nat) (sb db : Nat),
    count = s.codec.count.toNat → n = (count * w.toNat + outw.bits - 1) / outw.bits →
    sb = s.codec.srcBase.toNat → db = s.codec.dstBase.toNat →
    Memory.wf s.mem = true → s.codec.inReset = false → s.codec.busy = false → 1 ≤ w.toNat → w.toNat ≤ inw.bits → 1 ≤ count →
    PassesChecks s.platform.addrW s.codec inw count outw n →
    s.outsideModel ⟨sb, count * inw.bytes⟩ = false → s.outsideModel ⟨db, n * outw.bytes⟩ = false →
    (∀ i, i < count → s.busOK ⟨sb + i * inw.bytes, inw.bytes⟩ .read = true) →
    (∀ k, k < n → s.busOK ⟨db + k * outw.bytes, outw.bytes⟩ .write = true) →
    s.alone ⟨sb, count * inw.bytes⟩ = true → s.alone ⟨db, n * outw.bytes⟩ = true →
      ∃ t u, exec (.pack inw outw w) s = .next t ∧ t.codec.busy = true ∧ u = engineRun (count + n) t
        ∧ (∀ k, k < n → u.memRead ⟨db + k * outw.bytes, outw.bytes⟩
            = (∑ i ∈ Finset.range count, (s.memRead ⟨sb + i * inw.bytes, inw.bytes⟩ % 2 ^ w.toNat) * 2 ^ (i * w.toNat))
                / 2 ^ (k * outw.bits) % 2 ^ outw.bits)
        ∧ (∀ a, extentMisses (Extent.mk db (n * outw.bytes)) a → Memory.read u.mem a = Memory.read s.mem a)
        ∧ u.codec.busy = false ∧ u.codec.done = true ∧ u.codec.err = .ok ∧ u.codec.words.toNat = n
        ∧ Codec.SameOperands { s.codec with cmd := encodeCommand .pack inw outw w } u.codec

/-- UNPACK, from its command word to its result (42_unpack.md R98 to R102): after `N + count` engine steps value word `i` is
`S[i*W + W - 1 : i*W]` of the packed words in memory, zero-extended; every byte outside those `count` words is unchanged, and DONE = 1, ERR = 0,
WORDS = N, with the operand registers as they were. -/
def Obligations.UnpackWritesTheValues : Prop :=
  ∀ (inw outw : Width) (w : BitVec 7) (s : State) (count n : Nat) (sb db : Nat),
    count = s.codec.count.toNat → n = (count * w.toNat + outw.bits - 1) / outw.bits →
    sb = s.codec.srcBase.toNat → db = s.codec.dstBase.toNat →
    Memory.wf s.mem = true → s.codec.inReset = false → s.codec.busy = false → 1 ≤ w.toNat → w.toNat ≤ inw.bits → 1 ≤ count →
    PassesChecks s.platform.addrW s.codec outw n inw count →
    s.outsideModel ⟨sb, n * outw.bytes⟩ = false → s.outsideModel ⟨db, count * inw.bytes⟩ = false →
    (∀ k, k < n → s.busOK ⟨sb + k * outw.bytes, outw.bytes⟩ .read = true) →
    (∀ i, i < count → s.busOK ⟨db + i * inw.bytes, inw.bytes⟩ .write = true) →
    s.alone ⟨sb, n * outw.bytes⟩ = true → s.alone ⟨db, count * inw.bytes⟩ = true →
      ∃ t u, exec (.unpack inw outw w) s = .next t ∧ t.codec.busy = true ∧ u = engineRun (n + count) t
        ∧ (∀ i, i < count → u.memRead ⟨db + i * inw.bytes, inw.bytes⟩
            = (∑ k ∈ Finset.range n, s.memRead ⟨sb + k * outw.bytes, outw.bytes⟩ * 2 ^ (k * outw.bits))
                / 2 ^ (i * w.toNat) % 2 ^ w.toNat)
        ∧ (∀ a, extentMisses (Extent.mk db (count * inw.bytes)) a → Memory.read u.mem a = Memory.read s.mem a)
        ∧ u.codec.busy = false ∧ u.codec.done = true ∧ u.codec.err = .ok ∧ u.codec.words.toNat = n
        ∧ Codec.SameOperands { s.codec with cmd := encodeCommand .unpack inw outw w } u.codec

/-! ### The transforms -/

/-- Where the bits of a value go (41_pack.md R85): bit `j` of value `i` is bit `(i*W + j) mod OutW` of packed word `floor((i*W + j) / OutW)`; every bit
position at or above `count*W` is 0 (R87); every packed word fits its width, and there are N of them. -/
def Obligations.PackedBitPositions : Prop :=
  ∀ (outw : Width) (w : Nat) (xs : List Nat), 1 ≤ w →
    (∀ i j, i < xs.length → j < w →
        ((packWords outw.bits w xs).getD ((i * w + j) / outw.bits) 0).testBit ((i * w + j) % outw.bits)
          = (xs.getD i 0).testBit j)
      ∧ (∀ p, xs.length * w ≤ p → ((packWords outw.bits w xs).getD (p / outw.bits) 0).testBit (p % outw.bits) = false)
      ∧ (∀ x ∈ packWords outw.bits w xs, x < 2 ^ outw.bits)
      ∧ (packWords outw.bits w xs).length = packedLength xs.length w outw

/-- The round trip (42_unpack.md R110): unpacking the packed words of any value words gives each masked to `W` bits, for every legal
`(InW, OutW, W)`, and the values themselves when they fit; PACK and UNPACK agree on N. -/
def Obligations.UnpackInvertsPack : Prop :=
  ∀ (inw outw : Width) (w : Nat) (xs : List Nat), 1 ≤ w → w ≤ inw.bits → (∀ x ∈ xs, x < 2 ^ inw.bits) →
    unpackValues outw.bits w xs.length (packWords outw.bits w xs) = xs.map (· % 2 ^ w)
      ∧ ((∀ x ∈ xs, x < 2 ^ w) → unpackValues outw.bits w xs.length (packWords outw.bits w xs) = xs)
      ∧ (packWords outw.bits w xs).length = packedLength xs.length w outw

/-- The laws of PACK (41_pack.md R96): masking before packing changes nothing, re-encoding decoded output gives the same packed words, and blocks
that end on a word boundary concatenate. -/
def Obligations.PackLaws : Prop :=
  ∀ (outw : Width) (w : Nat) (xs ys : List Nat), 1 ≤ w →
    packWords outw.bits w (xs.map (· % 2 ^ w)) = packWords outw.bits w xs
      ∧ packWords outw.bits w (unpackValues outw.bits w xs.length (packWords outw.bits w xs)) = packWords outw.bits w xs
      ∧ (xs.length * w % outw.bits = 0 →
          packWords outw.bits w (xs ++ ys) = packWords outw.bits w xs ++ packWords outw.bits w ys)

/-- The sequential form of PACK writes the words of the bitstream formula (41_pack.md R89), and before value `i` its cursor is
`(i*W) mod OutW` with `floor(i*W/OutW)` words written (43_width_adaptation.md R115). -/
def Obligations.SequentialPackWritesTheSameWords : Prop :=
  ∀ (outw : Width) (w : Nat) (xs : List Nat), 1 ≤ w →
    packSequential outw.bits w xs = packWords outw.bits w xs
      ∧ (placeValues outw.bits w xs ⟨0, 0, []⟩).b = bitCursor outw.bits w xs.length
      ∧ (placeValues outw.bits w xs ⟨0, 0, []⟩).out.length = wordCursor outw.bits w xs.length

/-- The sequential form of UNPACK writes the values of the bitstream formula (42_unpack.md R103). -/
def Obligations.SequentialUnpackWritesTheSameValues : Prop :=
  ∀ (outw : Width) (w count : Nat) (ps : List Nat), 1 ≤ w → ps.length = packedLength count w outw →
    (∀ p ∈ ps, p < 2 ^ outw.bits) → unpackSequential outw.bits w count ps = unpackValues outw.bits w count ps

/-- Padding bits and packed words past N do not reach any value (42_unpack.md R101): two packed streams that agree on the bits below `count*W`
unpack to the same values. -/
def Obligations.UnpackIgnoresPadding : Prop :=
  ∀ (outw : Width) (w count : Nat) (ps qs : List Nat), 1 ≤ w →
    (∀ p ∈ ps, p < 2 ^ outw.bits) → (∀ q ∈ qs, q < 2 ^ outw.bits) →
    (∀ b, b < count * w → (ps.getD (b / outw.bits) 0).testBit (b % outw.bits)
        = (qs.getD (b / outw.bits) 0).testBit (b % outw.bits)) →
      unpackValues outw.bits w count ps = unpackValues outw.bits w count qs

/-- The packed length (43_width_adaptation.md R113): `(N-1)*OutW < count*W <= N*OutW` for `count >= 1`, `N = 0` for `count = 0`, and the padding is
below `OutW`; the required extents of a command are `count` and `N` words in the order its operation gives. -/
def Obligations.PackedLengthBounds : Prop :=
  ∀ (count w : Nat) (outw : Width), 1 ≤ w →
    (1 ≤ count → (packedLength count w outw - 1) * outw.bits < count * w ∧ count * w ≤ packedLength count w outw * outw.bits
        ∧ packedLength count w outw * outw.bits - count * w < outw.bits)
      ∧ packedLength 0 w outw = 0
      ∧ ∀ j : Job, (j.op = .pack → jobSrcWords j = j.cnt ∧ jobDstWords j = packedLength j.cnt j.w j.outw)
          ∧ (j.op = .unpack → jobSrcWords j = packedLength j.cnt j.w j.outw ∧ jobDstWords j = j.cnt)

/-! ### Memory -/

/-- Byte order (20_memory.md R37): a word `v` of `n` bytes at `a` puts `v[8t+7 : 8t]` at `a + t` under LE and `v[N-8t-1 : N-8t-8]` there under BE;
reading it back gives `v`, and every other byte stays. -/
def Obligations.WordsInMemoryFollowTheByteOrder : Prop :=
  ∀ (e : Endian) (m : Memory) (a n v : Nat), Memory.wf m = true → v < 2 ^ (8 * n) →
    (e = .le → ∀ t, t < n →
        Memory.read (Memory.writeBytes m a (bytesOfNumber e n v)) (a + t) = BitVec.ofNat 8 (v / 2 ^ (8 * t)))
      ∧ (e = .be → ∀ t, t < n →
        Memory.read (Memory.writeBytes m a (bytesOfNumber e n v)) (a + t) = BitVec.ofNat 8 (v / 2 ^ (8 * n - 8 * t - 8)))
      ∧ numberOfBytes e (Memory.readBytes (Memory.writeBytes m a (bytesOfNumber e n v)) a n) = v
      ∧ ∀ b, b < a ∨ a + n ≤ b → Memory.read (Memory.writeBytes m a (bytesOfNumber e n v)) b = Memory.read m b

/-- Under LE, bit `p` of the bitstream is bit `p mod 8` of byte `floor(p/8)` of the packed buffer, whatever `OutW` is (20_memory.md R39). -/
def Obligations.LittleEndianBytesAreTheBitstream : Prop :=
  ∀ (outw : Width) (w : Nat) (xs : List Nat) (p : Nat), 1 ≤ w →
    (((packWords outw.bits w xs).flatMap (bytesOfNumber .le outw.bytes)).getD (p / 8) 0).getLsbD (p % 8)
      = decide (p < xs.length * w ∧ (xs.getD (p / w) 0).testBit (p % w) = true)

/-- The host reads and writes any byte of data memory (20_memory.md R34): with no command unsettled a read answers the byte and changes nothing else,
and a write stores it and changes no other byte; an address at or above `2^ADDR_W` does not exist (R33). That the host's accesses are
bytes, and that such an address faults, is the model's (log entry 14). -/
def Obligations.HostMemoryAccess : Prop :=
  ∀ (s : State) (a : Nat) (v : Byte), Memory.wf s.mem = true → s.outsideModel ⟨a, 1⟩ = false →
    (2 ^ s.platform.addrW ≤ a → hostMemRead a s = .fault .noSuchAddress ∧ hostMemWrite a v s = .fault .noSuchAddress)
      ∧ (a < 2 ^ s.platform.addrW → (∀ c ∈ s.codecs, c.claims = []) →
          hostMemRead a s = .next { s with readData := (Memory.read s.mem a).setWidth 64 }
            ∧ ∃ t, hostMemWrite a v s = .next t ∧ Memory.read t.mem a = v
                ∧ (∀ b, b ≠ a → Memory.read t.mem b = Memory.read s.mem b) ∧ t.readData = s.readData
                ∧ List.Forall₂ Codec.SameState s.codecs t.codecs)

/-! ### Races -/

/-- A source word the host wrote while the command runs is read by the engine as any value (20_memory.md R53). How the draw is taken is the model's
(log entries 5 and 6). -/
def Obligations.RacedSourceWordsReadAsDraws : Prop :=
  ∀ (s t : State) (j : Job) (a i : Nat) (v : Byte), s.codec.inReset = false → s.codec.phase = .run j →
    i < jobSrcWords j → extentsMeet (jobSrcWord j i) ⟨a, 1⟩ = true → hostMemWrite a v s = .next t →
    (jobSeq j)[j.pos]? = some (.rd i) → s.busOK (jobSrcWord j i) .read = true → j.pos + 1 ≠ jobLength j →
      (engineStep t).codec.phase = .run { j with
          pos := j.pos + 1
          rdata := j.rdata ++ [(i, numberOfBytes s.platform.endian (t.freeBytes (jobSrcWidth j).bytes))] }
        ∧ (engineStep t).draws = t.draws + (jobSrcWidth j).bytes ∧ (engineStep t).mem = t.mem
        ∧ (engineStep t).codec.done = s.codec.done ∧ (engineStep t).codec.err = s.codec.err
        ∧ (engineStep t).codec.words = s.codec.words

/-- A host read of a destination byte before the host has read DONE = 1 answers any value (20_memory.md R47, R53), and once it has read it the
instance claims no buffer. The window and the draw are the model's record (log entries 5 and 6). -/
def Obligations.UnsettledDestinationReadsAreDraws : Prop :=
  (∀ (s : State) (a : Nat) (c : Codec) (cl : Claim), c ∈ s.codecs → cl ∈ c.claims → extentsMeet cl.dst ⟨a, 1⟩ = true →
      a < 2 ^ s.platform.addrW → s.outsideModel ⟨a, 1⟩ = false →
        hostMemRead a s = .next { s with readData := (Config.freeByte s.draws).setWidth 64, draws := s.draws + 1 })
    ∧ ∀ s : State, s.codec.done = true → ∃ t, exec (.regRead 0x08) s = .next t ∧ t.codec.claims = []
        ∧ t.readData.getLsbD 1 = true

/-- Every destination word that another agent wrote during the run holds any value after the command ends, whichever and however many
the racing writes were; the other words stay, but for the one the last access writes; and the command's STATUS and WORDS are what they
would have been (20_memory.md R53). How the draws are taken, and the record of the writes, are the model's (log entries 5 and 6). -/
def Obligations.RacedDestinationWordsEndAsDraws : Prop :=
  ∀ (s : State) (j : Job) (k : Nat), Memory.wf s.mem = true → s.codec.inReset = false → s.codec.phase = .run j →
    (jobSeq j)[j.pos]? = some (.wr k) → s.busOK (jobDstWord j k) .write = true → j.pos + 1 = jobLength j →
    s.alone (jobDst j) = true → 1 ≤ j.w →
      (∀ x ∈ s.codec.raced, ∀ m, m < jobDstWords j → extentsMeet (jobDstWord j m) x = true →
          ∀ n, n < (jobDstWidth j).bytes → s.DrawnAt (engineStep s) ((jobDstWord j m).base + n))
        ∧ (∀ m, m < jobDstWords j → m ≠ k → (∀ x ∈ s.codec.raced, extentsMeet (jobDstWord j m) x = false) →
          ∀ n, n < (jobDstWidth j).bytes →
            Memory.read (engineStep s).mem ((jobDstWord j m).base + n) = Memory.read s.mem ((jobDstWord j m).base + n))
        ∧ (engineStep s).codec = { s.codec with
            phase := .idle, done := true, err := .ok, words := BitVec.ofNat 64 (jobPackedWords j), raced := [] }

/-- A claim lasts until the host reads STATUS with DONE = 1: over every step, every claim of every instance stays, unless the step is a
host read of that instance's STATUS while its DONE is 1 (20_memory.md R47, R48; 70_reset_and_hazards.md R155, R157). Taking another
command, a failing one too, and reset end none. The claims are the model's record (log entry 6). -/
def Obligations.ClaimsLastUntilDoneIsRead : Prop :=
  ∀ (s t : State) (k : Nat) (c d : Codec) (cl : Claim), step s = .next t → s.codecs[k]? = some c → t.codecs[k]? = some d →
    cl ∈ c.claims →
      cl ∈ d.claims ∨ (c.done = true ∧ ∃ data rest, s.inputs = .access .read (c.regBase + 0x08) 8 data :: rest)

/-- A host write into a destination an instance claims, the command running or ended with its DONE = 1 unread, leaves every byte of the
word written any value; no other byte changes, and no register, flag or hidden state (20_memory.md R53, 70_reset_and_hazards.md R155). That
the word is drawn at once is the model's (log entries 5 and 6). -/
def Obligations.HostWritesSpoilClaimedDestinations : Prop :=
  ∀ (s t : State) (a : Nat) (v : Byte), s.Inv → hostMemWrite a v s = .next t →
    (∀ c ∈ s.codecs, ∀ cl ∈ c.claims, ∀ b, cl.SameWord a b → s.DrawnAt t b)
      ∧ (∀ b, b ≠ a → (∀ c ∈ s.codecs, ∀ cl ∈ c.claims, ¬ cl.SameWord a b) → Memory.read t.mem b = Memory.read s.mem b)
      ∧ List.Forall₂ Codec.SameState s.codecs t.codecs ∧ t.readData = s.readData

/-- An engine read of a word that another agent wrote since the command started, or that lies in a destination another instance
claims, puts any value in RDATA; memory and every register stay (20_memory.md R53, 70_reset_and_hazards.md R158). How the draw is taken, and
that such a destination is treated as raced, is the model's (log entries 5, 6 and 17). -/
def Obligations.RacedEngineReadsAreDraws : Prop :=
  ∀ (s : State) (j : Job) (i : Nat), s.codec.inReset = false → s.codec.phase = .run j →
    (jobSeq j)[j.pos]? = some (.rd i) → s.busOK (jobSrcWord j i) .read = true → j.pos + 1 ≠ jobLength j →
    (∃ x ∈ s.codec.raced, extentsMeet x (jobSrcWord j i) = true)
      ∨ (∃ c ∈ s.others, ∃ cl ∈ c.claims, extentsMeet cl.dst (jobSrcWord j i) = true) →
      engineStep s = { s with
        draws := s.draws + (jobSrcWidth j).bytes
        codec := { s.codec with phase := .run { j with
          pos := j.pos + 1
          rdata := j.rdata ++ [(i, numberOfBytes s.platform.endian (s.freeBytes (jobSrcWidth j).bytes))] } } }

/-- An engine write into a destination another instance claims leaves every byte of that instance's words written any value, and every
other instance with a running command records the write if it meets its extents (20_memory.md R53, 70_reset_and_hazards.md R158). The draws
and the record are the model's (log entries 5, 6 and 17). -/
def Obligations.EngineWritesSpoilClaimedDestinations : Prop :=
  ∀ (s : State) (j : Job) (k : Nat), s.Inv → s.codec.phase = .run j →
    (jobSeq j)[j.pos]? = some (.wr k) → s.busOK (jobDstWord j k) .write = true →
      (∀ c ∈ s.others, ∀ cl ∈ c.claims, ∀ a b, (jobDstWord j k).base ≤ a → a < extentEnd (jobDstWord j k) → cl.SameWord a b →
          s.DrawnAt (engineStep s) b)
        ∧ List.Forall₂ (fun c d => Codec.SameState c d ∧ ∀ j', c.phase = .run j' →
            extentsMeet (jobSrc j') (jobDstWord j k) = true ∨ extentsMeet (jobDst j') (jobDstWord j k) = true →
              d.raced = jobDstWord j k :: c.raced) s.others (engineStep s).others

/-! ### The interrupt -/

/-- `irq = CTRL.IE and STATUS.DONE` (60_exceptions.md R138): acknowledging DONE, clearing IE and a command that starts clear it; the completion of a
command raises it when IE is set. -/
def Obligations.InterruptFollowsDone : Prop :=
  (∀ c : Codec, c.irq = (c.ie && c.done))
    ∧ (∀ s : State, s.codec.inReset = false →
        (∃ t, exec (.regWriteStatus 0x2) s = .next t ∧ t.codec.irq = false)
          ∧ (∃ t, exec (.regWriteCtrl 0) s = .next t ∧ t.codec.irq = false)
          ∧ ∃ t, exec (.regWriteCtrl 1) s = .next t ∧ t.codec.irq = s.codec.done)
    ∧ (∀ (v : Word) (s t : State), s.codec.inReset = false → s.codec.busy = false → exec (.regWriteCmd v) s = .next t →
        t.codec.busy = true → t.codec.irq = false)
    ∧ ∀ s : State, s.codec.busy = true → (engineStep s).codec.busy = false → (engineStep s).codec.irq = s.codec.ie
end

