-- ==== Sys2Proof/Laws/Decode.lean ====
section
/-! SUPPORT. The fields of an encoded command word (30_encoding.md R55, R61), and the width codes. -/

namespace Sys2Proof

@[simp] theorem widthOfCode_widthCode (x : Width) : widthOfCode (widthCode x) = x := by cases x <;> rfl

theorem Width.bits_eq_bytes (x : Width) : x.bits = 8 * x.bytes := by cases x <;> rfl
theorem Width.bits_pos (x : Width) : 0 < x.bits := by cases x <;> decide
theorem Width.bytes_pos (x : Width) : 0 < x.bytes := by cases x <;> decide
theorem Width.bits_le (x : Width) : x.bits ≤ 64 := by cases x <;> decide

/-- Bit `i` of an encoded command word, field by field. -/
theorem getLsbD_encodeCommand (op : Op) (x y : Width) (w : BitVec 7) (i : Nat) (hi : i < 64) :
    (encodeCommand op x y w).getLsbD i
      = ((opCode op).getLsbD i || (decide (2 ≤ i) && (widthCode x).getLsbD (i - 2))
          || (decide (4 ≤ i) && (widthCode y).getLsbD (i - 4)) || (decide (8 ≤ i) && w.getLsbD (i - 8))) := by
  have h2 : decide (i < 2) = !decide (2 ≤ i) := by rw [← decide_not]; congr 1; simp
  have h4 : decide (i < 4) = !decide (4 ≤ i) := by rw [← decide_not]; congr 1; simp
  have h8 : decide (i < 8) = !decide (8 ≤ i) := by rw [← decide_not]; congr 1; simp
  have e2 : decide (i - 2 < 64) = true := by simp; omega
  have e4 : decide (i - 4 < 64) = true := by simp; omega
  have e8 : decide (i - 8 < 64) = true := by simp; omega
  simp only [encodeCommand, BitVec.getLsbD_or, BitVec.getLsbD_shiftLeft, BitVec.getLsbD_setWidth, hi, e2, e4, e8, h2, h4, h8,
    decide_true, Bool.true_and, Bool.not_not]

/-! Each field of `enc(op, iw, ow, w)` reads back; the reserved fields are 0. -/

@[simp] theorem cmdOp_encodeCommand (op : Op) (x y : Width) (w : BitVec 7) : cmdOp (encodeCommand op x y w) = opCode op := by
  apply BitVec.eq_of_getLsbD_eq
  intro i hi
  simp only [cmdOp, BitVec.getLsbD_extractLsb', hi, decide_true, Bool.true_and]
  rw [getLsbD_encodeCommand _ _ _ _ _ (by omega)]
  simp [show ¬ 2 ≤ i by omega, show ¬ 4 ≤ i by omega, show ¬ 8 ≤ i by omega]
@[simp] theorem cmdInw_encodeCommand (op : Op) (x y : Width) (w : BitVec 7) :
    cmdInw (encodeCommand op x y w) = widthCode x := by
  apply BitVec.eq_of_getLsbD_eq
  intro i hi
  simp only [cmdInw, BitVec.getLsbD_extractLsb', hi, decide_true, Bool.true_and]
  rw [getLsbD_encodeCommand _ _ _ _ _ (by omega)]
  simp [show ¬ 4 ≤ 2 + i by omega, show ¬ 8 ≤ 2 + i by omega]
@[simp] theorem cmdOutw_encodeCommand (op : Op) (x y : Width) (w : BitVec 7) :
    cmdOutw (encodeCommand op x y w) = widthCode y := by
  apply BitVec.eq_of_getLsbD_eq
  intro i hi
  simp only [cmdOutw, BitVec.getLsbD_extractLsb', hi, decide_true, Bool.true_and]
  rw [getLsbD_encodeCommand _ _ _ _ _ (by omega)]
  simp [show ¬ 8 ≤ 4 + i by omega, BitVec.getLsbD_of_ge (opCode op) (4 + i) (by omega),
    BitVec.getLsbD_of_ge (widthCode x) (4 + i - 2) (by omega)]
@[simp] theorem cmdRsv0_encodeCommand (op : Op) (x y : Width) (w : BitVec 7) : cmdRsv0 (encodeCommand op x y w) = 0 := by
  apply BitVec.eq_of_getLsbD_eq
  intro i hi
  simp only [cmdRsv0, BitVec.getLsbD_extractLsb', hi, decide_true, Bool.true_and]
  rw [getLsbD_encodeCommand _ _ _ _ _ (by omega)]
  simp [show ¬ 8 ≤ 6 + i by omega, BitVec.getLsbD_of_ge (opCode op) (6 + i) (by omega),
    BitVec.getLsbD_of_ge (widthCode x) (6 + i - 2) (by omega), BitVec.getLsbD_of_ge (widthCode y) (6 + i - 4) (by omega)]
@[simp] theorem cmdRsv1_encodeCommand (op : Op) (x y : Width) (w : BitVec 7) : cmdRsv1 (encodeCommand op x y w) = 0 := by
  apply BitVec.eq_of_getLsbD_eq
  intro i hi
  simp only [cmdRsv1, BitVec.getLsbD_extractLsb', hi, decide_true, Bool.true_and]
  rw [getLsbD_encodeCommand _ _ _ _ _ (by omega)]
  simp [BitVec.getLsbD_of_ge (opCode op) (15 + i) (by omega), BitVec.getLsbD_of_ge (widthCode x) (15 + i - 2) (by omega),
    BitVec.getLsbD_of_ge (widthCode y) (15 + i - 4) (by omega), BitVec.getLsbD_of_ge w (15 + i - 8) (by omega)]
@[simp] theorem cmdW_encodeCommand (op : Op) (x y : Width) (w : BitVec 7) : cmdW (encodeCommand op x y w) = w := by
  apply BitVec.eq_of_getLsbD_eq
  intro i hi
  simp only [cmdW, BitVec.getLsbD_extractLsb', hi, decide_true, Bool.true_and]
  rw [getLsbD_encodeCommand _ _ _ _ _ (by omega)]
  simp [BitVec.getLsbD_of_ge (opCode op) (8 + i) (by omega), BitVec.getLsbD_of_ge (widthCode x) (8 + i - 2) (by omega),
    BitVec.getLsbD_of_ge (widthCode y) (8 + i - 4) (by omega)]

end Sys2Proof
end

