-- ==== Sys2Proof/Laws/Memory.lean ====
section
/-! SUPPORT. The laws of data memory: read after write, frames, and the canonical form, which every memory operation keeps. -/

namespace Sys2Proof.Machine

@[simp] theorem Memory.read_nil (a : Nat) : Memory.read [] a = Config.unlistedByte := rfl

theorem Memory.read_cons (k : Nat) (b : Byte) (m : Memory) (a : Nat) :
    Memory.read ((k, b) :: m) a = if k = a then b else Memory.read m a := rfl

theorem Memory.wfAbove_mono {lo lo' : Nat} (h : lo' ≤ lo) (m : Memory) (hm : Memory.wfAbove lo m = true) :
    Memory.wfAbove lo' m = true := by
  cases m with
  | nil => rfl
  | cons p m =>
    simp only [Memory.wfAbove, Bool.and_eq_true, decide_eq_true_eq] at hm ⊢
    exact ⟨⟨by omega, hm.1.2⟩, hm.2⟩

/-- Below its first address a canonical memory lists nothing. -/
theorem Memory.read_below {lo : Nat} (m : Memory) (hm : Memory.wfAbove lo m = true) (a : Nat) (ha : a < lo) :
    Memory.read m a = Config.unlistedByte := by
  induction m generalizing lo with
  | nil => rfl
  | cons p m ih =>
    simp only [Memory.wfAbove, Bool.and_eq_true, decide_eq_true_eq] at hm
    rw [Memory.read_cons, if_neg (by omega)]
    exact ih hm.2 (by omega)

/-- A write leaves every other address as it was. -/
theorem Memory.read_write_other (m : Memory) (a b : Nat) (v : Byte) (h : b ≠ a) :
    Memory.read (Memory.write m a v) b = Memory.read m b := by
  have h' : ¬ a = b := fun e => h e.symm
  induction m with
  | nil =>
    unfold Memory.write
    split <;> simp [Memory.read_cons, h']
  | cons p m ih =>
    obtain ⟨k, c⟩ := p
    unfold Memory.write
    split
    · split <;> simp [Memory.read_cons, h']
    · split
      · rename_i e
        subst e
        split <;> simp [Memory.read_cons, h']
      · simp [Memory.read_cons, ih]

theorem Memory.read_write_same_above {lo : Nat} (m : Memory) (hm : Memory.wfAbove lo m = true) (a : Nat) (v : Byte) :
    Memory.read (Memory.write m a v) a = v := by
  induction m generalizing lo with
  | nil =>
    unfold Memory.write
    split <;> simp_all [Memory.read_cons]
  | cons p m ih =>
    simp only [Memory.wfAbove, Bool.and_eq_true, decide_eq_true_eq] at hm
    unfold Memory.write
    split
    · split
      · rename_i hlt hv
        rw [Memory.read_cons, if_neg (by omega), Memory.read_below m hm.2 a (by omega), hv]
      · simp [Memory.read_cons]
    · split
      · split
        · rename_i e hv
          rw [Memory.read_below m hm.2 a (by omega), hv]
        · simp [Memory.read_cons]
      · rename_i hne
        rw [Memory.read_cons, if_neg (fun e => hne e.symm)]
        exact ih hm.2

theorem Memory.wfAbove_write {lo : Nat} (m : Memory) (hm : Memory.wfAbove lo m = true) (a : Nat) (v : Byte) :
    Memory.wfAbove (min lo a) (Memory.write m a v) = true := by
  induction m generalizing lo with
  | nil =>
    unfold Memory.write
    split <;> simp_all [Memory.wfAbove]
  | cons p m ih =>
    simp only [Memory.wfAbove, Bool.and_eq_true, decide_eq_true_eq] at hm
    unfold Memory.write
    split
    · split
      · simp only [Memory.wfAbove, Bool.and_eq_true, decide_eq_true_eq]
        exact ⟨⟨by omega, hm.1.2⟩, hm.2⟩
      · simp only [Memory.wfAbove, Bool.and_eq_true, decide_eq_true_eq]
        exact ⟨⟨by omega, by assumption⟩, ⟨by omega, hm.1.2⟩, hm.2⟩
    · split
      · split
        · exact Memory.wfAbove_mono (by omega) m hm.2
        · simp only [Memory.wfAbove, Bool.and_eq_true, decide_eq_true_eq]
          rename_i e _
          subst e
          exact ⟨⟨by omega, by assumption⟩, hm.2⟩
      · simp only [Memory.wfAbove, Bool.and_eq_true, decide_eq_true_eq]
        refine ⟨⟨by omega, hm.1.2⟩, ?_⟩
        have := ih hm.2
        rwa [Nat.min_eq_left (by omega)] at this

/-- A write keeps the canonical form. -/
theorem Memory.wf_write (m : Memory) (hm : m.wf = true) (a : Nat) (v : Byte) : (Memory.write m a v).wf = true := by
  have := Memory.wfAbove_write m hm a v
  rwa [Nat.zero_min] at this

/-- A read after a write to the same address gives the value written. -/
theorem Memory.read_write_same (m : Memory) (hm : m.wf = true) (a : Nat) (v : Byte) :
    Memory.read (Memory.write m a v) a = v := Memory.read_write_same_above m hm a v

/-- Writing consecutive bytes keeps the canonical form. -/
theorem Memory.wf_writeBytes (bs : List Byte) (m : Memory) (hm : m.wf = true) (a : Nat) :
    (Memory.writeBytes m a bs).wf = true := by
  induction bs generalizing m a with
  | nil => exact hm
  | cons b bs ih => exact ih _ (Memory.wf_write m hm a b) (a + 1)

/-- Writing consecutive bytes leaves every address outside them as it was. -/
theorem Memory.read_writeBytes_other (bs : List Byte) (m : Memory) (a b : Nat) (h : b < a ∨ a + bs.length ≤ b) :
    Memory.read (Memory.writeBytes m a bs) b = Memory.read m b := by
  induction bs generalizing m a with
  | nil => rfl
  | cons c bs ih =>
    rw [List.length_cons] at h
    rw [Memory.writeBytes, ih _ _ (by omega), Memory.read_write_other _ _ _ _ (by omega)]

/-- Writing consecutive bytes puts byte `t` at `a + t`. -/
theorem Memory.read_writeBytes_same (bs : List Byte) (m : Memory) (hm : m.wf = true) (a t : Nat) (h : t < bs.length) :
    Memory.read (Memory.writeBytes m a bs) (a + t) = bs[t] := by
  induction bs generalizing m a t with
  | nil => simp at h
  | cons c bs ih =>
    rw [Memory.writeBytes]
    cases t with
    | zero =>
      rw [Memory.read_writeBytes_other _ _ _ _ (by omega)]
      exact Memory.read_write_same m hm a c
    | succ t =>
      rw [show a + (t + 1) = a + 1 + t by omega, ih _ (Memory.wf_write m hm a c) _ _ (by simpa using h)]
      simp

/-- Two canonical memories that list the same entries from `lo` on and read alike are equal data. -/
theorem Memory.ext_above {lo : Nat} (m m' : Memory) (hm : Memory.wfAbove lo m = true) (hm' : Memory.wfAbove lo m' = true)
    (h : ∀ a, Memory.read m a = Memory.read m' a) : m = m' := by
  induction m generalizing lo m' with
  | nil =>
    cases m' with
    | nil => rfl
    | cons q m' =>
      simp only [Memory.wfAbove, Bool.and_eq_true, decide_eq_true_eq] at hm'
      have := h q.1
      rw [Memory.read_nil, Memory.read_cons, if_pos rfl] at this
      exact absurd this.symm hm'.1.2
  | cons p m ih =>
    cases m' with
    | nil =>
      simp only [Memory.wfAbove, Bool.and_eq_true, decide_eq_true_eq] at hm
      have := h p.1
      rw [Memory.read_nil, Memory.read_cons, if_pos rfl] at this
      exact absurd this hm.1.2
    | cons q m' =>
      obtain ⟨k, b⟩ := p
      obtain ⟨k', b'⟩ := q
      simp only [Memory.wfAbove, Bool.and_eq_true, decide_eq_true_eq] at hm hm'
      have hk : k = k' := by
        rcases Nat.lt_trichotomy k k' with hlt | heq | hgt
        · have := h k
          rw [Memory.read_cons, if_pos rfl, Memory.read_cons, if_neg (by omega), Memory.read_below m' hm'.2 k (by omega)] at this
          exact absurd this hm.1.2
        · exact heq
        · have := h k'
          rw [Memory.read_cons, if_neg (by omega), Memory.read_below m hm.2 k' (by omega), Memory.read_cons, if_pos rfl] at this
          exact absurd this.symm hm'.1.2
      subst hk
      have hb : b = b' := by
        have := h k
        rwa [Memory.read_cons, if_pos rfl, Memory.read_cons, if_pos rfl] at this
      subst hb
      congr 1
      refine ih m' hm.2 hm'.2 fun a => ?_
      have := h a
      rw [Memory.read_cons, Memory.read_cons] at this
      by_cases e : k = a
      · subst e
        rw [Memory.read_below m hm.2 k (by omega), Memory.read_below m' hm'.2 k (by omega)]
      · rwa [if_neg e, if_neg e] at this

/-- Equal contents are equal data: the form is canonical. -/
theorem Memory.ext_of_wf (m m' : Memory) (hm : m.wf = true) (hm' : m'.wf = true)
    (h : ∀ a, Memory.read m a = Memory.read m' a) : m = m' := Memory.ext_above m m' hm hm' h

end Sys2Proof.Machine
end

