-- ==== Sys2Proof/Laws/State.lean ====
section
/-! SUPPORT. One lemma per field per named update of the state: what each update writes, and what it leaves. -/

namespace Sys2Proof.Machine

/-! `Codec.fail` -/

@[simp] theorem Codec.fail_regBase (c : Codec) (e : Err) : (c.fail e).regBase = c.regBase := rfl
@[simp] theorem Codec.fail_inReset (c : Codec) (e : Err) : (c.fail e).inReset = c.inReset := rfl
@[simp] theorem Codec.fail_ie (c : Codec) (e : Err) : (c.fail e).ie = c.ie := rfl
@[simp] theorem Codec.fail_done (c : Codec) (e : Err) : (c.fail e).done = true := rfl
@[simp] theorem Codec.fail_drop (c : Codec) (e : Err) : (c.fail e).drop = c.drop := rfl
@[simp] theorem Codec.fail_err (c : Codec) (e : Err) : (c.fail e).err = e := rfl
@[simp] theorem Codec.fail_cmd (c : Codec) (e : Err) : (c.fail e).cmd = c.cmd := rfl
@[simp] theorem Codec.fail_srcBase (c : Codec) (e : Err) : (c.fail e).srcBase = c.srcBase := rfl
@[simp] theorem Codec.fail_srcLen (c : Codec) (e : Err) : (c.fail e).srcLen = c.srcLen := rfl
@[simp] theorem Codec.fail_dstBase (c : Codec) (e : Err) : (c.fail e).dstBase = c.dstBase := rfl
@[simp] theorem Codec.fail_dstCap (c : Codec) (e : Err) : (c.fail e).dstCap = c.dstCap := rfl
@[simp] theorem Codec.fail_count (c : Codec) (e : Err) : (c.fail e).count = c.count := rfl
@[simp] theorem Codec.fail_words (c : Codec) (e : Err) : (c.fail e).words = 0 := rfl
@[simp] theorem Codec.fail_phase (c : Codec) (e : Err) : (c.fail e).phase = .idle := rfl
@[simp] theorem Codec.fail_claims (c : Codec) (e : Err) : (c.fail e).claims = c.claims := rfl
@[simp] theorem Codec.fail_raced (c : Codec) (e : Err) : (c.fail e).raced = c.raced := rfl

/-! `Codec.complete` -/

@[simp] theorem Codec.complete_regBase (c : Codec) (n : Nat) : (c.complete n).regBase = c.regBase := rfl
@[simp] theorem Codec.complete_inReset (c : Codec) (n : Nat) : (c.complete n).inReset = c.inReset := rfl
@[simp] theorem Codec.complete_ie (c : Codec) (n : Nat) : (c.complete n).ie = c.ie := rfl
@[simp] theorem Codec.complete_done (c : Codec) (n : Nat) : (c.complete n).done = true := rfl
@[simp] theorem Codec.complete_drop (c : Codec) (n : Nat) : (c.complete n).drop = c.drop := rfl
@[simp] theorem Codec.complete_err (c : Codec) (n : Nat) : (c.complete n).err = .ok := rfl
@[simp] theorem Codec.complete_cmd (c : Codec) (n : Nat) : (c.complete n).cmd = c.cmd := rfl
@[simp] theorem Codec.complete_srcBase (c : Codec) (n : Nat) : (c.complete n).srcBase = c.srcBase := rfl
@[simp] theorem Codec.complete_srcLen (c : Codec) (n : Nat) : (c.complete n).srcLen = c.srcLen := rfl
@[simp] theorem Codec.complete_dstBase (c : Codec) (n : Nat) : (c.complete n).dstBase = c.dstBase := rfl
@[simp] theorem Codec.complete_dstCap (c : Codec) (n : Nat) : (c.complete n).dstCap = c.dstCap := rfl
@[simp] theorem Codec.complete_count (c : Codec) (n : Nat) : (c.complete n).count = c.count := rfl
@[simp] theorem Codec.complete_words (c : Codec) (n : Nat) : (c.complete n).words = BitVec.ofNat 64 n := rfl
@[simp] theorem Codec.complete_phase (c : Codec) (n : Nat) : (c.complete n).phase = .idle := rfl
@[simp] theorem Codec.complete_claims (c : Codec) (n : Nat) : (c.complete n).claims = c.claims := rfl
@[simp] theorem Codec.complete_raced (c : Codec) (n : Nat) : (c.complete n).raced = c.raced := rfl

/-! `Codec.take` -/

@[simp] theorem Codec.take_regBase (c : Codec) (v : Word) : (c.take v).regBase = c.regBase := rfl
@[simp] theorem Codec.take_inReset (c : Codec) (v : Word) : (c.take v).inReset = c.inReset := rfl
@[simp] theorem Codec.take_ie (c : Codec) (v : Word) : (c.take v).ie = c.ie := rfl
@[simp] theorem Codec.take_done (c : Codec) (v : Word) : (c.take v).done = false := rfl
@[simp] theorem Codec.take_drop (c : Codec) (v : Word) : (c.take v).drop = c.drop := rfl
@[simp] theorem Codec.take_err (c : Codec) (v : Word) : (c.take v).err = .ok := rfl
@[simp] theorem Codec.take_cmd (c : Codec) (v : Word) : (c.take v).cmd = v := rfl
@[simp] theorem Codec.take_srcBase (c : Codec) (v : Word) : (c.take v).srcBase = c.srcBase := rfl
@[simp] theorem Codec.take_srcLen (c : Codec) (v : Word) : (c.take v).srcLen = c.srcLen := rfl
@[simp] theorem Codec.take_dstBase (c : Codec) (v : Word) : (c.take v).dstBase = c.dstBase := rfl
@[simp] theorem Codec.take_dstCap (c : Codec) (v : Word) : (c.take v).dstCap = c.dstCap := rfl
@[simp] theorem Codec.take_count (c : Codec) (v : Word) : (c.take v).count = c.count := rfl
@[simp] theorem Codec.take_words (c : Codec) (v : Word) : (c.take v).words = 0 := rfl
@[simp] theorem Codec.take_phase (c : Codec) (v : Word) : (c.take v).phase = c.phase := rfl
@[simp] theorem Codec.take_claims (c : Codec) (v : Word) : (c.take v).claims = c.claims := rfl
@[simp] theorem Codec.take_raced (c : Codec) (v : Word) : (c.take v).raced = c.raced := rfl

/-! `Codec.start` -/

@[simp] theorem Codec.start_regBase (c : Codec) (j : Job) : (c.start j).regBase = c.regBase := rfl
@[simp] theorem Codec.start_inReset (c : Codec) (j : Job) : (c.start j).inReset = c.inReset := rfl
@[simp] theorem Codec.start_ie (c : Codec) (j : Job) : (c.start j).ie = c.ie := rfl
@[simp] theorem Codec.start_done (c : Codec) (j : Job) : (c.start j).done = c.done := rfl
@[simp] theorem Codec.start_drop (c : Codec) (j : Job) : (c.start j).drop = c.drop := rfl
@[simp] theorem Codec.start_err (c : Codec) (j : Job) : (c.start j).err = c.err := rfl
@[simp] theorem Codec.start_cmd (c : Codec) (j : Job) : (c.start j).cmd = c.cmd := rfl
@[simp] theorem Codec.start_srcBase (c : Codec) (j : Job) : (c.start j).srcBase = c.srcBase := rfl
@[simp] theorem Codec.start_srcLen (c : Codec) (j : Job) : (c.start j).srcLen = c.srcLen := rfl
@[simp] theorem Codec.start_dstBase (c : Codec) (j : Job) : (c.start j).dstBase = c.dstBase := rfl
@[simp] theorem Codec.start_dstCap (c : Codec) (j : Job) : (c.start j).dstCap = c.dstCap := rfl
@[simp] theorem Codec.start_count (c : Codec) (j : Job) : (c.start j).count = c.count := rfl
@[simp] theorem Codec.start_words (c : Codec) (j : Job) : (c.start j).words = c.words := rfl
@[simp] theorem Codec.start_phase (c : Codec) (j : Job) : (c.start j).phase = .run j := rfl
@[simp] theorem Codec.start_claims (c : Codec) (j : Job) : (c.start j).claims = jobClaim j :: c.claims := rfl
@[simp] theorem Codec.start_raced (c : Codec) (j : Job) : (c.start j).raced = [] := rfl

/-! `Codec.dropWrite` -/

@[simp] theorem Codec.dropWrite_regBase (c : Codec) : (c.dropWrite).regBase = c.regBase := rfl
@[simp] theorem Codec.dropWrite_inReset (c : Codec) : (c.dropWrite).inReset = c.inReset := rfl
@[simp] theorem Codec.dropWrite_ie (c : Codec) : (c.dropWrite).ie = c.ie := rfl
@[simp] theorem Codec.dropWrite_done (c : Codec) : (c.dropWrite).done = c.done := rfl
@[simp] theorem Codec.dropWrite_drop (c : Codec) : (c.dropWrite).drop = true := rfl
@[simp] theorem Codec.dropWrite_err (c : Codec) : (c.dropWrite).err = c.err := rfl
@[simp] theorem Codec.dropWrite_cmd (c : Codec) : (c.dropWrite).cmd = c.cmd := rfl
@[simp] theorem Codec.dropWrite_srcBase (c : Codec) : (c.dropWrite).srcBase = c.srcBase := rfl
@[simp] theorem Codec.dropWrite_srcLen (c : Codec) : (c.dropWrite).srcLen = c.srcLen := rfl
@[simp] theorem Codec.dropWrite_dstBase (c : Codec) : (c.dropWrite).dstBase = c.dstBase := rfl
@[simp] theorem Codec.dropWrite_dstCap (c : Codec) : (c.dropWrite).dstCap = c.dstCap := rfl
@[simp] theorem Codec.dropWrite_count (c : Codec) : (c.dropWrite).count = c.count := rfl
@[simp] theorem Codec.dropWrite_words (c : Codec) : (c.dropWrite).words = c.words := rfl
@[simp] theorem Codec.dropWrite_phase (c : Codec) : (c.dropWrite).phase = c.phase := rfl
@[simp] theorem Codec.dropWrite_claims (c : Codec) : (c.dropWrite).claims = c.claims := rfl
@[simp] theorem Codec.dropWrite_raced (c : Codec) : (c.dropWrite).raced = c.raced := rfl

/-! `Codec.acknowledge` -/

@[simp] theorem Codec.acknowledge_regBase (c : Codec) (v : Word) : (c.acknowledge v).regBase = c.regBase := rfl
@[simp] theorem Codec.acknowledge_inReset (c : Codec) (v : Word) : (c.acknowledge v).inReset = c.inReset := rfl
@[simp] theorem Codec.acknowledge_ie (c : Codec) (v : Word) : (c.acknowledge v).ie = c.ie := rfl
@[simp] theorem Codec.acknowledge_done (c : Codec) (v : Word) : (c.acknowledge v).done = if v.getLsbD 1 then false else c.done := rfl
@[simp] theorem Codec.acknowledge_drop (c : Codec) (v : Word) : (c.acknowledge v).drop = if v.getLsbD 2 then false else c.drop := rfl
@[simp] theorem Codec.acknowledge_err (c : Codec) (v : Word) : (c.acknowledge v).err = if v.getLsbD 1 then .ok else c.err := rfl
@[simp] theorem Codec.acknowledge_cmd (c : Codec) (v : Word) : (c.acknowledge v).cmd = c.cmd := rfl
@[simp] theorem Codec.acknowledge_srcBase (c : Codec) (v : Word) : (c.acknowledge v).srcBase = c.srcBase := rfl
@[simp] theorem Codec.acknowledge_srcLen (c : Codec) (v : Word) : (c.acknowledge v).srcLen = c.srcLen := rfl
@[simp] theorem Codec.acknowledge_dstBase (c : Codec) (v : Word) : (c.acknowledge v).dstBase = c.dstBase := rfl
@[simp] theorem Codec.acknowledge_dstCap (c : Codec) (v : Word) : (c.acknowledge v).dstCap = c.dstCap := rfl
@[simp] theorem Codec.acknowledge_count (c : Codec) (v : Word) : (c.acknowledge v).count = c.count := rfl
@[simp] theorem Codec.acknowledge_words (c : Codec) (v : Word) : (c.acknowledge v).words = c.words := rfl
@[simp] theorem Codec.acknowledge_phase (c : Codec) (v : Word) : (c.acknowledge v).phase = c.phase := rfl
@[simp] theorem Codec.acknowledge_claims (c : Codec) (v : Word) : (c.acknowledge v).claims = c.claims := rfl
@[simp] theorem Codec.acknowledge_raced (c : Codec) (v : Word) : (c.acknowledge v).raced = c.raced := rfl

/-! `State.freeRange` -/

@[simp] theorem State.freeRange_platform (s : State) (x : Extent) : (s.freeRange x).platform = s.platform := rfl
@[simp] theorem State.freeRange_before (s : State) (x : Extent) : (s.freeRange x).before = s.before := rfl
@[simp] theorem State.freeRange_codec (s : State) (x : Extent) : (s.freeRange x).codec = s.codec := rfl
@[simp] theorem State.freeRange_after (s : State) (x : Extent) : (s.freeRange x).after = s.after := rfl
@[simp] theorem State.freeRange_inputs (s : State) (x : Extent) : (s.freeRange x).inputs = s.inputs := rfl
@[simp] theorem State.freeRange_readData (s : State) (x : Extent) : (s.freeRange x).readData = s.readData := rfl
@[simp] theorem State.freeRange_mem (s : State) (x : Extent) :
    (s.freeRange x).mem = Memory.writeBytes s.mem x.base (s.freeBytes x.len) := rfl
@[simp] theorem State.freeRange_draws (s : State) (x : Extent) : (s.freeRange x).draws = s.draws + x.len := rfl

/-! BUSY and the phase -/

@[simp] theorem Codec.busy_of_idle {c : Codec} (h : c.phase = .idle) : c.busy = false := by simp [Codec.busy, h]
@[simp] theorem Codec.busy_of_run {c : Codec} {j : Job} (h : c.phase = .run j) : c.busy = true := by simp [Codec.busy, h]
theorem Codec.busy_iff (c : Codec) : c.busy = true ↔ ∃ j, c.phase = .run j := by
  cases h : c.phase <;> simp [Codec.busy, h]
theorem Codec.idle_of_not_busy {c : Codec} (h : c.busy = false) : c.phase = .idle := by
  cases hp : c.phase <;> simp_all [Codec.busy]
@[simp] theorem Codec.fail_busy (c : Codec) (e : Err) : (c.fail e).busy = false := rfl
@[simp] theorem Codec.complete_busy (c : Codec) (n : Nat) : (c.complete n).busy = false := rfl
@[simp] theorem Codec.start_busy (c : Codec) (j : Job) : (c.start j).busy = true := rfl

/-! `Codec.resetState` -/

@[simp] theorem Codec.resetState_regBase (b : Nat) (r : Bool) (cs : List Claim) : (Codec.resetState b r cs).regBase = b := rfl
@[simp] theorem Codec.resetState_inReset (b : Nat) (r : Bool) (cs : List Claim) : (Codec.resetState b r cs).inReset = r := rfl
@[simp] theorem Codec.resetState_done (b : Nat) (r : Bool) (cs : List Claim) : (Codec.resetState b r cs).done = false := rfl
@[simp] theorem Codec.resetState_err (b : Nat) (r : Bool) (cs : List Claim) : (Codec.resetState b r cs).err = .ok := rfl
@[simp] theorem Codec.resetState_words (b : Nat) (r : Bool) (cs : List Claim) : (Codec.resetState b r cs).words = 0 := rfl
@[simp] theorem Codec.resetState_phase (b : Nat) (r : Bool) (cs : List Claim) : (Codec.resetState b r cs).phase = .idle := rfl
@[simp] theorem Codec.resetState_claims (b : Nat) (r : Bool) (cs : List Claim) : (Codec.resetState b r cs).claims = cs := rfl
@[simp] theorem Codec.resetState_raced (b : Nat) (r : Bool) (cs : List Claim) : (Codec.resetState b r cs).raced = [] := rfl

/-! A racing write is recorded and changes nothing else -/

theorem Codec.noteWrite_raced_only (x : Extent) (c : Codec) :
    c.noteWrite x = { c with raced := (c.noteWrite x).raced } := by
  unfold Codec.noteWrite
  split
  · rfl
  · split <;> rfl

@[simp] theorem Codec.noteWrite_regBase (x : Extent) (c : Codec) : (c.noteWrite x).regBase = c.regBase := by
  rw [Codec.noteWrite_raced_only]
@[simp] theorem Codec.noteWrite_inReset (x : Extent) (c : Codec) : (c.noteWrite x).inReset = c.inReset := by
  rw [Codec.noteWrite_raced_only]
@[simp] theorem Codec.noteWrite_ie (x : Extent) (c : Codec) : (c.noteWrite x).ie = c.ie := by
  rw [Codec.noteWrite_raced_only]
@[simp] theorem Codec.noteWrite_done (x : Extent) (c : Codec) : (c.noteWrite x).done = c.done := by
  rw [Codec.noteWrite_raced_only]
@[simp] theorem Codec.noteWrite_drop (x : Extent) (c : Codec) : (c.noteWrite x).drop = c.drop := by
  rw [Codec.noteWrite_raced_only]
@[simp] theorem Codec.noteWrite_err (x : Extent) (c : Codec) : (c.noteWrite x).err = c.err := by
  rw [Codec.noteWrite_raced_only]
@[simp] theorem Codec.noteWrite_cmd (x : Extent) (c : Codec) : (c.noteWrite x).cmd = c.cmd := by
  rw [Codec.noteWrite_raced_only]
@[simp] theorem Codec.noteWrite_srcBase (x : Extent) (c : Codec) : (c.noteWrite x).srcBase = c.srcBase := by
  rw [Codec.noteWrite_raced_only]
@[simp] theorem Codec.noteWrite_srcLen (x : Extent) (c : Codec) : (c.noteWrite x).srcLen = c.srcLen := by
  rw [Codec.noteWrite_raced_only]
@[simp] theorem Codec.noteWrite_dstBase (x : Extent) (c : Codec) : (c.noteWrite x).dstBase = c.dstBase := by
  rw [Codec.noteWrite_raced_only]
@[simp] theorem Codec.noteWrite_dstCap (x : Extent) (c : Codec) : (c.noteWrite x).dstCap = c.dstCap := by
  rw [Codec.noteWrite_raced_only]
@[simp] theorem Codec.noteWrite_count (x : Extent) (c : Codec) : (c.noteWrite x).count = c.count := by
  rw [Codec.noteWrite_raced_only]
@[simp] theorem Codec.noteWrite_words (x : Extent) (c : Codec) : (c.noteWrite x).words = c.words := by
  rw [Codec.noteWrite_raced_only]
@[simp] theorem Codec.noteWrite_phase (x : Extent) (c : Codec) : (c.noteWrite x).phase = c.phase := by
  rw [Codec.noteWrite_raced_only]
@[simp] theorem Codec.noteWrite_claims (x : Extent) (c : Codec) : (c.noteWrite x).claims = c.claims := by
  rw [Codec.noteWrite_raced_only]
@[simp] theorem Codec.noteWrite_busy (x : Extent) (c : Codec) : (c.noteWrite x).busy = c.busy := by
  simp [Codec.busy]

/-! What a host read of STATUS settles -/

@[simp] theorem Codec.seen_regBase (c : Codec) : c.seen.regBase = c.regBase := by unfold Codec.seen; split <;> rfl
@[simp] theorem Codec.seen_inReset (c : Codec) : c.seen.inReset = c.inReset := by unfold Codec.seen; split <;> rfl
@[simp] theorem Codec.seen_ie (c : Codec) : c.seen.ie = c.ie := by unfold Codec.seen; split <;> rfl
@[simp] theorem Codec.seen_done (c : Codec) : c.seen.done = c.done := by unfold Codec.seen; split <;> rfl
@[simp] theorem Codec.seen_drop (c : Codec) : c.seen.drop = c.drop := by unfold Codec.seen; split <;> rfl
@[simp] theorem Codec.seen_err (c : Codec) : c.seen.err = c.err := by unfold Codec.seen; split <;> rfl
@[simp] theorem Codec.seen_cmd (c : Codec) : c.seen.cmd = c.cmd := by unfold Codec.seen; split <;> rfl
@[simp] theorem Codec.seen_srcBase (c : Codec) : c.seen.srcBase = c.srcBase := by unfold Codec.seen; split <;> rfl
@[simp] theorem Codec.seen_srcLen (c : Codec) : c.seen.srcLen = c.srcLen := by unfold Codec.seen; split <;> rfl
@[simp] theorem Codec.seen_dstBase (c : Codec) : c.seen.dstBase = c.dstBase := by unfold Codec.seen; split <;> rfl
@[simp] theorem Codec.seen_dstCap (c : Codec) : c.seen.dstCap = c.dstCap := by unfold Codec.seen; split <;> rfl
@[simp] theorem Codec.seen_count (c : Codec) : c.seen.count = c.count := by unfold Codec.seen; split <;> rfl
@[simp] theorem Codec.seen_words (c : Codec) : c.seen.words = c.words := by unfold Codec.seen; split <;> rfl
@[simp] theorem Codec.seen_phase (c : Codec) : c.seen.phase = c.phase := by unfold Codec.seen; split <;> rfl
@[simp] theorem Codec.seen_raced (c : Codec) : c.seen.raced = c.raced := by unfold Codec.seen; split <;> rfl
/-- A STATUS read with DONE = 1 ends every claim of the instance. -/
@[simp] theorem Codec.seen_claims (c : Codec) : c.seen.claims = if c.done then [] else c.claims := by
  unfold Codec.seen; split <;> rfl
@[simp] theorem readReg_seen (c : Codec) (off : Nat) : readReg c.seen off = readReg c off := by
  simp [readReg, ctrlWord, statusWord, Codec.busy]

end Sys2Proof.Machine
end

