-- ==== Sys2Proof/Laws/Ops.lean ====
section
/-! SUPPORT. One lemma per shared operation that says what it can do: draws, races, engine access, selecting an instance, register
writes, taking a command, host access to memory, reset. -/

namespace Sys2Proof.Machine

/-! ### Words and bytes -/

@[simp] theorem leBytes_length (n v : Nat) : (leBytes n v).length = n := by
  induction n generalizing v with
  | zero => rfl
  | succ n ih => simp [leBytes, ih]

@[simp] theorem bytesOfNumber_length (e : Endian) (n v : Nat) : (bytesOfNumber e n v).length = n := by
  cases e <;> simp [bytesOfNumber]

@[simp] theorem Memory.readBytes_length (m : Memory) (a n : Nat) : (Memory.readBytes m a n).length = n := by
  simp [Memory.readBytes]

@[simp] theorem State.freeBytes_length (s : State) (n : Nat) : (s.freeBytes n).length = n := by simp [State.freeBytes]

/-- A number read from `n` bytes fits `8n` bits. -/
theorem leNumber_lt (bs : List Byte) : leNumber bs < 256 ^ bs.length := by
  induction bs with
  | nil => simp [leNumber]
  | cons b bs ih =>
    rw [leNumber, List.length_cons, Nat.pow_succ]
    have := b.isLt
    omega

theorem numberOfBytes_lt (e : Endian) (bs : List Byte) : numberOfBytes e bs < 256 ^ bs.length := by
  cases e
  · exact leNumber_lt bs
  · simpa [numberOfBytes] using leNumber_lt bs.reverse

/-- What LE bytes store is the number's low `8n` bits. -/
theorem leNumber_leBytes (n v : Nat) : leNumber (leBytes n v) = v % 256 ^ n := by
  induction n generalizing v with
  | zero => simp [leBytes, leNumber, Nat.mod_one]
  | succ n ih =>
    rw [leBytes, leNumber, ih, Nat.pow_succ, Nat.mul_comm (256 ^ n) 256, Nat.mod_mul]
    simp

/-- A word written in a byte order reads back in the same order. -/
theorem numberOfBytes_bytesOfNumber (e : Endian) (n v : Nat) (h : v < 256 ^ n) :
    numberOfBytes e (bytesOfNumber e n v) = v := by
  cases e <;> simp [numberOfBytes, bytesOfNumber, leNumber_leBytes, Nat.mod_eq_of_lt h]

/-! ### Draws -/

/-- A byte inside a range that takes free values is the draw at its place. -/
theorem State.freeRange_inside (s : State) (x : Extent) (hm : s.mem.wf = true) (n : Nat) (h : n < x.len) :
    Memory.read (s.freeRange x).mem (x.base + n) = Config.freeByte (s.draws + n) := by
  rw [State.freeRange_mem, Memory.read_writeBytes_same _ _ hm _ _ (by simpa using h)]
  simp [State.freeBytes]

/-- A byte outside it stays. -/
theorem State.freeRange_outside (s : State) (x : Extent) (b : Nat) (h : b < x.base ∨ x.base + x.len ≤ b) :
    Memory.read (s.freeRange x).mem b = Memory.read s.mem b := by
  rw [State.freeRange_mem, Memory.read_writeBytes_other _ _ _ _ (by simpa using h)]

theorem State.freeRange_wf (s : State) (x : Extent) (hm : s.mem.wf = true) : (s.freeRange x).mem.wf = true :=
  Memory.wf_writeBytes _ _ hm _

/-- An empty range draws nothing. -/
theorem State.freeRange_empty (s : State) {x : Extent} (h : x.len = 0) : s.freeRange x = s := by
  cases x
  cases h
  rfl

/-! ### Draws over several ranges -/

@[simp] theorem State.freeRanges_nil (s : State) : s.freeRanges [] = s := rfl

@[simp] theorem State.freeRanges_cons (s : State) (x : Extent) (xs : List Extent) :
    s.freeRanges (x :: xs) = (s.freeRange x).freeRanges xs := rfl

/-- Draws over ranges change memory and the draw counter only. -/
theorem State.freeRanges_frame (s : State) (xs : List Extent) :
    s.freeRanges xs = { s with mem := (s.freeRanges xs).mem, draws := (s.freeRanges xs).draws } := by
  induction xs generalizing s with
  | nil => rfl
  | cons x xs ih =>
    rw [State.freeRanges_cons, ih]
    rfl

theorem State.freeRanges_wf (s : State) (xs : List Extent) (hm : s.mem.wf = true) : (s.freeRanges xs).mem.wf = true := by
  induction xs generalizing s with
  | nil => exact hm
  | cons x xs ih => exact ih _ (State.freeRange_wf _ _ hm)

theorem State.freeRanges_draws_le (s : State) (xs : List Extent) : s.draws ≤ (s.freeRanges xs).draws := by
  induction xs generalizing s with
  | nil => exact le_rfl
  | cons x xs ih => exact le_trans (by simp) (ih (s.freeRange x))

/-- A byte outside all the ranges stays. -/
theorem State.freeRanges_outside (s : State) (xs : List Extent) (b : Nat)
    (h : ∀ x ∈ xs, b < x.base ∨ x.base + x.len ≤ b) : Memory.read (s.freeRanges xs).mem b = Memory.read s.mem b := by
  induction xs generalizing s with
  | nil => rfl
  | cons x xs ih =>
    rw [State.freeRanges_cons, ih _ fun y hy => h y (by simp [hy])]
    exact State.freeRange_outside _ _ _ (h x (by simp))

/-- A byte inside one of the ranges is a draw made now. -/
theorem State.freeRanges_inside (s : State) (xs : List Extent) (hm : s.mem.wf = true) (b : Nat)
    (h : ∃ x ∈ xs, x.base ≤ b ∧ b < x.base + x.len) :
    ∃ n, s.draws ≤ n ∧ n < (s.freeRanges xs).draws ∧ Memory.read (s.freeRanges xs).mem b = Config.freeByte n := by
  induction xs generalizing s with
  | nil => simp at h
  | cons x xs ih =>
    rw [State.freeRanges_cons]
    by_cases hr : ∃ y ∈ xs, y.base ≤ b ∧ b < y.base + y.len
    · obtain ⟨n, h1, h2, h3⟩ := ih (s.freeRange x) (State.freeRange_wf _ _ hm) hr
      exact ⟨n, le_trans (by simp) h1, h2, h3⟩
    · obtain ⟨y, hy, hb⟩ := h
      have hx : x.base ≤ b ∧ b < x.base + x.len := by
        rcases List.mem_cons.1 hy with rfl | hy'
        · exact hb
        · exact absurd ⟨y, hy', hb⟩ hr
      refine ⟨s.draws + (b - x.base), by omega, ?_, ?_⟩
      · exact lt_of_lt_of_le (by simp; omega) (State.freeRanges_draws_le (s.freeRange x) xs)
      · rw [State.freeRanges_outside]
        · have := State.freeRange_inside s x hm (b - x.base) (by omega)
          rwa [show x.base + (b - x.base) = b by omega] at this
        · intro z hz
          by_contra hc
          exact hr ⟨z, hz, by omega⟩

/-- Empty ranges draw nothing. -/
theorem State.freeRanges_empty (s : State) (xs : List Extent) (h : ∀ x ∈ xs, x.len = 0) : s.freeRanges xs = s := by
  induction xs with
  | nil => rfl
  | cons x xs ih =>
    rw [State.freeRanges_cons, State.freeRange_empty s (h x (by simp))]
    exact ih fun y hy => h y (by simp [hy])

/-! ### Races -/

/-- Spoiling changes memory and the draw counter only. -/
theorem State.spoil_frame (x : Extent) (cs : List Codec) (s : State) :
    State.spoil x cs s = { s with mem := (State.spoil x cs s).mem, draws := (State.spoil x cs s).draws } :=
  State.freeRanges_frame _ _

theorem State.spoil_wf (x : Extent) (cs : List Codec) (s : State) (hm : s.mem.wf = true) :
    (State.spoil x cs s).mem.wf = true := State.freeRanges_wf _ _ hm

/-- Where no instance claims a destination the range meets, a write to it spoils nothing. -/
theorem State.spoil_none (x : Extent) (cs : List Codec) (s : State) (h : readRaces x cs = false) :
    State.spoil x cs s = s := by
  refine State.freeRanges_empty _ _ fun y hy => ?_
  simp only [List.mem_flatMap, Codec.spoiled, List.mem_map] at hy
  obtain ⟨c, hc, cl, hcl, rfl⟩ := hy
  simp only [readRaces, List.any_eq_false, Codec.holds] at h
  have := h c hc
  simp only [List.any_eq_true, not_exists, not_and] at this
  simp [claimWordsHit, this cl hcl]

/-- A word of a claimed destination that a range meets lies in the words the range hits. -/
theorem claimWordsHit_covers (cl : Claim) (x : Extent) (a b : Nat) (hd : 0 < cl.dstBytes)
    (ha : x.base ≤ a ∧ a < extentEnd x) (ha' : cl.dst.base ≤ a ∧ a < extentEnd cl.dst) (hb : cl.dst.base ≤ b)
    (hw : (b - cl.dst.base) / cl.dstBytes = (a - cl.dst.base) / cl.dstBytes) :
    (claimWordsHit cl x).base ≤ b ∧ b < (claimWordsHit cl x).base + (claimWordsHit cl x).len := by
  have hm : extentsMeet cl.dst x = true := by
    simp only [extentEnd] at ha ha'
    have h1 : cl.dst.len ≠ 0 := by omega
    have h2 : x.len ≠ 0 := by omega
    have h3 : cl.dst.base < x.base + x.len := by omega
    have h4 : x.base < cl.dst.base + cl.dst.len := by omega
    simp [extentsMeet, extentEnd, h1, h2, h3, h4]
  simp only [claimWordsHit, hm, if_true]
  set d := cl.dstBytes
  set k := (a - cl.dst.base) / d
  have h1 : (max x.base cl.dst.base - cl.dst.base) / d ≤ k := Nat.div_le_div_right (by omega)
  have h2 : k ≤ (min (extentEnd x) (extentEnd cl.dst) - 1 - cl.dst.base) / d := Nat.div_le_div_right (by omega)
  set f := (max x.base cl.dst.base - cl.dst.base) / d
  set l := (min (extentEnd x) (extentEnd cl.dst) - 1 - cl.dst.base) / d
  have hb1 : k * d ≤ b - cl.dst.base := hw ▸ Nat.div_mul_le_self _ _
  have hb2 : b - cl.dst.base < (k + 1) * d := by
    rw [← hw]
    exact Nat.lt_mul_of_div_lt (Nat.lt_succ_self _) hd
  have h3 : f * d ≤ k * d := Nat.mul_le_mul_right _ h1
  have h4 : f * d + (l + 1 - f) * d = (l + 1) * d := by rw [← Nat.add_mul]; congr 1; omega
  have h5 : (k + 1) * d ≤ (l + 1) * d := Nat.mul_le_mul_right _ (by omega)
  omega

/-- The two outcomes of an engine load: the number memory holds, or a draw. -/
theorem State.engineLoad_cases (s : State) (x : Extent) :
    s.engineLoad x = (s.memRead x, s)
      ∨ s.engineLoad x = (numberOfBytes s.platform.endian (s.freeBytes x.len), { s with draws := s.draws + x.len }) := by
  unfold State.engineLoad
  split
  · exact .inr rfl
  · exact .inl rfl

/-- An engine load gives a word of the access's size. -/
theorem State.engineLoad_lt (s : State) (x : Extent) : (s.engineLoad x).1 < 256 ^ x.len := by
  rcases State.engineLoad_cases s x with h | h <;> rw [h]
  · simpa [State.memRead] using numberOfBytes_lt s.platform.endian (Memory.readBytes s.mem x.base x.len)
  · simpa using numberOfBytes_lt s.platform.endian (s.freeBytes x.len)

/-- An engine load changes the draw counter only. -/
theorem State.engineLoad_frame (s : State) (x : Extent) :
    (s.engineLoad x).2 = { s with draws := (s.engineLoad x).2.draws } := by
  rcases State.engineLoad_cases s x with h | h <;> rw [h]

/-- An engine store changes memory, the draw counter and the other instances' records of races. -/
theorem State.engineStore_frame (s : State) (x : Extent) (v : Nat) :
    s.engineStore x v = { s with
      mem := (s.engineStore x v).mem
      draws := (s.engineStore x v).draws
      before := s.before.map (Codec.noteWrite x)
      after := s.after.map (Codec.noteWrite x) } := by
  unfold State.engineStore
  rw [State.spoil_frame]

theorem State.engineStore_wf (s : State) (x : Extent) (v : Nat) (hm : s.mem.wf = true) : (s.engineStore x v).mem.wf = true :=
  State.spoil_wf _ _ _ (Memory.wf_writeBytes _ _ hm _)

/-! ### Selecting an instance -/

/-- Selecting an instance moves the selection and changes nothing else. -/
theorem State.select_some {s t : State} {k : Nat} (h : s.select k = some t) :
    t.codecs = s.codecs ∧ t.selected = k ∧ t = { s with before := t.before, codec := t.codec, after := t.after } := by
  unfold State.select at h
  split at h
  · cases h
  · rename_i c rest hd
    cases h
    have hk : k < s.codecs.length := by
      by_contra hk
      rw [List.drop_eq_nil_of_le (by omega)] at hd
      cases hd
    refine ⟨?_, ?_, rfl⟩
    · show s.codecs.take k ++ c :: rest = s.codecs
      rw [← hd, List.take_append_drop]
    · show (s.codecs.take k).length = k
      rw [List.length_take]
      omega

/-- The selected instance is selected already. -/
@[simp] theorem State.select_selected (s : State) : s.select s.selected = some s := by
  unfold State.select State.codecs State.selected
  simp

/-! ### Register writes -/

/-- A host write that is made, or is held off by the reset input. -/
theorem writeAlways_next (f : Codec → Codec) (s : State) :
    ∃ t, writeAlways f s = .next t ∧ (s.codec.inReset = true → t = s)
      ∧ (s.codec.inReset = false → t = { s with codec := f s.codec }) := by
  unfold writeAlways
  cases h : s.codec.inReset
  · exact ⟨_, rfl, by simp, fun _ => rfl⟩
  · exact ⟨_, rfl, fun _ => rfl, by simp⟩

/-- A write to an operand register: held off by reset, dropped while busy, else made. -/
theorem writeOperand_next (f : Codec → Codec) (s : State) :
    ∃ t, writeOperand f s = .next t ∧ (s.codec.inReset = true → t = s)
      ∧ (s.codec.inReset = false → s.codec.busy = true → t = { s with codec := s.codec.dropWrite })
      ∧ (s.codec.inReset = false → s.codec.busy = false → t = { s with codec := f s.codec }) := by
  obtain ⟨t, h, h1, h2⟩ := writeAlways_next (fun c => if c.busy then c.dropWrite else f c) s
  exact ⟨t, h, h1, fun hr hb => by rw [h2 hr, if_pos hb], fun hr hb => by rw [h2 hr, if_neg (by simp [hb])]⟩

/-! ### Taking a command -/

/-- What acceptance can do: fail with a code, complete an empty command, refuse a buffer outside the model, or start. -/
theorem acceptCommand_cases (v : Word) (s : State) :
    (∃ e, checkCommand s.platform.addrW (s.codec.take v) v = .error e
        ∧ acceptCommand v s = .next { s with codec := (s.codec.take v).fail e })
      ∨ ∃ j, checkCommand s.platform.addrW (s.codec.take v) v = .ok j
          ∧ ((jobLength j = 0 ∧ acceptCommand v s = .next { s with codec := (s.codec.take v).complete 0 })
            ∨ (jobLength j ≠ 0 ∧ (s.outsideModel (jobSrc j) || s.outsideModel (jobDst j)) = true
                ∧ acceptCommand v s = .refused .bufferOutsideModel)
            ∨ (jobLength j ≠ 0 ∧ (s.outsideModel (jobSrc j) || s.outsideModel (jobDst j)) = false
                ∧ acceptCommand v s = .next { s with codec := (s.codec.take v).start j })) := by
  cases hc : checkCommand s.platform.addrW (s.codec.take v) v with
  | error e => exact .inl ⟨e, rfl, by simp [acceptCommand, hc]⟩
  | ok j =>
    refine .inr ⟨j, rfl, ?_⟩
    by_cases hl : jobLength j = 0
    · exact .inl ⟨hl, by simp [acceptCommand, hc, hl]⟩
    · cases ho : s.outsideModel (jobSrc j) || s.outsideModel (jobDst j)
      · exact .inr (.inr ⟨hl, rfl, by simp only [acceptCommand, hc, hl, ho, if_false, Bool.false_eq_true]⟩)
      · exact .inr (.inl ⟨hl, rfl, by simp only [acceptCommand, hc, hl, ho, if_false, if_true]⟩)

/-- The three places of a write to CMD: held off by reset, dropped while busy, else taken. -/
theorem writeCommand_cases (v : Word) (s : State) :
    (s.codec.inReset = true ∧ writeCommand v s = .next s)
      ∨ (s.codec.inReset = false ∧ s.codec.busy = true ∧ writeCommand v s = .next { s with codec := s.codec.dropWrite })
      ∨ (s.codec.inReset = false ∧ s.codec.busy = false ∧ writeCommand v s = acceptCommand v s) := by
  unfold writeCommand
  cases hr : s.codec.inReset <;> cases hb : s.codec.busy <;> simp

/-- A write to CMD changes the selected instance only. -/
theorem writeCommand_next {v : Word} {s t : State} (h : writeCommand v s = .next t) : t = { s with codec := t.codec } := by
  rcases writeCommand_cases v s with ⟨_, h'⟩ | ⟨_, _, h'⟩ | ⟨_, _, h'⟩
  · rw [h'] at h; cases h; rfl
  · rw [h'] at h; cases h; rfl
  · rw [h'] at h
    rcases acceptCommand_cases v s with ⟨e, _, ha⟩ | ⟨j, _, ⟨_, ha⟩ | ⟨_, _, ha⟩ | ⟨_, _, ha⟩⟩
    all_goals first
      | (rw [ha] at h; cases h; rfl)
      | (rw [ha] at h; cases h)

/-! ### Host access to data memory -/

/-- What a host read of a byte can do. -/
theorem hostMemRead_next {a : Nat} {s t : State} (h : hostMemRead a s = .next t) :
    a < 2 ^ s.platform.addrW ∧ t = { s with readData := t.readData, draws := t.draws } := by
  unfold hostMemRead at h
  split at h
  · cases h
  · split at h
    · cases h
    · split at h <;> · cases h; exact ⟨by omega, rfl⟩

/-- What a host write of a byte can do: memory, the draw counter and the records of races change. -/
theorem hostMemWrite_next {a : Nat} {v : Byte} {s t : State} (h : hostMemWrite a v s = .next t) :
    a < 2 ^ s.platform.addrW ∧ t = { s with
      mem := t.mem
      draws := t.draws
      before := s.before.map (Codec.noteWrite ⟨a, 1⟩)
      codec := s.codec.noteWrite ⟨a, 1⟩
      after := s.after.map (Codec.noteWrite ⟨a, 1⟩) } := by
  unfold hostMemWrite at h
  split at h
  · cases h
  · split at h
    · cases h
    · injection h with h
      refine ⟨by omega, ?_⟩
      rw [← h, State.spoil_frame]

theorem hostMemWrite_wf {a : Nat} {v : Byte} {s t : State} (hm : s.mem.wf = true) (h : hostMemWrite a v s = .next t) :
    t.mem.wf = true := by
  unfold hostMemWrite at h
  split at h
  · cases h
  · split at h
    · cases h
    · injection h with h
      rw [← h]
      exact State.spoil_wf _ _ _ (Memory.wf_write _ hm _ _)

/-! ### Reset -/

/-- Asserting reset keeps the canonical form of memory. -/
theorem assertReset_wf (s : State) (hm : s.mem.wf = true) : (assertReset s).mem.wf = true := by
  unfold assertReset
  cases s.codec.phase with
  | idle => exact hm
  | run j => exact State.freeRange_wf s _ hm

/-- What asserting reset does to an idle and to a running instance. -/
theorem assertReset_eq (s : State) :
    (s.codec.phase = .idle → assertReset s = { s with codec := Codec.resetState s.codec.regBase true s.codec.claims })
      ∧ ∀ j, s.codec.phase = .run j →
          assertReset s = { s.freeRange (jobDst j) with codec := Codec.resetState s.codec.regBase true s.codec.claims } := by
  constructor
  · intro h
    simp [assertReset, h]
  · intro j h
    simp [assertReset, h]

end Sys2Proof.Machine
end

