-- ==== Sys2Proof/Laws/Engine.lean ====
section
/-! SUPPORT. What one engine step can do, and that it keeps the canonical form of memory. -/

namespace Sys2Proof.Machine

/-- Racing writes to the destination change memory and the draw counter only. -/
theorem State.spoilRaced_frame (cl : Claim) (xs : List Extent) (s : State) :
    s.spoilRaced cl xs = { s with mem := (s.spoilRaced cl xs).mem, draws := (s.spoilRaced cl xs).draws } :=
  State.freeRanges_frame _ _

theorem State.spoilRaced_wf (cl : Claim) (xs : List Extent) (s : State) (hm : s.mem.wf = true) :
    (s.spoilRaced cl xs).mem.wf = true := State.freeRanges_wf _ _ hm

@[simp] theorem State.spoilRaced_nil (cl : Claim) (s : State) : s.spoilRaced cl [] = s := rfl

/-- Counting an access: the command goes on, or completes after the last one. -/
theorem advance_cases (j : Job) (s : State) :
    (j.pos + 1 ≠ jobLength j
        ∧ advance j s = { s with codec := { s.codec with phase := .run { j with pos := j.pos + 1 } } })
      ∨ (j.pos + 1 = jobLength j
        ∧ advance j s = { s.spoilRaced (jobClaim j) s.codec.raced with
            codec := { s.codec.complete (jobPackedWords j) with raced := [] } }) := by
  unfold advance
  split
  · rename_i h
    refine .inr ⟨h, ?_⟩
    simp only
    rw [State.spoilRaced_frame]
  · rename_i h
    exact .inl ⟨h, rfl⟩

/-- What an engine step can be: none, a read, a write, or a refused access. -/
theorem engineStep_cases (s : State) :
    engineStep s = s
      ∨ ∃ j, s.codec.inReset = false ∧ s.codec.phase = .run j
          ∧ ((∃ i, (jobSeq j)[j.pos]? = some (.rd i)
                ∧ ((s.busOK (jobSrcWord j i) .read = false ∧ engineStep s = busFail j s)
                  ∨ (s.busOK (jobSrcWord j i) .read = true
                    ∧ engineStep s = advance { j with rdata := j.rdata ++ [(i, (s.engineLoad (jobSrcWord j i)).1)] }
                        (s.engineLoad (jobSrcWord j i)).2)))
            ∨ ∃ k, (jobSeq j)[j.pos]? = some (.wr k)
                ∧ ((s.busOK (jobDstWord j k) .write = false ∧ engineStep s = busFail j s)
                  ∨ (s.busOK (jobDstWord j k) .write = true
                    ∧ engineStep s = advance j (s.engineStore (jobDstWord j k) (jobValue j k))))) := by
  unfold engineStep
  split
  · exact .inl rfl
  · rename_i hr
    have hr' : s.codec.inReset = false := by simpa using hr
    split
    · exact .inl rfl
    · rename_i j hp
      split
      · exact .inl rfl
      · rename_i i ha
        refine .inr ⟨j, hr', hp, .inl ⟨i, ha, ?_⟩⟩
        cases hb : s.busOK (jobSrcWord j i) .read
        · exact .inl ⟨rfl, by simp [engineRead, hb]⟩
        · exact .inr ⟨rfl, by simp [engineRead, hb]⟩
      · rename_i k ha
        refine .inr ⟨j, hr', hp, .inr ⟨k, ha, ?_⟩⟩
        cases hb : s.busOK (jobDstWord j k) .write
        · exact .inl ⟨rfl, by simp [engineWrite, hb]⟩
        · exact .inr ⟨rfl, by simp [engineWrite, hb]⟩

theorem advance_wf (j : Job) (s : State) (hm : s.mem.wf = true) : (advance j s).mem.wf = true := by
  rcases advance_cases j s with ⟨_, h⟩ | ⟨_, h⟩ <;> rw [h]
  · exact hm
  · exact State.spoilRaced_wf _ _ _ hm

/-- An engine step keeps the canonical form of memory. -/
theorem engineStep_wf (s : State) (hm : s.mem.wf = true) : (engineStep s).mem.wf = true := by
  rcases engineStep_cases s with h | ⟨j, _, _, ⟨i, _, ⟨_, h⟩ | ⟨_, h⟩⟩ | ⟨k, _, ⟨_, h⟩ | ⟨_, h⟩⟩⟩ <;> rw [h]
  · exact hm
  · exact State.freeRange_wf s _ hm
  · refine advance_wf _ _ ?_
    rw [State.engineLoad_frame]
    exact hm
  · exact State.freeRange_wf s _ hm
  · exact advance_wf _ _ (State.engineStore_wf s _ _ hm)

/-! ### The access sequences -/

/-- The writes that follow `Rd(i)` are exactly the words that value `i` completes (41_pack.md R92). -/
theorem mem_packWrites {ow w i k : Nat} (h : 0 < ow) :
    .wr k ∈ packWrites ow w i ↔ i * w < (k + 1) * ow ∧ (k + 1) * ow ≤ (i + 1) * w := by
  have h1 : i * w / ow ≤ k ↔ i * w < (k + 1) * ow := by
    rw [← Nat.lt_succ_iff, Nat.div_lt_iff_lt_mul h]
  have h2 : k + 1 ≤ (i + 1) * w / ow ↔ (k + 1) * ow ≤ (i + 1) * w := Nat.le_div_iff_mul_le h
  simp only [packWrites, List.mem_map, List.mem_range'_1, Access.wr.injEq, exists_eq_right]
  omega

end Sys2Proof.Machine
end

