-- ==== Sys2Proof/Laws/PerInstr.lean ====
section
/-! SUPPORT. Statements for every instruction, one lemma per constructor. The family: a well-formed host operation is an aligned 64-bit access
inside the register window (40_host_registers.md R70), and a command word has its reserved bits clear (30_encoding.md R59). -/

namespace Sys2Proof.Laws.WellFormedTransfer

/-- The transfer of a well-formed instruction is one the block gives a meaning. -/
def Statement (i : Instr) : Prop :=
  i.wf = true →
    match encode i with
    | .cmd64 c => cmdRsv0 c = 0 ∧ cmdRsv1 c = 0
    | .hostOp _ off size _ => size = 8 ∧ off % 8 = 0 ∧ off < Config.regWindow

theorem pack (x y : Width) (w : BitVec 7) : Statement (.pack x y w) := fun _ => ⟨cmdRsv0_encodeCommand _ _ _ _, cmdRsv1_encodeCommand _ _ _ _⟩
theorem unpack (x y : Width) (w : BitVec 7) : Statement (.unpack x y w) := fun _ => ⟨cmdRsv0_encodeCommand _ _ _ _, cmdRsv1_encodeCommand _ _ _ _⟩
theorem regRead (off : BitVec 8) : Statement (.regRead off) := by
  have := off.isLt
  simp [Statement, encode, Instr.wf, alignedOffset, Config.regWindow]
  omega
theorem regWriteCtrl (v : Word) : Statement (.regWriteCtrl v) := fun _ => ⟨rfl, rfl, of_decide_eq_true rfl⟩
theorem regWriteStatus (v : Word) : Statement (.regWriteStatus v) := fun _ => ⟨rfl, rfl, of_decide_eq_true rfl⟩
theorem regWriteCmd (v : Word) : Statement (.regWriteCmd v) := fun _ => ⟨rfl, rfl, of_decide_eq_true rfl⟩
theorem regWriteSrcBase (v : Word) : Statement (.regWriteSrcBase v) := fun _ => ⟨rfl, rfl, of_decide_eq_true rfl⟩
theorem regWriteSrcLen (v : Word) : Statement (.regWriteSrcLen v) := fun _ => ⟨rfl, rfl, of_decide_eq_true rfl⟩
theorem regWriteDstBase (v : Word) : Statement (.regWriteDstBase v) := fun _ => ⟨rfl, rfl, of_decide_eq_true rfl⟩
theorem regWriteDstCap (v : Word) : Statement (.regWriteDstCap v) := fun _ => ⟨rfl, rfl, of_decide_eq_true rfl⟩
theorem regWriteCount (v : Word) : Statement (.regWriteCount v) := fun _ => ⟨rfl, rfl, of_decide_eq_true rfl⟩
theorem regWriteWords (v : Word) : Statement (.regWriteWords v) := fun _ => ⟨rfl, rfl, of_decide_eq_true rfl⟩
theorem regWriteReserved (off : BitVec 8) (v : Word) : Statement (.regWriteReserved off v) := by
  have := off.isLt
  simp [Statement, encode, Instr.wf, alignedOffset, Config.regWindow]
  omega

end Sys2Proof.Laws.WellFormedTransfer
end

