-- ==== Sys2Proof/Tests/Slice0.lean ====
section
/-! SUPPORT. The model's own tests: decoding of words written out from 30_encoding.md, the well-formedness smoke, one-step tests with
results from 95_test_vectors.md, and for each statement a state and operands that meet its hypotheses. -/

namespace Sys2Proof.Tests

open Sys2Proof.Machine

/-! ### Helpers -/

/-- Whether an outcome is a next state that meets `p`. -/
def nextIs (o : Host.Outcome State Fault Refusal) (p : State → Bool) : Bool :=
  match o with
  | .next t => p t
  | .fault _ => false
  | .refused _ => false

/-- Whether an outcome is the refusal `r`. -/
def refusedIs (o : Host.Outcome State Fault Refusal) (r : Refusal) : Bool :=
  match o with
  | .next _ => false
  | .fault _ => false
  | .refused r' => decide (r' = r)

/-- Setup B of 95_test_vectors.md V31, with smaller addresses: value bytes 5 3 7 1 at 0x10, a destination of 2 bytes at 0x20. -/
def ready : State :=
  { State.reset with
    mem := [(0x10, 5), (0x11, 3), (0x12, 7), (0x13, 1)]
    codec := { State.reset.codec with srcBase := 0x10, srcLen := 4, dstBase := 0x20, dstCap := 2, count := 4 } }

/-- Setup B with other operand registers. -/
def readyWith (sb sl db dc n : Word) : State :=
  { ready with codec := { ready.codec with srcBase := sb, srcLen := sl, dstBase := db, dstCap := dc, count := n } }

/-- The running command of setup B, after `pos` accesses. -/
def jobB (pos : Nat) (rdata : List (Nat × Nat)) : Job :=
  { op := .pack, inw := .w8, outw := .w8, w := 3, cnt := 4, sb := 0x10, db := 0x20, pos := pos, rdata := rdata }

/-- The mirror command: UNPACK of two packed bytes at 0x10 into four values at 0x20. -/
def jobU (pos : Nat) (rdata : List (Nat × Nat)) : Job := { jobB pos rdata with op := .unpack }

/-- The machine with a command in RUN. -/
def running (j : Job) : State :=
  { ready with codec := { ready.codec with cmd := 0x301, phase := .run j, claims := [jobClaim j] } }

/-- The machine with an input pending. -/
def withInput (i : Input) (s : State) : State := { s with inputs := [i] }

/-- The state after the job's last access, its DONE = 1 not yet read. -/
def ended : State :=
  { ready with codec := { ready.codec with cmd := 0x301, done := true, words := 2, claims := [jobClaim (jobB 6 [])] } }

/-- An idle instance that claims a destination of 4-byte words. -/
def other (dst : Extent) : Codec := { Codec.resetState 0x1000 false [⟨⟨0, 0⟩, dst, 4⟩] with done := true }

def withOther (s : State) (dst : Extent) : State := { s with after := [other dst] }

/-- The machine with its reset input asserted. -/
def inReset : State := { State.reset with codec := Codec.resetState 0 true [] }

/-- A platform that refuses the write of 0x21 and the read of 0x10 (95_test_vectors.md V33, with smaller addresses). -/
def refusing (s : State) : State :=
  { s with platform := { s.platform with busRefuses := [⟨0x21, 1, .write⟩, ⟨0x10, 1, .read⟩] } }

/-- A platform with a device region over setup B's destination. -/
def overDevice (s : State) : State := { s with platform := { s.platform with deviceRegions := [⟨0x21, 1⟩] } }

/-! ### Decoding is right: words from 95_test_vectors.md V5 and V6, offsets from 10_state.md R16 -/

theorem test_decode_pack : decode (.cmd64 0b000000000000000000000000000000000000000000000000000001100000001)
    = .ok (.pack .w8 .w8 3) := by decide
theorem test_decode_pack_wide : decode (.cmd64 0x0000000000003F1D) = .ok (.pack .w64 .w16 63) := by decide
theorem test_decode_unpack : decode (.cmd64 0x0000000000000C26) = .ok (.unpack .w16 .w32 12) := by decide
theorem test_decode_unpack_full : decode (.cmd64 0x000000000000403E) = .ok (.unpack .w64 .w64 64) := by decide
theorem test_decode_reserved_op : decode (.cmd64 0x0000000000004003) = .error .reservedOp := by decide
theorem test_decode_reserved_bits : decode (.cmd64 0x8000000000000301) = .error .reservedBits := by decide
theorem test_decode_read : decode (.hostOp .read 0x80 8 0) = .ok (.regRead 0x80) := by decide
theorem test_decode_ctrl : decode (.hostOp .write 0x00 8 1) = .ok (.regWriteCtrl 1) := by decide
theorem test_decode_status : decode (.hostOp .write 0x08 8 2) = .ok (.regWriteStatus 2) := by decide
theorem test_decode_cmd : decode (.hostOp .write 0x10 8 0x301) = .ok (.regWriteCmd 0x301) := by decide
theorem test_decode_src_base : decode (.hostOp .write 0x18 8 0x1000) = .ok (.regWriteSrcBase 0x1000) := by decide
theorem test_decode_src_len : decode (.hostOp .write 0x20 8 4) = .ok (.regWriteSrcLen 4) := by decide
theorem test_decode_dst_base : decode (.hostOp .write 0x28 8 0x2000) = .ok (.regWriteDstBase 0x2000) := by decide
theorem test_decode_dst_cap : decode (.hostOp .write 0x30 8 2) = .ok (.regWriteDstCap 2) := by decide
theorem test_decode_count : decode (.hostOp .write 0x38 8 9) = .ok (.regWriteCount 9) := by decide
theorem test_decode_words : decode (.hostOp .write 0x40 8 0x55) = .ok (.regWriteWords 0x55) := by decide
theorem test_decode_reserved_offset : decode (.hostOp .write 0xF8 8 7) = .ok (.regWriteReserved 0xF8 7) := by decide
theorem test_decode_narrow : decode (.hostOp .read 0x08 4 0) = .error (.access .size) := by decide
theorem test_decode_misaligned : decode (.hostOp .read 0x0C 8 0) = .error (.access .misaligned) := by decide
theorem test_decode_outside : decode (.hostOp .write 0x100 8 0) = .error (.access .outsideWindow) := by decide
theorem test_table_word_pack : decodeTableWord 64 0x301 = some (.pack .w8 .w8 3) := by decide
theorem test_table_word_status : decodeTableWord 8 0x08 = some (.regWriteStatus 0) := by decide
theorem test_decode_command_width : decodeCommand 0x0000000000004101 = .error .width := by decide
theorem test_decode_command_order : decodeCommand 0x0000000000008000 = .error .reserved := by decide
theorem test_assemble : assemble .pack 64 8 33 = some 0x210D ∧ assemble .pack 8 8 128 = none ∧ assemble .pack 12 8 3 = none := by
  decide
theorem test_pseudo_setup : (expandPseudo (.setup 0x1000 4 0x2000 2 4)).filterMap lineInstr
    = [.regWriteSrcBase 0x1000, .regWriteSrcLen 4, .regWriteDstBase 0x2000, .regWriteDstCap 2, .regWriteCount 4] := by decide

/-! ### Well-formedness smoke: one ill-formed term for each check -/

theorem test_wf_zero_width : (Instr.pack .w8 .w8 0).wf = false := by decide
theorem test_wf_wide : (Instr.unpack .w8 .w64 9).wf = false := by decide
theorem test_wf_full_width : (Instr.pack .w64 .w8 64).wf = true := by decide
theorem test_wf_misaligned_read : (Instr.regRead 0x09).wf = false := by decide
theorem test_wf_misaligned_reserved : (Instr.regWriteReserved 0x4C 0).wf = false := by decide
theorem test_wf_not_reserved : (Instr.regWriteReserved 0x40 0).wf = false := by decide

/-! ### The transforms: 95_test_vectors.md V1, V9, V14, V19, V22, V24, V26, V10 -/

theorem test_pack_V1 : packWords 8 3 [5, 3, 7, 1] = [0xDD, 0x03] := by decide
theorem test_pack_V9 : packWords 8 33 [0x0000000123456789, 0x00000001FFFFFFFF, 0x0000000080000001]
    = [0x89, 0x67, 0x45, 0x23, 0xFF, 0xFF, 0xFF, 0xFF, 0x07, 0x00, 0x00, 0x00, 0x02] := by decide
theorem test_pack_V14 : packWords 64 12 [0xFABC, 0x0123, 0x0FFF, 0x8001, 0x0456, 0x0789]
    = [0x9456001FFF123ABC, 0x0000000000000078] := by decide
theorem test_unpack_V21 : unpackValues 8 3 4 [0xDD, 0xF3] = [5, 3, 7, 1] := by decide
theorem test_unpack_V23 : unpackValues 8 33 3 [0x89, 0x67, 0x45, 0x23, 0xFF, 0xFF, 0xFF, 0xFF, 0x07, 0x00, 0x00, 0x00, 0x02]
    = [0x0000000123456789, 0x00000001FFFFFFFF, 0x0000000080000001] := by decide
theorem test_packSeq_V19 : packSeq 4 8 3 = [.rd 0, .rd 1, .rd 2, .wr 0, .rd 3, .wr 1] := by decide
theorem test_unpackSeq_V26 : unpackSeq 7 32 5
    = [.rd 0, .wr 0, .wr 1, .wr 2, .wr 3, .wr 4, .wr 5, .rd 1, .wr 6] := by decide
theorem test_sequential_V9 : packSequential 8 33 [0x0000000123456789, 0x00000001FFFFFFFF, 0x0000000080000001]
    = packWords 8 33 [0x0000000123456789, 0x00000001FFFFFFFF, 0x0000000080000001] := by decide
theorem test_byte_order_V10 : bytesOfNumber .le 8 0x0123456789ABCDEF = [0xEF, 0xCD, 0xAB, 0x89, 0x67, 0x45, 0x23, 0x01]
    ∧ bytesOfNumber .be 8 0x0123456789ABCDEF = [0x01, 0x23, 0x45, 0x67, 0x89, 0xAB, 0xCD, 0xEF] := by decide

/-! ### One step: the host registers (95_test_vectors.md V7, V35) -/

theorem test_read_status_after_reset : nextIs (exec (.regRead 0x08) State.reset) (fun t => t.readData == 0) := by decide
theorem test_read_status_busy_drop : nextIs
    (exec (.regRead 0x08) { running (jobB 0 []) with codec := { (running (jobB 0 [])).codec with drop := true } })
    (fun t => t.readData == 0x5) := by decide
theorem test_write_ctrl_all_ones : nextIs (exec (.regWriteCtrl 0xFFFFFFFFFFFFFFFF) ready)
    (fun t => readReg t.codec 0 == 1 && t.codec.ie) := by decide
theorem test_write_status_read_only_bits : nextIs
    (exec (.regWriteStatus 0xF01) { ready with codec := { ready.codec with done := true } })
    (fun t => statusWord t.codec == 0x2) := by decide
theorem test_write_status_acknowledges : nextIs
    (exec (.regWriteStatus 0x2) { ready with codec := { ready.codec with done := true, err := .capacity, words := 2 } })
    (fun t => statusWord t.codec == 0 && t.codec.words == 2) := by decide
theorem test_write_count_dropped : nextIs (exec (.regWriteCount 9) (running (jobB 0 [])))
    (fun t => t.codec.count == 4 && statusWord t.codec == 0x5) := by decide
theorem test_write_src_base : nextIs (exec (.regWriteSrcBase 0xFFFFFFFFFFFFFFFF) ready)
    (fun t => t.codec.srcBase == 0xFFFFFFFFFFFFFFFF && t.codec.dstBase == 0x20) := by decide
theorem test_write_src_len : nextIs (exec (.regWriteSrcLen 0) ready) (fun t => t.codec.srcLen == 0 && t.codec.dstCap == 2) := by
  decide
theorem test_write_dst_base : nextIs (exec (.regWriteDstBase 7) ready) (fun t => t.codec.dstBase == 7 && t.codec.srcBase == 0x10) := by
  decide
theorem test_write_dst_cap : nextIs (exec (.regWriteDstCap 7) ready) (fun t => t.codec.dstCap == 7 && t.codec.srcLen == 4) := by
  decide
theorem test_write_words : nextIs (exec (.regWriteWords 0x55) (running (jobB 0 [])))
    (fun t => t.codec.words == 0 && !t.codec.drop) := by decide
theorem test_write_reserved : nextIs (exec (.regWriteReserved 0x48 0x55) (running (jobB 0 []))) (fun t => !t.codec.drop) := by
  decide
theorem test_irq_V34 : nextIs (exec (.regWriteCmd 0x001) { ready with codec := { ready.codec with ie := true } })
    (fun t => statusWord t.codec == 0x302 && t.codec.irq) := by decide

/-! ### One step: taking a command (95_test_vectors.md V7, V18, V30, V31, V32) -/

theorem test_pack_starts : nextIs (exec (.pack .w8 .w8 3) ready)
    (fun t => statusWord t.codec == 1 && t.codec.cmd == 0x301 && t.codec.phase == .run (jobB 0 [])) := by decide
theorem test_cmd_write_dropped : nextIs (exec (.regWriteCmd 0x302) (running (jobB 0 [])))
    (fun t => t.codec.cmd == 0x301 && statusWord t.codec == 0x5) := by decide
theorem test_cmd_reset_value_fails : nextIs (exec (.regWriteCmd 0) State.reset) (fun t => statusWord t.codec == 0x202) := by decide
theorem test_unpack_source_too_short : nextIs (exec (.unpack .w8 .w8 3) (readyWith 0x10 1 0x20 4 4))
    (fun t => statusWord t.codec == 0x402) := by decide
theorem test_range_is_exact_V30 : nextIs
    (exec (.pack .w8 .w8 8) (readyWith 0x8000000000000008 0xFFFFFFFFFFFFFFFF 0 0xFFFFFFFFFFFFFFFF 0x8000000000000000))
    (fun t => statusWord t.codec == 0x702) := by decide
theorem test_capacity_is_exact_V30 : nextIs
    (exec (.pack .w64 .w8 64) (readyWith 0 0xFFFFFFFFFFFFFFFF 0x8000000000000000 0xFFFFFFFFFFFFFFFF 0x2000000000000000))
    (fun t => statusWord t.codec == 0x502) := by decide
theorem test_empty_command_V18 : nextIs (exec (.pack .w8 .w8 3) (readyWith 0x1000 0 0x1000 0 0))
    (fun t => statusWord t.codec == 0x2 && t.codec.words == 0) := by decide
theorem test_empty_command_alignment_V18 : nextIs (exec (.pack .w16 .w8 3) (readyWith 0x1001 0 0x1000 0 0))
    (fun t => statusWord t.codec == 0x602) := by decide

/-! ### One engine step (95_test_vectors.md V1, V2, V33, V36) -/

theorem test_engine_read : (engineStep (running (jobB 0 []))).codec.phase = .run (jobB 1 [(0, 5)]) := by decide
theorem test_engine_write : Memory.read (engineStep (running (jobB 3 [(0, 5), (1, 3), (2, 7)]))).mem 0x20 = 0xDD := by decide
theorem test_engine_last_write : (engineStep (running (jobB 5 [(0, 5), (1, 3), (2, 7), (3, 1)]))).mem
    = [(0x10, 5), (0x11, 3), (0x12, 7), (0x13, 1), (0x21, 3)]
    ∧ statusWord (engineStep (running (jobB 5 [(0, 5), (1, 3), (2, 7), (3, 1)]))).codec = 2
    ∧ (engineStep (running (jobB 5 [(0, 5), (1, 3), (2, 7), (3, 1)]))).codec.words = 2 := by decide
theorem test_engine_unpack_write : Memory.read (engineStep (running (jobU 4 [(0, 0xDD), (1, 0x03)]))).mem 0x22 = 7 := by decide
theorem test_engine_bus_error : statusWord (engineStep (refusing (running (jobB 0 [])))).codec = 0x902 := by decide
theorem test_reset_during_run : nextIs (step (withInput (.reset 0 true) (running (jobB 4 [(0, 5), (1, 3), (2, 7)]))))
    (fun t => statusWord t.codec == 0 && t.codec.count == 0 && t.codec.phase == .idle) := by decide

/-! ### The fetch -/

theorem test_fetch_pack : nextIs (step (State.reset.withFetchWord 64 0x301)) (fun t => statusWord t.codec == 2) := by decide
theorem test_fetch_host_write : nextIs (step (State.reset.withFetchWord 8 0x10)) (fun t => statusWord t.codec == 0x202) := by decide
theorem test_fetch_host_read : nextIs (step (State.reset.withFetchWord 16 0x108)) (fun t => t.readData == 0) := by decide

/-! ### The hypotheses of the statements can be met -/

theorem witness_InstructionsDecodeFromTheirEncoding : (Instr.pack .w64 .w8 33).wf = true ∧ (Instr.regWriteReserved 0x48 1).wf = true := by
  decide
theorem witness_EveryCommandWordHasOneOutcome : decodeCommand 0x301 = .ok ⟨.pack, .w8, .w8, 3⟩ ∧ decodeCommand 0 = .error .opcode := by
  decide
theorem witness_ResetAbandonsTheRunningCommand :
    State.select { withInput (.reset 0 true) (running (jobB 4 [(0, 5), (1, 3), (2, 7)])) with inputs := [] } 0
        = some (running (jobB 4 [(0, 5), (1, 3), (2, 7)]))
      ∧ (running (jobB 4 [(0, 5), (1, 3), (2, 7)])).codec.phase = .run (jobB 4 [(0, 5), (1, 3), (2, 7)])
      ∧ 1 < (jobDst (jobB 4 [(0, 5), (1, 3), (2, 7)])).len ∧ extentMisses (jobDst (jobB 4 [(0, 5), (1, 3), (2, 7)])) 0x22
      ∧ State.select { withInput (.reset 0 true) ready with inputs := [] } 0 = some ready ∧ ready.codec.phase = .idle := by decide
theorem witness_ResetHoldsOffEveryWrite : inReset.codec.inReset = true ∧ (Instr.regWriteReserved 0x48 0).wf = true := by decide
theorem witness_ResetMeetsTheInvariant : Platform.standard.Legal := by decide

theorem running_inv : (running (jobB 3 [(0, 5), (1, 3), (2, 7)])).Inv where
  platform := by decide
  mem_wf := by decide
  mem_inside := by decide
  codecs := by
    intro c hc
    have hc' : c = (running (jobB 3 [(0, 5), (1, 3), (2, 7)])).codec := by simpa [State.codecs, running, ready, State.reset, State.resetOn] using hc
    subst hc'
    refine ⟨by decide, by decide, by decide, by decide, ?_, ?_, by decide⟩
    · intro j hj
      cases hj
      exact ⟨⟨by decide, by decide, by decide, by decide, by decide, by decide, by decide, by decide, by decide, by decide⟩,
        ⟨by decide, by decide, by decide, by decide, by decide, by decide⟩, by decide⟩
    · intro cl hcl
      rw [List.mem_singleton.1 hcl]
      exact ⟨by decide, by decide, by decide⟩

theorem witness_EveryStepKeepsTheInvariant : (running (jobB 3 [(0, 5), (1, 3), (2, 7)])).Inv
    ∧ nextIs (step (running (jobB 3 [(0, 5), (1, 3), (2, 7)]))) (fun t => t.codec.busy) := ⟨running_inv, by decide⟩
theorem witness_EveryStepKeepsThePlatform : nextIs (step (withInput (.engine 0) (running (jobB 0 [])))) (fun t => t.codec.busy) := by
  decide
theorem witness_StepRunsTheDecodedInstruction :
    State.select { withInput (.command 0 0x301) ready with inputs := [] } 0 = some ready
      ∧ decode (.cmd64 0x301) = .ok (.pack .w8 .w8 3) ∧ decode (.cmd64 0x300) = .error .reservedOp
      ∧ (withInput (.access .write 0x38 8 9) ready).route 0x38 = some 0
      ∧ State.select { withInput (.access .write 0x38 8 9) ready with inputs := [] } 0 = some ready
      ∧ decode (.hostOp .write (0x38 - ready.codec.regBase) 8 9) = .ok (.regWriteCount 9)
      ∧ decodeTableWord 64 0x301 = some (.pack .w8 .w8 3) := by decide
theorem witness_StepMovesTheAgentOfItsInput :
    State.select { withInput (.engine 0) (running (jobB 0 [])) with inputs := [] } 0 = some (running (jobB 0 []))
      ∧ ready.codecs.length ≤ 1 := by decide
theorem witness_StepWithNoInputRunsTheEngine :
    (running (jobB 0 [])).inputs = [] ∧ (running (jobB 0 [])).codec.busy = true ∧ (∀ c ∈ ready.codecs, c.busy = false)
      ∧ ({ ready with after := [(running (jobB 0 [])).codec] } : State).codecs.findIdx? Codec.busy = some 1 := by decide
theorem witness_OtherRegisterAccessesAreRefused :
    (withInput (.access .read 0x100 8 0) ready).route 0x100 = none
      ∧ refusedIs (step (withInput (.access .read 0x100 8 0) ready)) .accessOutsideWindow
      ∧ (withInput (.access .read 0x0C 8 0) ready).route 0x0C = some 0
      ∧ refusedIs (step (withInput (.access .read 0x0C 8 0) ready)) .accessMisaligned
      ∧ refusedIs (step (withInput (.access .read 0x08 4 0) ready)) .accessSize := by decide
theorem witness_RegReadAnswersTheRegister : (0xF8 : BitVec 8).toNat % 8 = 0 ∧ 0x48 ≤ (0x48 : BitVec 8).toNat
    ∧ ready.codec.done = false := by decide
theorem witness_RegisterReadsHaveNoSideEffect : (0x40 : BitVec 8).toNat % 8 = 0
    ∧ nextIs (exec (.regRead 0x08) ready) (fun _ => true) := by decide
/-- For RegWriteCtrlSetsTheInterruptEnable, RegWriteStatusClearsByOnes, OperandWritesStoreWhileIdle and InterruptFollowsDone. -/
theorem witness_idle : ready.codec.inReset = false ∧ ready.codec.busy = false := by decide
/-- For OperandWritesDropWhileBusy and CommandsDropWhileBusy. -/
theorem witness_busy : (running (jobB 0 [])).codec.inReset = false ∧ (running (jobB 0 [])).codec.busy = true := by decide
theorem witness_ReadOnlyAndReservedWritesDoNothing : (0x48 : BitVec 8).toNat % 8 = 0 ∧ 0x48 ≤ (0x48 : BitVec 8).toNat := by decide
theorem witness_IllFormedAccessesAreRefused : (0x09 : BitVec 8).toNat % 8 ≠ 0 ∧ (0x40 : BitVec 8).toNat % 8 = 0
    ∧ (0x40 : BitVec 8).toNat < 0x48 := by decide
theorem witness_ReservedWordsFail : (0x341 : Word) &&& 0xFFFFFFFFFFFF80C0 ≠ 0
    ∧ nextIs (exec (.regWriteCmd 0x341) ready) (fun t => statusWord t.codec == 0x102)
    ∧ (0x303 : Word) &&& 0xFFFFFFFFFFFF80C0 = 0 ∧ (0x303 : Word) &&& 3 = 3
    ∧ nextIs (exec (.regWriteCmd 0x303) ready) (fun t => statusWord t.codec == 0x202) := by decide

/-- One state at the edge of each clause, with the STATUS of 95_test_vectors.md V31. -/
theorem witness_CommandsFailAtTheirFirstFailingCheck :
    nextIs (exec (.pack .w8 .w8 9) ready) (fun t => statusWord t.codec == 0x302)
      ∧ nextIs (exec (.pack .w8 .w8 3) (readyWith 0x10 3 0x20 2 4)) (fun t => statusWord t.codec == 0x402)
      ∧ nextIs (exec (.pack .w8 .w8 3) (readyWith 0x10 4 0x20 1 4)) (fun t => statusWord t.codec == 0x502)
      ∧ nextIs (exec (.unpack .w8 .w8 3) (readyWith 0x10 2 0x20 3 4)) (fun t => statusWord t.codec == 0x502)
      ∧ nextIs (exec (.pack .w8 .w32 3) (readyWith 0x10 4 0x22 2 4)) (fun t => statusWord t.codec == 0x602)
      ∧ nextIs (exec (.pack .w8 .w8 3) (readyWith 0x10 4 0xFFFFFFFFFFFFFFFF 2 4)) (fun t => statusWord t.codec == 0x702)
      ∧ nextIs (exec (.pack .w8 .w8 3) (readyWith 0x10 4 0x13 2 4)) (fun t => statusWord t.codec == 0x802)
      ∧ nextIs (exec (.pack .w8 .w8 3) (readyWith 0x10 4 0x0F 2 4)) (fun t => statusWord t.codec == 0x802)
      ∧ (Width.w8, 4, Width.w8, 2) = acceptOperands .pack .w8 .w8 4 ((4 * 3 + 8 - 1) / 8) := by decide
theorem witness_PassingCommandsStart :
    (Width.w8, 4, Width.w8, 2) = acceptOperands .pack .w8 .w8 ready.codec.count.toNat ((ready.codec.count.toNat * 3 + 8 - 1) / 8)
      ∧ ready.codec.count ≠ 0 ∧ PassesChecks ready.platform.addrW ready.codec .w8 4 .w8 2
      ∧ PassesChecks 64 (readyWith 0x10 4 0x14 2 4).codec .w8 4 .w8 2
      ∧ ready.outsideModel ⟨0x10, 4⟩ = false ∧ ready.outsideModel ⟨0x20, 2⟩ = false := by decide
theorem witness_CommandsOfNoValuesCompleteAtOnce :
    (readyWith 0x1001 0 0x1000 0 0).codec.count = 0 ∧ (Width.w16, 0, Width.w8, 0) = acceptOperands .pack .w16 .w8 0 0
      ∧ (readyWith 0x1001 0 0x1000 0 0).codec.srcBase.toNat % 2 ≠ 0 ∧ (readyWith 0x1000 0 0x1000 0 0).codec.srcBase.toNat % 2 = 0 := by
  decide
theorem witness_BuffersOutsideTheModelAreRefused :
    PassesChecks (overDevice ready).platform.addrW (overDevice ready).codec .w8 4 .w8 2
      ∧ (overDevice ready).outsideModel ⟨0x20, 2⟩ = true
      ∧ refusedIs (exec (.pack .w8 .w8 3) (overDevice ready)) .bufferOutsideModel := by decide
theorem witness_AcceptanceErrorsChangeNoMemory : nextIs (exec (.regWriteCmd 0x300) ready) (fun t => t.codec.err == .opcode)
    ∧ (running (jobB 0 [])).codec.phase = .run (jobB 0 []) := by decide
theorem witness_InstructionsKeepEverythingElse : nextIs (exec (.regWriteCount 9) ready) (fun t => t.codec.count == 9)
    ∧ nextIs (exec (.unpack .w8 .w8 3) (running (jobB 0 []))) (fun t => t.codec.drop) := by decide
theorem witness_EngineReadStep : (jobSeq (jobB 0 []))[0]? = some (.rd 0)
    ∧ (running (jobB 0 [])).busOK (jobSrcWord (jobB 0 []) 0) .read = true ∧ (running (jobB 0 [])).codec.raced = []
    ∧ (running (jobB 0 [])).alone (jobSrcWord (jobB 0 []) 0) = true ∧ (jobB 0 []).pos + 1 ≠ jobLength (jobB 0 []) := by decide
theorem witness_EngineWriteStep :
    (jobSeq (jobB 3 [(0, 5), (1, 3), (2, 7)]))[3]? = some (.wr 0) ∧ 3 + 1 ≠ jobLength (jobB 3 [(0, 5), (1, 3), (2, 7)])
      ∧ (jobSeq (jobB 5 [(0, 5), (1, 3), (2, 7), (3, 1)]))[5]? = some (.wr 1) ∧ 5 + 1 = jobLength (jobB 5 [])
      ∧ (running (jobB 5 [])).busOK (jobDstWord (jobB 5 []) 1) .write = true
      ∧ (running (jobB 5 [])).alone (jobDstWord (jobB 5 []) 1) = true
      ∧ (jobSeq (jobU 1 [(0, 0xDD)]))[1]? = some (.wr 0) := by decide
theorem witness_BusErrorEndsTheCommand : (jobSeq (jobB 0 []))[0]? = some (.rd 0)
    ∧ (refusing (running (jobB 0 []))).busOK (jobSrcWord (jobB 0 []) 0) .read = false
    ∧ (jobSeq (jobB 5 []))[5]? = some (.wr 1) ∧ (refusing (running (jobB 5 []))).busOK (jobDstWord (jobB 5 []) 1) .write = false
    ∧ extentsMeet (jobSrc (jobB 0 [])) (jobDst (jobB 0 [])) = false := by decide

theorem last_inv : (running (jobB 5 [(0, 5), (1, 3), (2, 7), (3, 1)])).Inv where
  platform := by decide
  mem_wf := by decide
  mem_inside := by decide
  codecs := by
    intro c hc
    have hc' : c = (running (jobB 5 [(0, 5), (1, 3), (2, 7), (3, 1)])).codec := by
      simpa [State.codecs, running, ready, State.reset, State.resetOn] using hc
    subst hc'
    refine ⟨by decide, by decide, by decide, by decide, ?_, ?_, by decide⟩
    · intro j hj
      cases hj
      exact ⟨⟨by decide, by decide, by decide, by decide, by decide, by decide, by decide, by decide, by decide, by decide⟩,
        ⟨by decide, by decide, by decide, by decide, by decide, by decide⟩, by decide⟩
    · intro cl hcl
      rw [List.mem_singleton.1 hcl]
      exact ⟨by decide, by decide, by decide⟩

theorem witness_LastAccessCompletesTheCommand : (running (jobB 5 [(0, 5), (1, 3), (2, 7), (3, 1)])).Inv
    ∧ (jobB 5 []).pos + 1 = jobLength (jobB 5 []) ∧ (jobSeq (jobB 5 []))[5]? = some (.wr 1)
    ∧ (running (jobB 5 [])).busOK (jobDstWord (jobB 5 []) 1) .write = true := ⟨last_inv, by decide⟩
theorem witness_EngineStepsWriteOnlyTheDestination : (running (jobB 3 [])).alone (jobDst (jobB 3 [])) = true
    ∧ extentMisses (jobDst (jobB 3 [])) 0x22 ∧ extentMisses (jobDst (jobB 3 [])) 0x1F := by decide
/-- For PackSequenceOrder: word 4 of V9's command holds bits of values 0 and 1. -/
theorem witness_PackSequenceOrder : (packSeq 3 8 33)[6]? = some (.wr 4) ∧ 1 * 33 < (4 + 1) * 8 ∧ 4 * 8 < (1 + 1) * 33
    ∧ (packSeq 3 8 33)[5]? = some (.rd 1) := by decide
theorem witness_UnpackSequenceOrder : (unpackSeq 3 8 33)[5]? = some (.wr 0) ∧ 4 ≤ (0 * 33 + 33 - 1) / 8 := by decide
theorem witness_CommandsMakeExactlyTheirAccesses : (running (jobB 0 [])).codec.inReset = false ∧ 1 ≤ (jobB 0 []).w
    ∧ (jobB 0 []).pos = 0 ∧ 1 ≤ (jobB 0 []).cnt ∧ (running (jobB 0 [])).platform.busRefuses = [] := by decide
/-- The same hypotheses on a platform that refuses an access: the run ends sooner, with ERR_BUS. -/
theorem witness_CommandsMakeExactlyTheirAccesses_bus : (refusing (running (jobB 0 []))).codec.phase = .run (jobB 0 [])
    ∧ (engineRun 1 (refusing (running (jobB 0 [])))).codec.err = .bus := by decide
theorem witness_PackWritesTheBitstream : 2 = (4 * 3 + 8 - 1) / 8 ∧ PassesChecks ready.platform.addrW ready.codec .w8 4 .w8 2
    ∧ ready.outsideModel ⟨0x10, 4 * 1⟩ = false ∧ ready.outsideModel ⟨0x20, 2 * 1⟩ = false
    ∧ (∀ i, i < 4 → ready.busOK ⟨0x10 + i * 1, 1⟩ .read = true) ∧ (∀ k, k < 2 → ready.busOK ⟨0x20 + k * 1, 1⟩ .write = true)
    ∧ ready.alone ⟨0x10, 4 * 1⟩ = true ∧ ready.alone ⟨0x20, 2 * 1⟩ = true := by decide
theorem witness_UnpackWritesTheValues :
    PassesChecks (readyWith 0x10 2 0x20 4 4).platform.addrW (readyWith 0x10 2 0x20 4 4).codec .w8 2 .w8 4
      ∧ (readyWith 0x10 2 0x20 4 4).outsideModel ⟨0x10, 2 * 1⟩ = false ∧ (readyWith 0x10 2 0x20 4 4).outsideModel ⟨0x20, 4 * 1⟩ = false
      ∧ (∀ k, k < 2 → (readyWith 0x10 2 0x20 4 4).busOK ⟨0x10 + k * 1, 1⟩ .read = true)
      ∧ (∀ i, i < 4 → (readyWith 0x10 2 0x20 4 4).busOK ⟨0x20 + i * 1, 1⟩ .write = true)
      ∧ (readyWith 0x10 2 0x20 4 4).alone ⟨0x10, 2 * 1⟩ = true ∧ (readyWith 0x10 2 0x20 4 4).alone ⟨0x20, 4 * 1⟩ = true := by decide
/-- For PackedBitPositions, UnpackInvertsPack, PackLaws and SequentialPackWritesTheSameWords. -/
theorem witness_values : 1 ≤ 3 ∧ 3 ≤ Width.w8.bits ∧ (∀ x ∈ [5, 3, 7, 1], x < 2 ^ 3) ∧ [5, 3, 7, 1, 0, 0, 0, 0].length * 3 % 8 = 0 := by
  decide
theorem witness_SequentialUnpackWritesTheSameValues : [0xDD, 0x03].length = packedLength 4 3 .w8 ∧ ∀ p ∈ [0xDD, 0x03], p < 2 ^ Width.w8.bits := by
  decide
theorem witness_UnpackIgnoresPadding : (∀ q ∈ [0xDD, 0xF3], q < 2 ^ Width.w8.bits)
    ∧ ∀ b, b < 4 * 3 → ([0xDD, 0x03].getD (b / 8) 0).testBit (b % 8) = ([0xDD, 0xF3].getD (b / 8) 0).testBit (b % 8) := by decide
theorem witness_WordsInMemoryFollowTheByteOrder : 0x0123456789ABCDEF < 2 ^ (8 * 8) ∧ 7 < 8 := by decide
theorem witness_HostMemoryAccess : ready.outsideModel ⟨0xFFFFFFFFFFFFFFFF, 1⟩ = false ∧ 0xFFFFFFFFFFFFFFFF < 2 ^ ready.platform.addrW
    ∧ 2 ^ ready.platform.addrW ≤ 0x10000000000000000 ∧ ∀ c ∈ ready.codecs, c.claims = [] := by decide
theorem witness_RacedSourceWordsReadAsDraws :
    nextIs (hostMemWrite 0x11 0xFF (running (jobB 1 [(0, 5)]))) (fun t => t.codec.raced == [⟨0x11, 1⟩])
      ∧ 1 < jobSrcWords (jobB 1 [(0, 5)]) ∧ extentsMeet (jobSrcWord (jobB 1 [(0, 5)]) 1) ⟨0x11, 1⟩ = true
      ∧ (jobSeq (jobB 1 [(0, 5)]))[1]? = some (.rd 1) := by decide
theorem witness_UnsettledDestinationReadsAreDraws :
    (running (jobB 0 [])).codec.claims = [⟨⟨0x10, 4⟩, ⟨0x20, 2⟩, 1⟩] ∧ extentsMeet ⟨0x20, 2⟩ ⟨0x21, 1⟩ = true
      ∧ (running (jobB 0 [])).outsideModel ⟨0x21, 1⟩ = false ∧ 0x21 < 2 ^ (running (jobB 0 [])).platform.addrW := by decide
theorem witness_RacedDestinationWordsEndAsDraws :
    extentsMeet (jobDstWord (jobB 5 []) 1) ⟨0x21, 1⟩ = true ∧ extentsMeet (jobDstWord (jobB 5 []) 0) ⟨0x21, 1⟩ = false
      ∧ 1 < jobDstWords (jobB 5 []) ∧ (jobB 5 []).pos + 1 = jobLength (jobB 5 [])
      ∧ (jobSeq (jobB 5 []))[5]? = some (.wr 1) ∧ (running (jobB 5 [])).alone (jobDst (jobB 5 [])) = true := by decide
/-- A claim outlives a command that fails and one that starts, and a STATUS read with DONE = 1 ends it. -/
theorem witness_ClaimsLastUntilDoneIsRead :
    nextIs (step (withInput (.command 0 0) ended)) (fun t => t.codec.done && t.codec.claims == [jobClaim (jobB 6 [])])
      ∧ nextIs (step (withInput (.command 0 0x301) ended))
          (fun t => t.codec.busy && t.codec.claims == [jobClaim (jobB 0 []), jobClaim (jobB 6 [])])
      ∧ nextIs (step (withInput (.reset 0 true) ended)) (fun t => t.codec.claims == [jobClaim (jobB 6 [])])
      ∧ ended.codec.done = true ∧ nextIs (step (withInput (.access .read 0x08 8 0) ended)) (fun t => t.codec.claims == []) := by decide
theorem ended_inv : ended.Inv where
  platform := by decide
  mem_wf := by decide
  mem_inside := by decide
  codecs := by
    intro c hc
    have hc' : c = ended.codec := by simpa [State.codecs, ended, ready, State.reset, State.resetOn] using hc
    subst hc'
    refine ⟨by decide, by decide, by decide, by decide, ?_, ?_, by decide⟩
    · intro j hj
      cases hj
    · intro cl hcl
      rw [List.mem_singleton.1 hcl]
      exact ⟨by decide, by decide, by decide⟩
theorem witness_HostWritesSpoilClaimedDestinations : ended.Inv ∧ nextIs (hostMemWrite 0x21 7 ended) (fun t => t.draws == 1)
    ∧ (jobClaim (jobB 6 [])).SameWord 0x21 0x21 ∧ ¬ (jobClaim (jobB 6 [])).SameWord 0x21 0x20 :=
  ⟨ended_inv, by decide⟩
theorem witness_RacedEngineReadsAreDraws : (jobSeq (jobB 0 []))[0]? = some (.rd 0)
    ∧ (withOther (running (jobB 0 [])) ⟨0x0F, 2⟩).busOK (jobSrcWord (jobB 0 []) 0) .read = true
    ∧ (∃ c ∈ (withOther (running (jobB 0 [])) ⟨0x0F, 2⟩).others, ∃ cl ∈ c.claims,
        extentsMeet cl.dst (jobSrcWord (jobB 0 []) 0) = true)
    ∧ extentsMeet ⟨0x10, 1⟩ (jobSrcWord (jobB 0 []) 0) = true := by decide
theorem other_inv : (withOther (running (jobB 3 [(0, 5), (1, 3), (2, 7)])) ⟨0x20, 4⟩).Inv where
  platform := by decide
  mem_wf := by decide
  mem_inside := by decide
  codecs := by
    intro c hc
    have hc' : c = (running (jobB 3 [(0, 5), (1, 3), (2, 7)])).codec ∨ c = other ⟨0x20, 4⟩ := by
      simpa [State.codecs, withOther, running, ready, State.reset, State.resetOn] using hc
    rcases hc' with rfl | rfl
    · exact running_inv.codecs _ (by simp [State.codecs])
    · refine ⟨by decide, by decide, by decide, by decide, ?_, ?_, by decide⟩
      · intro j hj
        cases hj
      · intro cl hcl
        rw [List.mem_singleton.1 hcl]
        exact ⟨by decide, by decide, by decide⟩
theorem witness_EngineWritesSpoilClaimedDestinations :
    (withOther (running (jobB 3 [(0, 5), (1, 3), (2, 7)])) ⟨0x20, 4⟩).Inv
      ∧ (jobSeq (jobB 3 []))[3]? = some (.wr 0) ∧ (Claim.SameWord ⟨⟨0, 0⟩, ⟨0x20, 4⟩, 4⟩ 0x20 0x23) :=
  ⟨other_inv, by decide⟩
theorem witness_InterruptFollowsDone : nextIs (exec (.regWriteCmd 0x301) ready) (fun t => t.codec.busy)
    ∧ (engineStep (running (jobB 5 [(0, 5), (1, 3), (2, 7), (3, 1)]))).codec.busy = false := by decide

end Sys2Proof.Tests
end

section
/-! PROOF. What one step can do, said once: the next input is taken off, a codec is selected, and one agent moves. No move
changes the platform's parameters or the windows of the instances (00_scope.md R8, 10_state.md R16). -/

namespace Sys2Proof.Machine

/-! ### States with the same platform -/

/-- The codecs stand in three parts of the state; their windows are the same when each part's are. -/
theorem State.samePlatform_of_parts {s t : State} (hp : t.platform = s.platform)
    (hb : t.before.map Codec.regBase = s.before.map Codec.regBase) (hc : t.codec.regBase = s.codec.regBase)
    (ha : t.after.map Codec.regBase = s.after.map Codec.regBase) : s.SamePlatform t :=
  ⟨hp, by simp [State.codecs, hb, hc, ha]⟩

theorem State.samePlatform_trans {s t u : State} (h : s.SamePlatform t) (h' : t.SamePlatform u) : s.SamePlatform u :=
  ⟨h'.1.trans h.1, h'.2.trans h.2⟩

/-- Selecting a codec keeps the platform and the windows. -/
theorem State.select_samePlatform {s t : State} {k : Nat} (h : s.select k = some t) : s.SamePlatform t := by
  obtain ⟨hcodecs, -, ht⟩ := State.select_some h
  exact ⟨by rw [ht], by rw [hcodecs]⟩

/-- Recording a racing write moves no window. -/
theorem map_regBase_noteWrite (x : Extent) (cs : List Codec) :
    (cs.map (Codec.noteWrite x)).map Codec.regBase = cs.map Codec.regBase := by
  simp

/-! ### Instructions -/

/-- What a register write changes is the selected codec, and not its window. -/
theorem writeAlways_frame {f : Codec → Codec} {s t : State} (h : writeAlways f s = .next t)
    (hf : ∀ c, (f c).regBase = c.regBase) : t = { s with codec := t.codec } ∧ t.codec.regBase = s.codec.regBase := by
  obtain ⟨u, hu, hheld, hmade⟩ := writeAlways_next f s
  obtain rfl : u = t := by simpa [hu] using h
  cases hr : s.codec.inReset with
  | true => rw [hheld hr]; exact ⟨rfl, rfl⟩
  | false => rw [hmade hr]; exact ⟨rfl, hf _⟩

theorem writeOperand_frame {f : Codec → Codec} {s t : State} (h : writeOperand f s = .next t)
    (hf : ∀ c, (f c).regBase = c.regBase) : t = { s with codec := t.codec } ∧ t.codec.regBase = s.codec.regBase :=
  writeAlways_frame h fun c => by split <;> simp [hf]

/-- Taking a command moves no window. -/
theorem acceptCommand_regBase {v : Word} {s t : State} (h : acceptCommand v s = .next t) :
    t.codec.regBase = s.codec.regBase := by
  rcases acceptCommand_cases v s with ⟨e, -, ha⟩ | ⟨j, -, ⟨-, ha⟩ | ⟨-, -, ha⟩ | ⟨-, -, ha⟩⟩ <;> rw [ha] at h <;> cases h
  all_goals rfl

theorem writeCommand_frame {v : Word} {s t : State} (h : writeCommand v s = .next t) :
    t = { s with codec := t.codec } ∧ t.codec.regBase = s.codec.regBase := by
  refine ⟨writeCommand_next h, ?_⟩
  rcases writeCommand_cases v s with ⟨-, hw⟩ | ⟨-, -, hw⟩ | ⟨-, -, hw⟩ <;> rw [hw] at h
  · cases h; rfl
  · cases h; rfl
  · exact acceptCommand_regBase h

/-- A register read changes the value returned and, of the selected codec, at most the claims a STATUS read ends. -/
theorem execRegRead_next {off : BitVec 8} {s t : State} (h : execRegRead off s = .next t) :
    t = { s with readData := readReg s.codec off.toNat, codec := if off = 0x08 then s.codec.seen else s.codec } := by
  unfold execRegRead at h
  split at h <;> cases h
  rfl

/-- The frame of every instruction: only the selected codec and the value a read returned change, and the window stays. -/
theorem exec_frame {i : Instr} {s t : State} (h : exec i s = .next t) :
    t = { s with codec := t.codec, readData := t.readData } ∧ t.codec.regBase = s.codec.regBase := by
  /- A write's frame keeps `readData` too. -/
  have ofWrite (hw : t = { s with codec := t.codec } ∧ t.codec.regBase = s.codec.regBase) :
      t = { s with codec := t.codec, readData := t.readData } ∧ t.codec.regBase = s.codec.regBase :=
    ⟨by rw [hw.1], hw.2⟩
  cases i with
  | regRead off =>
    rw [execRegRead_next h]
    exact ⟨rfl, by dsimp only; split <;> simp⟩
  | pack | unpack | regWriteCmd => exact ofWrite (writeCommand_frame h)
  | regWriteCtrl | regWriteStatus | regWriteWords =>
    dsimp only [exec, execRegWriteCtrl, execRegWriteStatus, execRegWriteWords] at h
    exact ofWrite (writeAlways_frame h fun _ => rfl)
  | regWriteSrcBase | regWriteSrcLen | regWriteDstBase | regWriteDstCap | regWriteCount =>
    dsimp only [exec, execRegWriteSrcBase, execRegWriteSrcLen, execRegWriteDstBase, execRegWriteDstCap, execRegWriteCount] at h
    exact ofWrite (writeOperand_frame h fun _ => rfl)
  | regWriteReserved off v =>
    simp only [exec, execRegWriteReserved] at h
    split at h
    · cases h
    · split at h
      · cases h
      · exact ofWrite (writeAlways_frame h fun _ => rfl)

theorem exec_samePlatform {i : Instr} {s t : State} (h : exec i s = .next t) : s.SamePlatform t := by
  obtain ⟨hframe, hbase⟩ := exec_frame h
  exact State.samePlatform_of_parts (by rw [hframe]) (by rw [hframe]) hbase (by rw [hframe])

/-! ### Engine steps -/

theorem State.engineLoad_samePlatform (s : State) (x : Extent) : s.SamePlatform (s.engineLoad x).2 := by
  rw [State.engineLoad_frame]
  exact ⟨rfl, rfl⟩

theorem State.engineStore_samePlatform (s : State) (x : Extent) (v : Nat) : s.SamePlatform (s.engineStore x v) := by
  rw [State.engineStore_frame]
  exact State.samePlatform_of_parts rfl (map_regBase_noteWrite x _) rfl (map_regBase_noteWrite x _)

theorem advance_samePlatform (j : Job) (s : State) : s.SamePlatform (advance j s) := by
  rcases advance_cases j s with ⟨-, h⟩ | ⟨-, h⟩ <;> rw [h]
  · exact State.samePlatform_of_parts rfl rfl rfl rfl
  · rw [State.spoilRaced_frame]
    exact State.samePlatform_of_parts rfl rfl rfl rfl

theorem busFail_samePlatform (j : Job) (s : State) : s.SamePlatform (busFail j s) :=
  State.samePlatform_of_parts rfl rfl rfl rfl

theorem engineStep_samePlatform (s : State) : s.SamePlatform (engineStep s) := by
  rcases engineStep_cases s with h | ⟨j, -, -, ⟨i, -, ⟨-, h⟩ | ⟨-, h⟩⟩ | ⟨k, -, ⟨-, h⟩ | ⟨-, h⟩⟩⟩ <;> rw [h]
  · exact ⟨rfl, rfl⟩
  · exact busFail_samePlatform j s
  · exact State.samePlatform_trans (State.engineLoad_samePlatform s _) (advance_samePlatform _ _)
  · exact busFail_samePlatform j s
  · exact State.samePlatform_trans (State.engineStore_samePlatform s _ _) (advance_samePlatform _ _)

/-! ### Reset and host access to data memory -/

theorem assertReset_samePlatform (s : State) : s.SamePlatform (assertReset s) := by
  cases h : s.codec.phase with
  | idle =>
    rw [(assertReset_eq s).1 h]
    exact State.samePlatform_of_parts rfl rfl rfl rfl
  | run j =>
    rw [(assertReset_eq s).2 j h]
    exact State.samePlatform_of_parts rfl rfl rfl rfl

theorem releaseReset_samePlatform (s : State) : s.SamePlatform (releaseReset s) :=
  State.samePlatform_of_parts rfl rfl rfl rfl

theorem hostMemRead_samePlatform {a : Nat} {s t : State} (h : hostMemRead a s = .next t) : s.SamePlatform t := by
  rw [(hostMemRead_next h).2]
  exact ⟨rfl, rfl⟩

theorem hostMemWrite_samePlatform {a : Nat} {v : Byte} {s t : State} (h : hostMemWrite a v s = .next t) :
    s.SamePlatform t := by
  rw [(hostMemWrite_next h).2]
  exact State.samePlatform_of_parts rfl (map_regBase_noteWrite _ _) (Codec.noteWrite_regBase _ _) (map_regBase_noteWrite _ _)

/-! ### The move of a step -/

/-- The moves an agent can make, from the state in which its codec is selected and its input is taken off. -/
inductive AgentMove : State → State → Prop where
  | instr {s t : State} (i : Instr) (h : exec i s = .next t) : AgentMove s t
  | engine (s : State) : AgentMove s (engineStep s)
  | assertReset (s : State) : AgentMove s (assertReset s)
  | releaseReset (s : State) : AgentMove s (releaseReset s)
  | memRead {s t : State} (a : Nat) (h : hostMemRead a s = .next t) : AgentMove s t
  | memWrite {s t : State} (a : Nat) (v : Byte) (h : hostMemWrite a v s = .next t) : AgentMove s t
  | idle (s : State) : AgentMove s s

/-- What is done on codec `k` answers a next state only where there is such a codec. -/
theorem onInst_next {k : Nat} {f : State → Host.Outcome State Fault Refusal} {s t : State} (h : onInst k f s = .next t) :
    ∃ u, s.select k = some u ∧ f u = .next t := by
  unfold onInst at h
  split at h
  · exact ⟨_, ‹_›, h⟩
  · cases h

/-- A register access that is answered ran an instruction. -/
theorem accessSelected_next {dir : Dir} {addr size : Nat} {data : Word} {s t : State}
    (h : accessSelected dir addr size data s = .next t) : ∃ i, exec i s = .next t := by
  unfold accessSelected at h
  split at h
  · exact ⟨_, h⟩
  · cases h

theorem applyInput_next {i : Input} {s t : State} (h : applyInput i s = .next t) :
    ∃ k u, s.select k = some u ∧ AgentMove u t := by
  cases i with
  | command k word =>
    obtain ⟨u, hu, ht⟩ := onInst_next h
    exact ⟨k, u, hu, .instr _ ht⟩
  | access dir addr size data =>
    simp only [applyInput] at h
    split at h
    · obtain ⟨u, hu, ht⟩ := onInst_next h
      obtain ⟨i, hi⟩ := accessSelected_next ht
      exact ⟨_, u, hu, .instr i hi⟩
    · cases h
  | engine k =>
    obtain ⟨u, hu, ht⟩ := onInst_next h
    cases ht
    exact ⟨k, u, hu, .engine u⟩
  | reset k asserted =>
    cases asserted with
    | true =>
      obtain ⟨u, hu, ht⟩ := onInst_next h
      cases ht
      exact ⟨k, u, hu, .assertReset u⟩
    | false =>
      obtain ⟨u, hu, ht⟩ := onInst_next h
      cases ht
      exact ⟨k, u, hu, .releaseReset u⟩
  | memRead a => exact ⟨_, s, State.select_selected s, .memRead a h⟩
  | memWrite a v => exact ⟨_, s, State.select_selected s, .memWrite a v h⟩

theorem freeRunning_next {s t : State} (h : freeRunning s = .next t) : ∃ k u, s.select k = some u ∧ AgentMove u t := by
  unfold freeRunning at h
  split at h
  · obtain ⟨u, hu, ht⟩ := onInst_next h
    cases ht
    exact ⟨_, u, hu, .engine u⟩
  · cases h
    exact ⟨_, s, State.select_selected s, .idle s⟩

/-- Every step is the move of one agent, made with the next input taken off and some codec selected. -/
theorem step_next {s t : State} (h : step s = .next t) :
    ∃ k u, State.select { s with inputs := s.inputs.tail } k = some u ∧ AgentMove u t := by
  unfold step at h
  cases hi : s.inputs with
  | nil =>
    rw [hi] at h
    obtain ⟨k, u, hu, hm⟩ := freeRunning_next h
    exact ⟨k, u, by rw [← hu, List.tail_nil, ← hi], hm⟩
  | cons i rest =>
    rw [hi] at h
    exact applyInput_next h

theorem AgentMove.samePlatform {s t : State} (h : AgentMove s t) : s.SamePlatform t := by
  cases h with
  | instr i h => exact exec_samePlatform h
  | engine => exact engineStep_samePlatform s
  | assertReset => exact assertReset_samePlatform s
  | releaseReset => exact releaseReset_samePlatform s
  | memRead a h => exact hostMemRead_samePlatform h
  | memWrite a v h => exact hostMemWrite_samePlatform h
  | idle => exact ⟨rfl, rfl⟩

/-- Settles O10: a step selects a codec and one agent moves, and neither changes the platform or a window. -/
theorem everyStepKeepsThePlatform : Obligations.EveryStepKeepsThePlatform := by
  intro s t h
  obtain ⟨k, u, hu, hmove⟩ := step_next h
  exact State.samePlatform_trans (State.select_samePlatform (s := { s with inputs := s.inputs.tail }) hu) hmove.samePlatform

end Sys2Proof.Machine
end

section
/-! PROOF. The bits of the packed stream (41_pack.md R85, R87): the stream of a block of values in base `2^W`, and the packed words
as its digits in base `2^OutW`. -/

namespace Sys2Proof.Machine

/-! ### The stream of a block of values -/

@[simp] theorem packStream_indexed_nil (w : Nat) : packStream w (indexed []) = 0 := rfl

/-- Values that start at index `k` stand `k*W` bits higher than from index 0. -/
theorem packStream_zipIdx (w : Nat) (xs : List Nat) (k : Nat) :
    packStream w ((xs.zipIdx k).map fun p => (p.2, p.1)) = 2 ^ (k * w) * packStream w (indexed xs) := by
  induction xs generalizing k with
  | nil => simp [packStream]
  | cons x xs ih =>
    have hcons : ∀ m, packStream w (((x :: xs).zipIdx m).map fun p => (p.2, p.1))
        = maskTo w x * 2 ^ (m * w) + 2 ^ ((m + 1) * w) * packStream w (indexed xs) := fun m => by
      rw [List.zipIdx_cons, List.map_cons, packStream, ih, Nat.shiftLeft_eq]
    rw [indexed, hcons, hcons]
    ring

/-- The stream as a number in base `2^W`, the first value its least significant digit. -/
theorem packStream_indexed_cons (w x : Nat) (xs : List Nat) :
    packStream w (indexed (x :: xs)) = 2 ^ w * packStream w (indexed xs) + maskTo w x := by
  rw [indexed, List.zipIdx_cons, List.map_cons, packStream, packStream_zipIdx]
  simp [Nat.add_comm]

/-- The stream of `count` values has `count*W` bits. -/
theorem packStream_indexed_lt (w : Nat) (xs : List Nat) : packStream w (indexed xs) < 2 ^ (xs.length * w) := by
  induction xs with
  | nil => simp
  | cons x xs ih =>
    have hx : maskTo w x < 2 ^ w := Nat.mod_lt _ (Nat.two_pow_pos w)
    calc packStream w (indexed (x :: xs)) < 2 ^ w * (packStream w (indexed xs) + 1) := by
          rw [packStream_indexed_cons, Nat.mul_succ]; omega
      _ ≤ 2 ^ w * 2 ^ (xs.length * w) := Nat.mul_le_mul_left _ ih
      _ = 2 ^ ((x :: xs).length * w) := by rw [List.length_cons]; ring

/-- Bit positions at or above `count*W` are 0 in the stream. -/
theorem packStream_indexed_testBit_padding (w : Nat) (xs : List Nat) {p : Nat} (hp : xs.length * w ≤ p) :
    (packStream w (indexed xs)).testBit p = false :=
  Nat.testBit_lt_two_pow (lt_of_lt_of_le (packStream_indexed_lt w xs) (Nat.pow_le_pow_right (by omega) hp))

/-- Bit `i*W + j` of the stream is bit `j` of value `i`. -/
theorem packStream_indexed_testBit (w : Nat) (xs : List Nat) (i j : Nat) (hj : j < w) :
    (packStream w (indexed xs)).testBit (i * w + j) = (xs.getD i 0).testBit j := by
  induction xs generalizing i with
  | nil => simp
  | cons x xs ih =>
    have hx : maskTo w x < 2 ^ w := Nat.mod_lt _ (Nat.two_pow_pos w)
    rw [packStream_indexed_cons, Nat.testBit_two_pow_mul_add _ hx]
    cases i with
    | zero => simp [maskTo, hj]
    | succ i =>
      rw [if_neg (by rw [Nat.succ_mul]; omega), show (i + 1) * w + j - w = i * w + j by rw [Nat.succ_mul]; omega, ih]
      simp

/-! ### The packed words -/

/-- Rounding up loses nothing. -/
theorem le_ceildiv_mul (a : Nat) {b : Nat} (hb : 0 < b) : a ≤ ceildiv a b * b := by
  have := Nat.lt_mul_div_succ (a + b - 1) hb
  rw [ceildiv, Nat.mul_comm]
  rw [Nat.mul_succ] at this
  omega

@[simp] theorem packWords_length (ow w : Nat) (xs : List Nat) : (packWords ow w xs).length = ceildiv (xs.length * w) ow := by
  simp [packWords]

/-- Every packed word fits its width. -/
theorem packedWord_lt (ow w : Nat) (rdata : List (Nat × Nat)) (k : Nat) : packedWord ow w rdata k < 2 ^ ow :=
  Nat.mod_lt _ (Nat.two_pow_pos ow)

/-- Bit `b` of packed word `k` is bit `k*OutW + b` of the stream. -/
theorem packedWord_testBit {ow b : Nat} (w : Nat) (rdata : List (Nat × Nat)) (k : Nat) (hb : b < ow) :
    (packedWord ow w rdata k).testBit b = (packStream w rdata).testBit (k * ow + b) := by
  simp [packedWord, slice, maskTo, Nat.testBit_mod_two_pow, Nat.testBit_shiftRight, hb]

/-- The packed words hold the stream: its bit `p` is bit `p mod OutW` of word `floor(p / OutW)`, and past the last word both are
0. -/
theorem packWords_testBit {ow : Nat} (how : 0 < ow) (w : Nat) (xs : List Nat) (p : Nat) :
    ((packWords ow w xs).getD (p / ow) 0).testBit (p % ow) = (packStream w (indexed xs)).testBit p := by
  have hp : p / ow * ow + p % ow = p := Nat.div_add_mod' p ow
  by_cases hk : p / ow < ceildiv (xs.length * w) ow
  · have hword : (packWords ow w xs).getD (p / ow) 0 = packedWord ow w (indexed xs) (p / ow) := by
      simp [packWords, List.getD, hk]
    rw [hword, packedWord_testBit w _ _ (Nat.mod_lt p how), hp]
  · have hpast : xs.length * w ≤ p := by
      calc xs.length * w ≤ ceildiv (xs.length * w) ow * ow := le_ceildiv_mul _ how
        _ ≤ p / ow * ow := Nat.mul_le_mul_right _ (by omega)
        _ ≤ p := Nat.div_mul_le_self p ow
    rw [List.getD_eq_default _ _ (by simpa using hk), Nat.zero_testBit,
      packStream_indexed_testBit_padding w xs hpast]

/-- Settles O43: the packed words hold the bits of the stream in order, and the stream holds the values in base `2^W`. -/
theorem packedBitPositions : Obligations.PackedBitPositions := by
  intro outw w xs _
  have how : 0 < outw.bits := Width.bits_pos outw
  refine ⟨fun i j _ hj => ?_, fun p hp => ?_, fun x hx => ?_, packWords_length _ _ _⟩
  · rw [packWords_testBit how, packStream_indexed_testBit w xs i j hj]
  · rw [packWords_testBit how, packStream_indexed_testBit_padding w xs hp]
  · obtain ⟨k, -, rfl⟩ := List.mem_map.1 hx
    exact packedWord_lt _ _ _ _

end Sys2Proof.Machine
end

section
/-! PROOF. What an engine step leaves as it was: the registers of its own codec, and everything but the record of racing writes of
the others (10_state.md R27, R32). -/

namespace Sys2Proof.Machine

/-- `t` differs from `s` only in what an engine step may write: memory, draws, the selected codec's BUSY, DONE, ERR, WORDS and
hidden engine state, and the other codecs' records of racing writes. -/
structure State.EngineFrame (s t : State) : Prop where
  operands : s.codec.SameOperands t.codec
  platform : t.platform = s.platform
  inputs : t.inputs = s.inputs
  readData : t.readData = s.readData
  before : List.Forall₂ Codec.SameState s.before t.before
  after : List.Forall₂ Codec.SameState s.after t.after

theorem Codec.sameOperands_refl (c : Codec) : c.SameOperands c := ⟨rfl, rfl, rfl, rfl, rfl, rfl, rfl, rfl, rfl, rfl⟩

theorem Codec.sameOperands_trans {c d e : Codec} (h : c.SameOperands d) (h' : d.SameOperands e) : c.SameOperands e := by
  simp_all only [Codec.SameOperands, and_self]

theorem forall₂_sameState_refl (cs : List Codec) : List.Forall₂ Codec.SameState cs cs :=
  List.forall₂_same.2 fun _ _ => rfl

/-- Recording a racing write changes nothing but the records. -/
theorem forall₂_sameState_noteWrite (x : Extent) (cs : List Codec) :
    List.Forall₂ Codec.SameState cs (cs.map (Codec.noteWrite x)) :=
  List.forall₂_map_right_iff.2 (List.forall₂_same.2 fun c _ => Codec.noteWrite_raced_only x c)

theorem State.engineFrame_refl (s : State) : s.EngineFrame s :=
  ⟨Codec.sameOperands_refl _, rfl, rfl, rfl, forall₂_sameState_refl _, forall₂_sameState_refl _⟩

/-- The frame goes on over a change of memory, draws and the selected codec. -/
theorem State.EngineFrame.andCodec {s t u : State} (h : s.EngineFrame t)
    (hu : u = { t with mem := u.mem, draws := u.draws, codec := u.codec }) (hops : t.codec.SameOperands u.codec) :
    s.EngineFrame u := by
  rw [hu]
  exact ⟨Codec.sameOperands_trans h.operands hops, h.platform, h.inputs, h.readData, h.before, h.after⟩

theorem busFail_engineFrame (j : Job) (s : State) : s.EngineFrame (busFail j s) :=
  (State.engineFrame_refl s).andCodec rfl (Codec.sameOperands_refl _)

/-- Counting an access, or completing after the last one, writes no operand. -/
theorem State.EngineFrame.andAdvance {s t : State} (h : s.EngineFrame t) (j : Job) : s.EngineFrame (advance j t) := by
  rcases advance_cases j t with ⟨-, ha⟩ | ⟨-, ha⟩ <;> rw [ha]
  · exact h.andCodec rfl (Codec.sameOperands_refl _)
  · rw [State.spoilRaced_frame]
    exact h.andCodec rfl (Codec.sameOperands_refl _)

theorem State.engineLoad_engineFrame (s : State) (x : Extent) : s.EngineFrame (s.engineLoad x).2 := by
  rw [State.engineLoad_frame]
  exact (State.engineFrame_refl s).andCodec rfl (Codec.sameOperands_refl _)

theorem State.engineStore_engineFrame (s : State) (x : Extent) (v : Nat) : s.EngineFrame (s.engineStore x v) := by
  rw [State.engineStore_frame]
  exact ⟨Codec.sameOperands_refl _, rfl, rfl, rfl, forall₂_sameState_noteWrite x _, forall₂_sameState_noteWrite x _⟩

theorem engineStep_engineFrame (s : State) : s.EngineFrame (engineStep s) := by
  rcases engineStep_cases s with h | ⟨j, -, -, ⟨i, -, ⟨-, h⟩ | ⟨-, h⟩⟩ | ⟨k, -, ⟨-, h⟩ | ⟨-, h⟩⟩⟩ <;> rw [h]
  · exact State.engineFrame_refl s
  · exact busFail_engineFrame j s
  · exact (State.engineLoad_engineFrame s _).andAdvance _
  · exact busFail_engineFrame j s
  · exact (State.engineStore_engineFrame s _ _).andAdvance _

/-- Settles O36: each form of an engine step (none, a read, a write, a refused access) keeps the engine's frame. -/
theorem engineStepsKeepTheRegisters : Obligations.EngineStepsKeepTheRegisters := by
  intro s
  obtain ⟨hops, hplat, hin, hrd, hbefore, hafter⟩ := engineStep_engineFrame s
  exact ⟨hops, hplat, hin, hrd, hbefore, hafter⟩

end Sys2Proof.Machine
end

section
/-! PROOF. Data memory stays inside `2^ADDR_W` (20_memory.md R33): a write does when its range does, and the words of a claim that
a racing write hits lie in the claimed destination. -/

namespace Sys2Proof.Machine

theorem Memory.inside_write {addrW : Nat} {m : Memory} (hm : Memory.Inside addrW m) {a : Nat} (ha : a < 2 ^ addrW) (v : Byte) :
    Memory.Inside addrW (Memory.write m a v) := by
  have hnew : ∀ {m' : Memory}, Memory.Inside addrW m' → Memory.Inside addrW ((a, v) :: m') := fun h =>
    List.forall_mem_cons.2 ⟨ha, h⟩
  induction m with
  | nil =>
    unfold Memory.write
    split
    · exact hm
    · exact hnew hm
  | cons p m ih =>
    obtain ⟨k, b⟩ := p
    have htail : Memory.Inside addrW m := fun q hq => hm q (List.mem_cons_of_mem _ hq)
    unfold Memory.write
    split
    · split
      · exact hm
      · exact hnew hm
    · split
      · split
        · exact htail
        · exact hnew htail
      · exact List.forall_mem_cons.2 ⟨hm _ List.mem_cons_self, ih htail⟩

theorem Memory.inside_writeBytes {addrW : Nat} (bs : List Byte) {m : Memory} (hm : Memory.Inside addrW m) {a : Nat}
    (hx : extentInside addrW ⟨a, bs.length⟩) : Memory.Inside addrW (Memory.writeBytes m a bs) := by
  induction bs generalizing m a with
  | nil => exact hm
  | cons b bs ih =>
    simp only [extentInside, extentEnd, List.length_cons] at hx ih
    exact ih (Memory.inside_write hm (by omega) b) (by omega)

theorem State.freeRange_memInside {addrW : Nat} {s : State} {x : Extent} (hm : Memory.Inside addrW s.mem)
    (hx : extentInside addrW x) : Memory.Inside addrW (s.freeRange x).mem :=
  Memory.inside_writeBytes _ hm (by simpa using hx)

theorem State.freeRanges_memInside {addrW : Nat} {s : State} {xs : List Extent} (hm : Memory.Inside addrW s.mem)
    (hxs : ∀ x ∈ xs, extentInside addrW x) : Memory.Inside addrW (s.freeRanges xs).mem := by
  induction xs generalizing s with
  | nil => exact hm
  | cons x xs ih =>
    obtain ⟨hx, hxs⟩ := List.forall_mem_cons.1 hxs
    exact ih (State.freeRange_memInside hm hx) hxs

/-- The words of a claimed destination that a range hits lie in it, because it is a whole number of words. -/
theorem Claim.Inv.wordsHit_inside {addrW : Nat} {cl : Claim} (h : cl.Inv addrW) (x : Extent) :
    extentInside addrW (claimWordsHit cl x) := by
  obtain ⟨hinside, hpos, hwhole⟩ := h
  unfold claimWordsHit
  split
  case isFalse => exact .inl rfl
  case isTrue hmeet =>
    obtain ⟨n, hn⟩ : ∃ n, cl.dst.len = n * cl.dstBytes := ⟨_, (Nat.div_mul_cancel (Nat.dvd_of_mod_eq_zero hwhole)).symm⟩
    have hend : extentEnd cl.dst = cl.dst.base + n * cl.dstBytes := by rw [extentEnd, hn]
    have hin : extentEnd cl.dst ≤ 2 ^ addrW := hinside.resolve_left (by simp_all [extentsMeet])
    have hlo : x.base < extentEnd cl.dst := by simp_all [extentsMeet]
    have hne : cl.dst.base < extentEnd cl.dst := by simp_all [extentsMeet, extentEnd, Nat.pos_iff_ne_zero]
    set first := (max x.base cl.dst.base - cl.dst.base) / cl.dstBytes with hf
    set last := (min (extentEnd x) (extentEnd cl.dst) - 1 - cl.dst.base) / cl.dstBytes with hl
    have hfirst : first < n := by rw [hf, Nat.div_lt_iff_lt_mul hpos]; omega
    have hlast : last < n := by rw [hl, Nat.div_lt_iff_lt_mul hpos]; omega
    right
    calc cl.dst.base + first * cl.dstBytes + (last + 1 - first) * cl.dstBytes
        = cl.dst.base + (first + (last + 1 - first)) * cl.dstBytes := by rw [Nat.add_mul, Nat.add_assoc]
      _ ≤ cl.dst.base + n * cl.dstBytes := Nat.add_le_add_left (Nat.mul_le_mul_right _ (by omega)) _
      _ ≤ 2 ^ addrW := hend ▸ hin

/-- A write of another agent into claimed destinations keeps memory inside. -/
theorem State.spoil_memInside {addrW : Nat} {s : State} {x : Extent} {cs : List Codec} (hm : Memory.Inside addrW s.mem)
    (hcs : ∀ c ∈ cs, ∀ cl ∈ c.claims, cl.Inv addrW) : Memory.Inside addrW (State.spoil x cs s).mem := by
  refine State.freeRanges_memInside hm fun y hy => ?_
  simp only [List.mem_flatMap, Codec.spoiled, List.mem_map] at hy
  obtain ⟨c, hc, cl, hcl, rfl⟩ := hy
  exact (hcs c hc cl hcl).wordsHit_inside x

theorem State.spoilRaced_memInside {addrW : Nat} {s : State} {cl : Claim} {raced : List Extent}
    (hm : Memory.Inside addrW s.mem) (hcl : cl.Inv addrW) : Memory.Inside addrW (s.spoilRaced cl raced).mem := by
  refine State.freeRanges_memInside hm fun y hy => ?_
  obtain ⟨x, -, rfl⟩ := List.mem_map.1 hy
  exact hcl.wordsHit_inside x

end Sys2Proof.Machine
end

section
/-! PROOF. What a running command's next access does to its hidden state (41_pack.md R92, R93; 42_unpack.md R106, R107): a read adds
its index to RDATA, and a write is to a word of the required destination extent. -/

namespace Sys2Proof.Machine

/-! ### The writes of the access sequences -/

/-- `PackSeq` from value `i` on writes only words of the packed length of the values up to its end. -/
theorem lt_of_wr_mem_packSeqFrom {ow w k : Nat} (how : 0 < ow) (n i : Nat) (h : .wr k ∈ packSeqFrom ow w n i) :
    k < ceildiv ((i + n) * w) ow := by
  induction n generalizing i with
  | zero =>
    have hle : i * w ≤ ceildiv (i * w) ow * ow := le_ceildiv_mul _ how
    unfold packSeqFrom at h
    split at h
    case isFalse => cases h
    case isTrue hrem =>
      obtain rfl : k = ceildiv (i * w) ow - 1 := by simpa using h
      have hpos : ceildiv (i * w) ow ≠ 0 := fun h0 => hrem (by
        rw [h0, Nat.zero_mul, Nat.le_zero] at hle
        rw [hle, Nat.zero_mod])
      simp only [Nat.add_zero]
      omega
  | succ n ih =>
    rw [packSeqFrom, List.mem_cons, List.mem_append] at h
    rcases h with h | h | h
    · cases h
    · have hk := ((mem_packWrites how).1 h).2
      have : (k + 1) * ow ≤ ceildiv ((i + (n + 1)) * w) ow * ow :=
        calc (k + 1) * ow ≤ (i + 1) * w := hk
          _ ≤ (i + (n + 1)) * w := Nat.mul_le_mul_right _ (by omega)
          _ ≤ _ := le_ceildiv_mul _ how
      exact Nat.le_of_mul_le_mul_right this how
    · rw [← Nat.add_assoc, Nat.add_right_comm]
      exact ih _ h

/-- `UnpackSeq` from value `i` on writes only values up to its end. -/
theorem lt_of_wr_mem_unpackSeqFrom {ow w k : Nat} (n i next : Nat) (h : .wr k ∈ unpackSeqFrom ow w n i next) : k < i + n := by
  induction n generalizing i next with
  | zero => cases h
  | succ n ih =>
    rw [unpackSeqFrom, List.mem_append, List.mem_cons] at h
    rcases h with h | h | h
    · simp [unpackReads] at h
    · cases h
      omega
    · have := ih _ _ h
      omega

/-- Every write of a command is to a word of its required destination. -/
theorem lt_of_wr_mem_jobSeq {j : Job} {k : Nat} (h : .wr k ∈ jobSeq j) : k < jobDstWords j := by
  cases hop : j.op with
  | pack =>
    simp only [jobSeq, hop] at h
    simpa [jobDstWords, hop, jobPackedWords, packedLength] using lt_of_wr_mem_packSeqFrom (Width.bits_pos _) _ _ h
  | unpack =>
    simp only [jobSeq, hop] at h
    simpa [jobDstWords, hop] using lt_of_wr_mem_unpackSeqFrom _ _ _ h

/-- A word of a destination that lies in data memory lies there too. -/
theorem jobDstWord_inside {addrW : Nat} {j : Job} {k : Nat} (hj : extentInside addrW (jobDst j)) (hk : k < jobDstWords j) :
    extentInside addrW (jobDstWord j k) := by
  have hB := Width.bytes_pos (jobDstWidth j)
  have hle : (k + 1) * (jobDstWidth j).bytes ≤ jobDstWords j * (jobDstWidth j).bytes := Nat.mul_le_mul_right _ hk
  simp only [extentInside, extentEnd, jobDst, jobDstWord] at hj ⊢
  rw [Nat.succ_mul] at hle
  omega

/-! ### The hidden state after an access -/

/-- One more access counts: its index joins the reads done if it is a read. -/
theorem jobReadsDone_succ {j : Job} {a : Access} (h : (jobSeq j)[j.pos]? = some a) :
    jobReadsDone { j with pos := j.pos + 1 } = jobReadsDone j ++ (match a with | .rd i => [i] | .wr _ => []) := by
  have hseq : jobSeq { j with pos := j.pos + 1 } = jobSeq j := rfl
  cases a <;> simp [jobReadsDone, hseq, List.take_add_one, h]

/-- A word an engine load gives fits the source word width. -/
theorem engineLoad_lt_srcWidth (s : State) (j : Job) (i : Nat) :
    (s.engineLoad (jobSrcWord j i)).1 < 2 ^ (jobSrcWidth j).bits := by
  rw [Width.bits_eq_bytes, Nat.pow_mul]
  exact State.engineLoad_lt s _

/-- A command with an access left after this one keeps its invariant, if RDATA holds the words read by then. -/
theorem Job.Inv.after_access {addrW : Nat} {j : Job} (h : j.Inv addrW) (hlast : j.pos + 1 ≠ jobLength j)
    {r : List (Nat × Nat)} (hindex : r.map Prod.fst = jobReadsDone { j with pos := j.pos + 1 })
    (hword : ∀ p ∈ r, p.2 < 2 ^ (jobSrcWidth j).bits) : Job.Inv addrW { j with pos := j.pos + 1, rdata := r } where
  w_pos := h.w_pos
  w_le := h.w_le
  pos_lt := Nat.lt_of_le_of_ne h.pos_lt hlast
  src_aligned := h.src_aligned
  dst_aligned := h.dst_aligned
  src_inside := h.src_inside
  dst_inside := h.dst_inside
  disjoint := h.disjoint
  rdata_index := hindex
  rdata_word := hword

theorem Job.Inv.after_rd {addrW : Nat} {j : Job} {i x : Nat} (h : j.Inv addrW) (hi : (jobSeq j)[j.pos]? = some (.rd i))
    (hx : x < 2 ^ (jobSrcWidth j).bits) (hlast : j.pos + 1 ≠ jobLength j) :
    Job.Inv addrW { j with pos := j.pos + 1, rdata := j.rdata ++ [(i, x)] } :=
  h.after_access hlast (by rw [jobReadsDone_succ hi, List.map_append, h.rdata_index, List.map_singleton])
    (List.forall_mem_append.2 ⟨h.rdata_word, List.forall_mem_singleton.2 hx⟩)

theorem Job.Inv.after_wr {addrW : Nat} {j : Job} {k : Nat} (h : j.Inv addrW) (hk : (jobSeq j)[j.pos]? = some (.wr k))
    (hlast : j.pos + 1 ≠ jobLength j) : Job.Inv addrW { j with pos := j.pos + 1 } :=
  h.after_access hlast (by rw [jobReadsDone_succ hk, h.rdata_index, List.append_nil]) h.rdata_word

end Sys2Proof.Machine
end

section
/-! PROOF. The invariant of one codec (10_state.md R18, R30): what each way of writing its registers keeps. -/

namespace Sys2Proof.Machine

/-! ### A command that passed its checks -/

theorem decodeCommand_width {v : Word} {m : Command} (h : decodeCommand v = .ok m) : 1 ≤ m.w ∧ m.w ≤ m.inw.bits := by
  unfold decodeCommand at h
  split at h
  · cases h
  · split at h
    · cases h
    · split at h
      · cases h
      · cases h
        dsimp only
        omega

theorem extentInside_of_not_outOfRange {addrW : Nat} {x : Extent} (h : ¬ extentOutOfRange addrW x = true) :
    extentInside addrW x := by
  simpa [extentOutOfRange, extentInside, or_iff_not_imp_left] using h

/-- What the checks on the registers say of a command they let pass (60_exceptions.md R129 to R133). -/
structure Job.Checked (addrW : Nat) (c : Codec) (j : Job) : Prop where
  srcLen : jobSrcWords j ≤ c.srcLen.toNat
  dstCap : jobDstWords j ≤ c.dstCap.toNat
  src_aligned : j.sb % (jobSrcWidth j).bytes = 0
  dst_aligned : j.db % (jobDstWidth j).bytes = 0
  src_inside : extentInside addrW (jobSrc j)
  dst_inside : extentInside addrW (jobDst j)
  disjoint : extentsMeet (jobSrc j) (jobDst j) = false

theorem checkJob_ok {addrW : Nat} {c : Codec} {j j' : Job} (h : checkJob addrW c j = .ok j') : j' = j ∧ j.Checked addrW c := by
  unfold checkJob at h
  split at h
  · cases h
  · split at h
    · cases h
    · split at h
      · cases h
      · split at h
        · cases h
        · split at h
          · cases h
          · cases h
            rename_i hsrc hdst halign hrange hmeet
            rw [not_or, not_not, not_not] at halign
            rw [not_or] at hrange
            exact ⟨rfl, Nat.le_of_not_lt hsrc, Nat.le_of_not_lt hdst, halign.1, halign.2,
              extentInside_of_not_outOfRange hrange.1, extentInside_of_not_outOfRange hrange.2, by simpa using hmeet⟩

theorem checkCommand_ok {addrW : Nat} {c : Codec} {v : Word} {j : Job} (h : checkCommand addrW c v = .ok j) :
    ∃ m, decodeCommand v = .ok m ∧ j = jobOf m c ∧ j.Checked addrW c := by
  unfold checkCommand at h
  split at h
  · cases h
  · obtain ⟨rfl, hchecked⟩ := checkJob_ok h
    exact ⟨_, ‹_›, rfl, hchecked⟩

/-- A command that passed its checks and has an access to make meets its invariant before the first one. -/
theorem Job.inv_of_check {addrW : Nat} {c : Codec} {v : Word} {j : Job} (h : checkCommand addrW c v = .ok j)
    (hlen : jobLength j ≠ 0) : j.Inv addrW := by
  obtain ⟨m, hm, rfl, hchecked⟩ := checkCommand_ok h
  obtain ⟨hpos, hle⟩ := decodeCommand_width hm
  exact {
    w_pos := hpos
    w_le := hle
    pos_lt := Nat.pos_of_ne_zero hlen
    src_aligned := hchecked.src_aligned
    dst_aligned := hchecked.dst_aligned
    src_inside := hchecked.src_inside
    dst_inside := hchecked.dst_inside
    disjoint := hchecked.disjoint
    rdata_index := rfl
    rdata_word := List.forall_mem_nil _ }

/-- It copies the registers, once CMD holds its word. -/
theorem Job.copies_of_check {addrW : Nat} {c : Codec} {v : Word} {j : Job} (h : checkCommand addrW c v = .ok j)
    (hcmd : c.cmd = v) : Job.Copies c j := by
  obtain ⟨m, hm, rfl, hchecked⟩ := checkCommand_ok h
  exact ⟨hcmd ▸ hm, rfl, rfl, rfl, hchecked.srcLen, hchecked.dstCap⟩

/-- The copies speak of neither the flags, the phase and the claims nor the progress of the command. -/
theorem Job.Copies.with_progress {c : Codec} {j : Job} (h : Job.Copies c j) {ie drop : Bool} {phase : Phase}
    {claims : List Claim} {raced : List Extent} {pos : Nat} {rdata : List (Nat × Nat)} :
    Job.Copies { c with ie := ie, drop := drop, phase := phase, claims := claims, raced := raced }
      { j with pos := pos, rdata := rdata } :=
  ⟨h.cmd, h.count, h.src, h.dst, h.srcLen, h.dstCap⟩

/-- The claim of a running command lies in data memory and is a whole number of words. -/
theorem Job.Inv.claim {addrW : Nat} {j : Job} (h : j.Inv addrW) : (jobClaim j).Inv addrW :=
  ⟨h.dst_inside, Width.bytes_pos _, Nat.mul_mod_left _ _⟩

/-! ### Writes to the registers of a codec -/

theorem Codec.phase_cases (c : Codec) : c.phase = .idle ∨ ∃ j, c.phase = .run j := by
  cases c.phase <;> simp

/-- A codec that runs no command and is not in reset. -/
theorem Codec.Inv.of_idle {addrW : Nat} {c : Codec} (hp : c.phase = .idle) (hr : c.inReset = false)
    (herr : c.err ≠ .ok → c.done = true ∧ c.words = 0) (hraced : c.raced = []) (hclaims : ∀ cl ∈ c.claims, cl.Inv addrW) :
    c.Inv addrW where
  busy_clear hb := by simp [Codec.busy_of_idle hp] at hb
  err_done he := (herr he).1
  err_words he := (herr he).2
  in_reset hr' := by simp [hr] at hr'
  job j hj := by simp [hp] at hj
  claims := hclaims
  raced_run _ := hraced

/-- A codec that runs command `j`. -/
theorem Codec.Inv.of_run {addrW : Nat} {c : Codec} {j : Job} (hp : c.phase = .run j) (hr : c.inReset = false)
    (hclear : c.done = false ∧ c.err = .ok ∧ c.words = 0) (hj : j.Inv addrW) (hcopies : Job.Copies c j)
    (hhead : c.claims.head? = some (jobClaim j)) (hclaims : ∀ cl ∈ c.claims, cl.Inv addrW) : c.Inv addrW where
  busy_clear _ := hclear
  err_done he := absurd hclear.2.1 he
  err_words he := absurd hclear.2.1 he
  in_reset hr' := by simp [hr] at hr'
  job j' hj' := by
    obtain rfl : j = j' := by simpa [hp] using hj'
    exact ⟨hj, hcopies, hhead⟩
  claims := hclaims
  raced_run hi := by simp [hp] at hi

/-- What the invariant says of a running codec. -/
theorem Codec.Inv.run {addrW : Nat} {c : Codec} {j : Job} (h : c.Inv addrW) (hp : c.phase = .run j) :
    c.inReset = false ∧ (c.done = false ∧ c.err = .ok ∧ c.words = 0) ∧ j.Inv addrW ∧ Job.Copies c j
      ∧ c.claims.head? = some (jobClaim j) := by
  refine ⟨?_, h.busy_clear (Codec.busy_of_run hp), h.job j hp⟩
  refine Bool.eq_false_iff.2 fun hr => ?_
  rw [h.in_reset hr] at hp
  cases hp

theorem Codec.Inv.err_ended {addrW : Nat} {c : Codec} (h : c.Inv addrW) (he : c.err ≠ .ok) : c.done = true ∧ c.words = 0 :=
  ⟨h.err_done he, h.err_words he⟩

/-- IE, DROP and the record of races are free while the codec runs: no other part depends on them. -/
theorem Codec.Inv.with_flags_of_run {addrW : Nat} {c : Codec} {j : Job} (h : c.Inv addrW) (hp : c.phase = .run j)
    (ie drop : Bool) (raced : List Extent) : Codec.Inv addrW { c with ie := ie, drop := drop, raced := raced } := by
  obtain ⟨hr, hclear, hj, hcopies, hhead⟩ := h.run hp
  exact .of_run hp hr hclear hj hcopies.with_progress hhead
    h.claims

theorem Codec.Inv.noteWrite {addrW : Nat} {c : Codec} (h : c.Inv addrW) (x : Extent) : (c.noteWrite x).Inv addrW := by
  rcases c.phase_cases with hp | ⟨j, hp⟩
  · rwa [show c.noteWrite x = c by simp [Codec.noteWrite, hp]]
  · rw [Codec.noteWrite_raced_only]
    exact h.with_flags_of_run hp _ _ _

theorem forall_inv_noteWrite {addrW : Nat} {cs : List Codec} (h : ∀ c ∈ cs, c.Inv addrW) (x : Extent) :
    ∀ c ∈ cs.map (Codec.noteWrite x), c.Inv addrW :=
  List.forall_mem_map.2 fun c hc => (h c hc).noteWrite x

theorem Codec.Inv.dropWrite {addrW : Nat} {c : Codec} (h : c.Inv addrW) (hb : c.busy = true) : c.dropWrite.Inv addrW := by
  obtain ⟨j, hp⟩ := (Codec.busy_iff c).1 hb
  exact h.with_flags_of_run hp c.ie true c.raced

theorem Codec.Inv.with_ie {addrW : Nat} {c : Codec} (h : c.Inv addrW) (hr : c.inReset = false) (ie : Bool) :
    Codec.Inv addrW { c with ie := ie } := by
  rcases c.phase_cases with hp | ⟨j, hp⟩
  · exact .of_idle hp hr h.err_ended (h.raced_run hp) h.claims
  · exact h.with_flags_of_run hp ie c.drop c.raced

/-- An acknowledgement clears DONE and ERR together. -/
theorem Codec.Inv.acknowledge {addrW : Nat} {c : Codec} (h : c.Inv addrW) (hr : c.inReset = false) (v : Word) :
    (c.acknowledge v).Inv addrW := by
  rcases c.phase_cases with hp | ⟨j, hp⟩
  · refine .of_idle hp hr (fun he => ?_) (h.raced_run hp) h.claims
    rw [Codec.acknowledge_err] at he
    rw [Codec.acknowledge_done, Codec.acknowledge_words]
    split at he
    case isTrue => exact absurd rfl he
    case isFalse hv =>
      rw [if_neg hv]
      exact h.err_ended he
  · obtain ⟨-, ⟨hdone, herr, -⟩, -⟩ := h.run hp
    have hack : c.acknowledge v = { c with ie := c.ie, drop := (c.acknowledge v).drop, raced := c.raced } := by
      simp [Codec.acknowledge, hdone, herr]
    rw [hack]
    exact h.with_flags_of_run hp _ _ _

/-- The operand registers of an idle codec are free. -/
theorem Codec.Inv.with_operands {addrW : Nat} {c : Codec} (h : c.Inv addrW) (hr : c.inReset = false) (hb : c.busy = false)
    (sb sl db dc n : Word) :
    Codec.Inv addrW { c with srcBase := sb, srcLen := sl, dstBase := db, dstCap := dc, count := n } :=
  have hp := Codec.idle_of_not_busy hb
  .of_idle hp hr h.err_ended (h.raced_run hp) h.claims

/-- A STATUS read ends the claims of no running codec, since it has DONE = 0. -/
theorem Codec.Inv.seen {addrW : Nat} {c : Codec} (h : c.Inv addrW) : c.seen.Inv addrW := by
  unfold Codec.seen
  split
  case isFalse => exact h
  case isTrue hdone =>
    have hp : c.phase = .idle := by
      refine Codec.idle_of_not_busy (Bool.eq_false_iff.2 fun hb => ?_)
      simp [(h.busy_clear hb).1] at hdone
    have hr : c.inReset = false := by
      refine Bool.eq_false_iff.2 fun hr => ?_
      rw [h.in_reset hr] at hdone
      cases hdone
    exact .of_idle hp hr h.err_ended (h.raced_run hp) (List.forall_mem_nil _)

/-! ### Reset -/

theorem Codec.resetState_inv {addrW b : Nat} {asserted : Bool} {cls : List Claim} (hcls : ∀ cl ∈ cls, cl.Inv addrW) :
    (Codec.resetState b asserted cls).Inv addrW where
  busy_clear hb := by cases hb
  err_done he := absurd rfl he
  err_words _ := rfl
  in_reset hr := by obtain rfl : asserted = true := hr; rfl
  job j hj := by cases hj
  claims := hcls
  raced_run _ := rfl

/-- A codec in reset is in its reset state, and stays in it when the input is released. -/
theorem Codec.Inv.release {addrW : Nat} {c : Codec} (h : c.Inv addrW) : Codec.Inv addrW { c with inReset := false } := by
  cases hr : c.inReset with
  | true =>
    rw [h.in_reset hr]
    exact Codec.resetState_inv h.claims
  | false =>
    rw [← hr]
    exact h

/-! ### Instructions -/

theorem writeAlways_inv {addrW : Nat} {f : Codec → Codec} {s t : State} (h : s.codec.Inv addrW)
    (ht : writeAlways f s = .next t) (hf : s.codec.inReset = false → (f s.codec).Inv addrW) : t.codec.Inv addrW := by
  obtain ⟨u, hu, hheld, hmade⟩ := writeAlways_next f s
  obtain rfl : u = t := by simpa [hu] using ht
  cases hr : s.codec.inReset with
  | true => rwa [hheld hr]
  | false => rw [hmade hr]; exact hf hr

theorem writeOperand_inv {addrW : Nat} {f : Codec → Codec} {s t : State} (h : s.codec.Inv addrW)
    (ht : writeOperand f s = .next t) (hf : s.codec.inReset = false → s.codec.busy = false → (f s.codec).Inv addrW) :
    t.codec.Inv addrW :=
  writeAlways_inv h ht fun hr => by
    split
    case isTrue hb => exact h.dropWrite hb
    case isFalse hb => exact hf hr (by simpa using hb)

/-- Acceptance by an idle codec: it fails, completes or starts. -/
theorem acceptCommand_inv {v : Word} {s t : State} (h : s.codec.Inv s.platform.addrW) (hr : s.codec.inReset = false)
    (hb : s.codec.busy = false) (ht : acceptCommand v s = .next t) : t.codec.Inv s.platform.addrW := by
  have hp := Codec.idle_of_not_busy hb
  rcases acceptCommand_cases v s with ⟨e, -, ha⟩ | ⟨j, hj, ⟨-, ha⟩ | ⟨-, -, ha⟩ | ⟨hlen, -, ha⟩⟩ <;> rw [ha] at ht <;> cases ht
  · exact .of_idle rfl hr (fun _ => ⟨rfl, rfl⟩) (h.raced_run hp) h.claims
  · exact .of_idle rfl hr (fun _ => ⟨rfl, rfl⟩) (h.raced_run hp) h.claims
  · have hinv := Job.inv_of_check hj hlen
    have hcopies := Job.copies_of_check hj rfl
    exact .of_run rfl hr ⟨rfl, rfl, rfl⟩ hinv
      hcopies.with_progress rfl
      (List.forall_mem_cons.2 ⟨hinv.claim, h.claims⟩)

theorem writeCommand_inv {v : Word} {s t : State} (h : s.codec.Inv s.platform.addrW) (ht : writeCommand v s = .next t) :
    t.codec.Inv s.platform.addrW := by
  rcases writeCommand_cases v s with ⟨-, hw⟩ | ⟨-, hb, hw⟩ | ⟨hr, hb, hw⟩ <;> rw [hw] at ht
  · cases ht; exact h
  · cases ht; exact h.dropWrite hb
  · exact acceptCommand_inv h hr hb ht

theorem exec_codec_inv {i : Instr} {s t : State} (h : s.codec.Inv s.platform.addrW) (ht : exec i s = .next t) :
    t.codec.Inv s.platform.addrW := by
  cases i with
  | regRead off =>
    rw [execRegRead_next ht]
    dsimp only
    split
    · exact h.seen
    · exact h
  | pack | unpack | regWriteCmd => exact writeCommand_inv h ht
  | regWriteCtrl v =>
    dsimp only [exec, execRegWriteCtrl] at ht
    exact writeAlways_inv h ht fun hr => h.with_ie hr _
  | regWriteStatus v =>
    dsimp only [exec, execRegWriteStatus] at ht
    exact writeAlways_inv h ht fun hr => h.acknowledge hr v
  | regWriteSrcBase v =>
    dsimp only [exec, execRegWriteSrcBase] at ht
    exact writeOperand_inv h ht fun hr hb => h.with_operands hr hb v _ _ _ _
  | regWriteSrcLen v =>
    dsimp only [exec, execRegWriteSrcLen] at ht
    exact writeOperand_inv h ht fun hr hb => h.with_operands hr hb _ v _ _ _
  | regWriteDstBase v =>
    dsimp only [exec, execRegWriteDstBase] at ht
    exact writeOperand_inv h ht fun hr hb => h.with_operands hr hb _ _ v _ _
  | regWriteDstCap v =>
    dsimp only [exec, execRegWriteDstCap] at ht
    exact writeOperand_inv h ht fun hr hb => h.with_operands hr hb _ _ _ v _
  | regWriteCount v =>
    dsimp only [exec, execRegWriteCount] at ht
    exact writeOperand_inv h ht fun hr hb => h.with_operands hr hb _ _ _ _ v
  | regWriteWords v =>
    dsimp only [exec, execRegWriteWords] at ht
    exact writeAlways_inv h ht fun _ => h
  | regWriteReserved off v =>
    simp only [exec, execRegWriteReserved] at ht
    split at ht
    · cases ht
    · split at ht
      · cases ht
      · exact writeAlways_inv h ht fun _ => h

end Sys2Proof.Machine
end

section
/-! PROOF. The machine's invariant: selecting a codec keeps it, and so does the move of every agent. -/

namespace Sys2Proof.Machine

theorem State.mem_codecs {s : State} {c : Codec} : c ∈ s.codecs ↔ c = s.codec ∨ c ∈ s.others := by
  simp [State.codecs, State.others, or_left_comm]

theorem State.Inv.codec {s : State} (h : s.Inv) : s.codec.Inv s.platform.addrW := h.codecs _ (State.mem_codecs.2 (.inl rfl))

theorem State.Inv.others {s : State} (h : s.Inv) : ∀ c ∈ s.others, c.Inv s.platform.addrW :=
  fun c hc => h.codecs c (State.mem_codecs.2 (.inr hc))

/-- The invariant, part by part, of a state on the same platform. -/
theorem State.Inv.of_parts {s t : State} (h : s.Inv) (hplat : t.platform = s.platform) (hwf : t.mem.wf = true)
    (hmem : Memory.Inside s.platform.addrW t.mem) (hcodec : t.codec.Inv s.platform.addrW)
    (hothers : ∀ c ∈ t.others, c.Inv s.platform.addrW) : t.Inv := by
  rw [← hplat] at hmem hcodec hothers
  refine ⟨hplat ▸ h.platform, hwf, hmem, fun c hc => ?_⟩
  rcases State.mem_codecs.1 hc with rfl | hc
  · exact hcodec
  · exact hothers c hc

/-- The inputs to come have no part in it. -/
theorem State.Inv.with_inputs {s : State} (h : s.Inv) (is : List Input) : State.Inv { s with inputs := is } :=
  h.of_parts rfl h.mem_wf h.mem_inside h.codec h.others

theorem State.Inv.select {s t : State} {k : Nat} (h : s.Inv) (ht : s.select k = some t) : t.Inv := by
  obtain ⟨hcodecs, -, hframe⟩ := State.select_some ht
  have hplat : t.platform = s.platform := by rw [hframe]
  have hmem : t.mem = s.mem := by rw [hframe]
  exact ⟨hplat ▸ h.platform, hmem ▸ h.mem_wf, hplat ▸ hmem ▸ h.mem_inside, hplat ▸ hcodecs ▸ h.codecs⟩

theorem State.others_noteWrite_inv {s t : State} {x : Extent} (h : s.Inv)
    (hb : t.before = s.before.map (Codec.noteWrite x)) (ha : t.after = s.after.map (Codec.noteWrite x)) :
    ∀ c ∈ t.others, c.Inv s.platform.addrW := by
  rw [State.others, hb, ha, ← List.map_append]
  exact forall_inv_noteWrite h.others x

theorem exec_inv {i : Instr} {s t : State} (h : s.Inv) (ht : exec i s = .next t) : t.Inv := by
  have hcodec := exec_codec_inv h.codec ht
  obtain ⟨hframe, -⟩ := exec_frame ht
  rw [hframe]
  exact h.of_parts rfl h.mem_wf h.mem_inside hcodec h.others

/-! ### Engine steps -/

theorem busFail_inv {j : Job} {s : State} (h : s.Inv) (hp : s.codec.phase = .run j) : (busFail j s).Inv := by
  obtain ⟨hr, -, hj, -, -⟩ := h.codec.run hp
  refine h.of_parts rfl (State.freeRange_wf s _ h.mem_wf) (State.freeRange_memInside h.mem_inside hj.dst_inside) ?_ h.others
  exact .of_idle rfl hr (fun _ => ⟨rfl, rfl⟩) rfl h.codec.claims

/-- Counting an access of a running command `j₀`: `j` is that command with what the access read. -/
theorem advance_inv {j₀ j : Job} {s : State} (h : s.Inv) (hp : s.codec.phase = .run j₀) (hcopies : Job.Copies s.codec j)
    (hclaim : jobClaim j = jobClaim j₀)
    (hnext : j.pos + 1 ≠ jobLength j → Job.Inv s.platform.addrW { j with pos := j.pos + 1 }) : (advance j s).Inv := by
  obtain ⟨hr, hclear, hj₀, -, hhead⟩ := h.codec.run hp
  rw [← hclaim] at hhead
  rcases advance_cases j s with ⟨hlast, ha⟩ | ⟨-, ha⟩ <;> rw [ha]
  · refine h.of_parts rfl h.mem_wf h.mem_inside ?_ h.others
    exact .of_run rfl hr hclear (hnext hlast)
      hcopies.with_progress hhead h.codec.claims
  · have hcl : (jobClaim j).Inv s.platform.addrW := hclaim ▸ hj₀.claim
    refine h.of_parts (by rw [State.spoilRaced_frame]) (State.spoilRaced_wf _ _ _ h.mem_wf)
      (State.spoilRaced_memInside h.mem_inside hcl) ?_ (by rw [State.spoilRaced_frame]; exact h.others)
    exact .of_idle rfl hr (fun he => absurd rfl he) rfl h.codec.claims

theorem State.Inv.engineLoad {s : State} (h : s.Inv) (x : Extent) : (s.engineLoad x).2.Inv := by
  rw [State.engineLoad_frame]
  exact h.of_parts rfl h.mem_wf h.mem_inside h.codec h.others

theorem State.Inv.engineStore {s : State} (h : s.Inv) {x : Extent} (hx : extentInside s.platform.addrW x) (v : Nat) :
    (s.engineStore x v).Inv := by
  have hmem : Memory.Inside s.platform.addrW (s.engineStore x v).mem :=
    State.spoil_memInside (Memory.inside_writeBytes _ h.mem_inside (by simpa using hx))
      fun c hc => (h.others c hc).claims
  have hwf := State.engineStore_wf s x v h.mem_wf
  rw [State.engineStore_frame]
  exact h.of_parts rfl hwf hmem h.codec (State.others_noteWrite_inv (x := x) h rfl rfl)

theorem engineStep_inv {s : State} (h : s.Inv) : (engineStep s).Inv := by
  rcases engineStep_cases s with he | ⟨j, -, hp, hmove⟩
  · rwa [he]
  obtain ⟨-, -, hj, hcopies, -⟩ := h.codec.run hp
  rcases hmove with ⟨i, hi, ⟨-, he⟩ | ⟨-, he⟩⟩ | ⟨k, hk, ⟨-, he⟩ | ⟨-, he⟩⟩ <;> rw [he]
  · exact busFail_inv h hp
  · have hload := h.engineLoad (jobSrcWord j i)
    have hlt := engineLoad_lt_srcWidth s j i
    rw [State.engineLoad_frame] at hload ⊢
    exact advance_inv hload hp hcopies.with_progress rfl
      (hj.after_rd hi hlt)
  · exact busFail_inv h hp
  · have hin : extentInside s.platform.addrW (jobDstWord j k) :=
      jobDstWord_inside hj.dst_inside (lt_of_wr_mem_jobSeq (List.mem_of_getElem? hk))
    have hstore := h.engineStore hin (jobValue j k)
    rw [State.engineStore_frame] at hstore ⊢
    exact advance_inv hstore hp hcopies rfl (hj.after_wr hk)

/-! ### Reset and host access to data memory -/

theorem assertReset_inv {s : State} (h : s.Inv) : (assertReset s).Inv := by
  have hwf := assertReset_wf s h.mem_wf
  have hcodec : (Codec.resetState s.codec.regBase true s.codec.claims).Inv s.platform.addrW :=
    Codec.resetState_inv h.codec.claims
  rcases s.codec.phase_cases with hp | ⟨j, hp⟩
  · rw [(assertReset_eq s).1 hp] at hwf ⊢
    exact h.of_parts rfl hwf h.mem_inside hcodec h.others
  · obtain ⟨-, -, hj, -, -⟩ := h.codec.run hp
    rw [(assertReset_eq s).2 j hp] at hwf ⊢
    exact h.of_parts rfl hwf (State.freeRange_memInside h.mem_inside hj.dst_inside) hcodec h.others

theorem releaseReset_inv {s : State} (h : s.Inv) : (releaseReset s).Inv :=
  h.of_parts rfl h.mem_wf h.mem_inside h.codec.release h.others

theorem hostMemRead_inv {a : Nat} {s t : State} (h : s.Inv) (ht : hostMemRead a s = .next t) : t.Inv := by
  rw [(hostMemRead_next ht).2]
  exact h.of_parts rfl h.mem_wf h.mem_inside h.codec h.others

theorem hostMemWrite_memInside {a : Nat} {v : Byte} {s t : State} (h : s.Inv) (ht : hostMemWrite a v s = .next t) :
    Memory.Inside s.platform.addrW t.mem := by
  have ha := (hostMemWrite_next ht).1
  unfold hostMemWrite at ht
  split at ht
  · cases ht
  · split at ht
    · cases ht
    · cases ht
      exact State.spoil_memInside (Memory.inside_write h.mem_inside ha v) fun c hc => (h.codecs c hc).claims

theorem hostMemWrite_inv {a : Nat} {v : Byte} {s t : State} (h : s.Inv) (ht : hostMemWrite a v s = .next t) : t.Inv := by
  have hwf := hostMemWrite_wf h.mem_wf ht
  have hmem := hostMemWrite_memInside h ht
  rw [(hostMemWrite_next ht).2]
  exact h.of_parts rfl hwf hmem (h.codec.noteWrite _) (State.others_noteWrite_inv (x := ⟨a, 1⟩) h rfl rfl)

/-! ### The move of a step -/

theorem AgentMove.inv {s t : State} (hmove : AgentMove s t) (h : s.Inv) : t.Inv := by
  cases hmove with
  | instr i ht => exact exec_inv h ht
  | engine => exact engineStep_inv h
  | assertReset => exact assertReset_inv h
  | releaseReset => exact releaseReset_inv h
  | memRead a ht => exact hostMemRead_inv h ht
  | memWrite a v ht => exact hostMemWrite_inv h ht
  | idle => exact h

/-- Settles O9: a step takes an input off, selects a codec and moves one agent, and each keeps the invariant. -/
theorem everyStepKeepsTheInvariant : Obligations.EveryStepKeepsTheInvariant := by
  intro s t h hstep
  obtain ⟨k, u, hu, hmove⟩ := step_next hstep
  exact hmove.inv ((h.with_inputs s.inputs.tail).select hu)

end Sys2Proof.Machine
end

section
/-! PROOF. Words and their bytes in memory (20_memory.md R37, R39): which byte of a word stands where in each byte order, and the
little-endian bytes of the packed words as the bitstream. -/

namespace Sys2Proof.Machine

/-! ### The bytes of a word -/

/-- Byte `t` of a word, the least significant first. -/
theorem leBytes_getElem (n v t : Nat) (h : t < (leBytes n v).length) :
    (leBytes n v)[t] = BitVec.ofNat 8 (v / 2 ^ (8 * t)) := by
  induction n generalizing v t with
  | zero => simp [leBytes] at h
  | succ n ih =>
    cases t with
    | zero => simp [leBytes]
    | succ t =>
      have hpow : 2 ^ (8 * (t + 1)) = 256 * 2 ^ (8 * t) := by rw [Nat.mul_succ, Nat.pow_add, Nat.mul_comm]
      rw [hpow, ← Nat.div_div_eq_div_mul]
      exact ih (v / 256) t (by simpa [leBytes] using h)

/-- Bytes written consecutively read back as they were written. -/
theorem Memory.readBytes_writeBytes (bs : List Byte) (m : Memory) (hm : m.wf = true) (a : Nat) :
    Memory.readBytes (Memory.writeBytes m a bs) a bs.length = bs :=
  List.ext_getElem (by simp) fun t _ ht => by
    simp [Memory.readBytes, Memory.read_writeBytes_same bs m hm a t ht]

/-- Settles O50: the bytes written are those of the word in the byte order, and they read back as written. -/
theorem wordsInMemoryFollowTheByteOrder : Obligations.WordsInMemoryFollowTheByteOrder := by
  intro e m a n v hm hv
  have hlen := bytesOfNumber_length e n v
  have hread (t : Nat) (ht : t < n) : Memory.read (Memory.writeBytes m a (bytesOfNumber e n v)) (a + t)
      = (bytesOfNumber e n v)[t]'(hlen.symm ▸ ht) :=
    Memory.read_writeBytes_same _ m hm a t (hlen.symm ▸ ht)
  have hback : Memory.readBytes (Memory.writeBytes m a (bytesOfNumber e n v)) a n = bytesOfNumber e n v := by
    simpa only [hlen] using Memory.readBytes_writeBytes (bytesOfNumber e n v) m hm a
  refine ⟨?le, ?be, ?back, fun b hb => Memory.read_writeBytes_other _ m a b (by rwa [hlen])⟩
  case le =>
    rintro rfl t ht
    rw [hread t ht]
    exact leBytes_getElem n v t _
  case be =>
    rintro rfl t ht
    rw [hread t ht]
    simp only [bytesOfNumber, List.getElem_reverse, leBytes_getElem, leBytes_length]
    rw [show 8 * (n - 1 - t) = 8 * n - 8 * t - 8 by omega]
  case back =>
    rw [hback, numberOfBytes_bytesOfNumber e n v (by rwa [Nat.pow_mul] at hv)]

/-! ### The packed words as bytes -/

/-- Byte `b` of words laid out one after the other is byte `b mod n` of word `floor(b/n)`, and 0 past the last word. -/
theorem flatMap_leBytes_getD {n : Nat} (hn : 0 < n) (ws : List Nat) (b : Nat) :
    (ws.flatMap (leBytes n)).getD b 0 = BitVec.ofNat 8 (ws.getD (b / n) 0 / 2 ^ (8 * (b % n))) := by
  induction ws generalizing b with
  | nil => simp
  | cons x ws ih =>
    rw [List.flatMap_cons]
    rcases Nat.lt_or_ge b n with hb | hb
    · rw [List.getD_append _ _ _ _ (by simpa using hb), Nat.div_eq_of_lt hb, Nat.mod_eq_of_lt hb,
        List.getD_eq_getElem _ _ (by simpa using hb), leBytes_getElem]
      rfl
    · rw [List.getD_append_right _ _ _ _ (by simpa using hb), leBytes_length, ih, Nat.div_eq_sub_div hn hb,
        Nat.mod_eq_sub_mod hb, List.getD_cons_succ]

/-- Bit `p` of the stream is bit `p mod W` of value `floor(p/W)`, and 0 past the last value. -/
theorem packStream_indexed_testBit_eq {w : Nat} (hw : 0 < w) (xs : List Nat) (p : Nat) :
    (packStream w (indexed xs)).testBit p
      = decide (p < xs.length * w ∧ (xs.getD (p / w) 0).testBit (p % w) = true) := by
  rcases Nat.lt_or_ge p (xs.length * w) with hp | hp
  · have hbit := packStream_indexed_testBit w xs (p / w) (p % w) (Nat.mod_lt p hw)
    rw [Nat.div_add_mod'] at hbit
    simp [hbit, hp]
  · simp [packStream_indexed_testBit_padding w xs hp, Nat.not_lt.2 hp]

/-- Settles O51: bit `p` of the buffer is bit `p mod OutW` of packed word `floor(p/OutW)`, which is bit `p` of the stream. -/
theorem littleEndianBytesAreTheBitstream : Obligations.LittleEndianBytesAreTheBitstream := by
  intro outw w xs p hw
  have hword : p / 8 / outw.bytes = p / outw.bits := by rw [Nat.div_div_eq_div_mul, Width.bits_eq_bytes]
  have hbit : 8 * (p / 8 % outw.bytes) + p % 8 = p % outw.bits := by rw [Width.bits_eq_bytes, Nat.mod_mul, Nat.add_comm]
  calc (((packWords outw.bits w xs).flatMap (leBytes outw.bytes)).getD (p / 8) 0).getLsbD (p % 8)
      = ((packWords outw.bits w xs).getD (p / outw.bits) 0).testBit (p % outw.bits) := by
        rw [flatMap_leBytes_getD (Width.bytes_pos outw), hword, BitVec.getLsbD_ofNat, Nat.testBit_div_two_pow, Nat.add_comm, hbit]
        simp [Nat.mod_lt]
    _ = (packStream w (indexed xs)).testBit p := packWords_testBit (Width.bits_pos outw) w xs p
    _ = _ := packStream_indexed_testBit_eq hw xs p

end Sys2Proof.Machine
end

section
/-! PROOF. Ranges as sets of byte addresses (60_exceptions.md R133): when two meet, which bytes the words of a buffer hold, and
which words of a claimed destination a write hits. -/

namespace Sys2Proof.Machine

/-- An address in a range. -/
abbrev extentHas (x : Extent) (a : Nat) : Prop := x.base ≤ a ∧ a < extentEnd x

theorem extentMisses_iff {x : Extent} {a : Nat} : extentMisses x a ↔ ¬ extentHas x a := by
  simp only [extentMisses, extentHas]
  omega

/-- Two ranges meet when they share a byte. -/
theorem extentsMeet_iff {x y : Extent} : extentsMeet x y = true ↔ ∃ a, extentHas x a ∧ extentHas y a := by
  simp only [extentsMeet, extentHas, Bool.and_eq_true, decide_eq_true_eq]
  simp only [extentEnd]
  constructor
  · intro h
    exact ⟨max x.base y.base, by omega⟩
  · rintro ⟨a, h⟩
    omega

@[simp] theorem extentHas_byte {a b : Nat} : extentHas ⟨a, 1⟩ b ↔ b = a := by
  simp only [extentHas, extentEnd]
  omega

/-! ### The words of a command's buffers -/

/-- Word `m` of a buffer of words of `n` bytes holds the bytes whose place in the buffer divides to `m`. -/
theorem mem_word_iff {n : Nat} (hn : 0 < n) (base m b : Nat) :
    base + m * n ≤ b ∧ b < base + m * n + n ↔ base ≤ b ∧ (b - base) / n = m := by
  rw [Nat.div_eq_iff hn]
  omega

theorem extentHas_jobDstWord {j : Job} {m b : Nat} :
    extentHas (jobDstWord j m) b ↔ j.db ≤ b ∧ (b - j.db) / (jobDstWidth j).bytes = m :=
  mem_word_iff (Width.bytes_pos _) j.db m b

/-- The required destination extent is its words. -/
theorem extentHas_jobDst {j : Job} {b : Nat} :
    extentHas (jobDst j) b ↔ ∃ m, m < jobDstWords j ∧ extentHas (jobDstWord j m) b := by
  have hend : (b - j.db) / (jobDstWidth j).bytes < jobDstWords j ↔ b - j.db < jobDstWords j * (jobDstWidth j).bytes :=
    Nat.div_lt_iff_lt_mul (Width.bytes_pos _)
  simp only [extentHas_jobDstWord]
  simp only [extentHas, extentEnd, jobDst]
  constructor
  · rintro ⟨hlo, hhi⟩
    exact ⟨_, hend.2 (by omega), hlo, rfl⟩
  · rintro ⟨m, hm, hlo, rfl⟩
    have := hend.1 hm
    omega

/-- A source word lies in the required source extent. -/
theorem extentHas_jobSrc {j : Job} {i b : Nat} (hi : i < jobSrcWords j) (h : extentHas (jobSrcWord j i) b) :
    extentHas (jobSrc j) b := by
  have hle : (i + 1) * (jobSrcWidth j).bytes ≤ jobSrcWords j * (jobSrcWidth j).bytes := Nat.mul_le_mul_right _ hi
  rw [Nat.succ_mul] at hle
  simp only [extentHas, extentEnd, jobSrc, jobSrcWord] at h ⊢
  omega

/-! ### The words of a claimed destination that a write hits -/

/-- A place in one of the words from that of `lo` to that of `hi` is in the word of a place from `lo` to `hi`: the nearest one. -/
theorem exists_same_word {d lo hi y : Nat} (hd : 0 < d) (hle : lo ≤ hi) (hlo : lo / d * d ≤ y) (hhi : y < (hi / d + 1) * d) :
    ∃ z, lo ≤ z ∧ z ≤ hi ∧ y / d = z / d := by
  have hlo' : lo / d ≤ y / d := (Nat.le_div_iff_mul_le hd).2 hlo
  have hhi' : y / d ≤ hi / d := Nat.lt_succ_iff.1 ((Nat.div_lt_iff_lt_mul hd).2 hhi)
  rcases Nat.lt_or_ge y lo with hy | hy
  · exact ⟨lo, le_rfl, hle, Nat.le_antisymm (Nat.div_le_div_right hy.le) hlo'⟩
  · rcases Nat.lt_or_ge hi y with hy' | hy'
    · exact ⟨hi, hle, le_rfl, Nat.le_antisymm hhi' (Nat.div_le_div_right hy'.le)⟩
    · exact ⟨y, hy, hy', rfl⟩

/-- A range hits the bytes of exactly the destination words that hold a byte of it. -/
theorem extentHas_claimWordsHit {cl : Claim} (hd : 0 < cl.dstBytes) {x : Extent} {b : Nat} :
    extentHas (claimWordsHit cl x) b ↔ ∃ a, extentHas x a ∧ cl.SameWord a b := by
  constructor
  case mpr =>
    rintro ⟨a, ha, hlo, hhi, hb, hw⟩
    exact claimWordsHit_covers cl x a b hd ha ⟨hlo, hhi⟩ hb hw
  case mp =>
    unfold claimWordsHit
    split
    case isFalse =>
      simp only [extentHas, extentEnd]
      omega
    case isTrue hmeet =>
      obtain ⟨c, ⟨hcd, hcd'⟩, hcx, hcx'⟩ := extentsMeet_iff.1 hmeet
      set lo := max x.base cl.dst.base - cl.dst.base with hlo
      set hi := min (extentEnd x) (extentEnd cl.dst) - 1 - cl.dst.base with hhi
      have hle : lo ≤ hi := by omega
      have hwords : lo / cl.dstBytes * cl.dstBytes + (hi / cl.dstBytes + 1 - lo / cl.dstBytes) * cl.dstBytes
          = (hi / cl.dstBytes + 1) * cl.dstBytes := by
        have := Nat.div_le_div_right (c := cl.dstBytes) hle
        rw [← Nat.add_mul, Nat.add_sub_cancel' (by omega)]
      rintro ⟨hb, hb'⟩
      simp only [extentEnd] at hb hb'
      obtain ⟨z, hz, hz', hzb⟩ := exists_same_word (y := b - cl.dst.base) hd hle (by omega) (by omega)
      exact ⟨cl.dst.base + z, by omega, by omega, by omega, by omega, by rw [hzb, Nat.add_sub_cancel_left]⟩

/-- In a running command's destination a range hits the bytes of exactly the words it meets. -/
theorem extentHas_jobClaim_wordsHit {j : Job} {x : Extent} {b : Nat} :
    extentHas (claimWordsHit (jobClaim j) x) b
      ↔ ∃ m, m < jobDstWords j ∧ extentHas (jobDstWord j m) b ∧ extentsMeet (jobDstWord j m) x = true := by
  have hd : 0 < (jobClaim j).dstBytes := Width.bytes_pos _
  rw [extentHas_claimWordsHit hd]
  constructor
  · rintro ⟨a, hax, hlo, hhi, hb, hw⟩
    obtain ⟨m, hm, ham⟩ := extentHas_jobDst.1 ⟨hlo, hhi⟩
    exact ⟨m, hm, extentHas_jobDstWord.2 ⟨hb, hw.trans (extentHas_jobDstWord.1 ham).2⟩, extentsMeet_iff.2 ⟨a, ham, hax⟩⟩
  · rintro ⟨m, hm, hbm, hmeet⟩
    obtain ⟨a, ham, hax⟩ := extentsMeet_iff.1 hmeet
    obtain ⟨hlo, hhi⟩ := extentHas_jobDst.2 ⟨m, hm, ham⟩
    obtain ⟨hb, hbw⟩ := extentHas_jobDstWord.1 hbm
    exact ⟨a, hax, hlo, hhi, hb, hbw.trans (extentHas_jobDstWord.1 ham).2.symm⟩

end Sys2Proof.Machine
end

section
/-! PROOF. Which bytes are draws (20_memory.md R53): ranges drawn one after the other, the words of claimed destinations that a write
spoils, and a read that meets a claimed destination. -/

namespace Sys2Proof.Machine

/-! ### Draws -/

theorem State.drawnAt_freeRanges {s : State} {xs : List Extent} {b : Nat} (hm : s.mem.wf = true)
    (h : ∃ x ∈ xs, extentHas x b) : s.DrawnAt (s.freeRanges xs) b :=
  State.freeRanges_inside s xs hm b h

theorem State.read_freeRanges_of_misses {s : State} {xs : List Extent} {b : Nat} (h : ∀ x ∈ xs, ¬ extentHas x b) :
    Memory.read (s.freeRanges xs).mem b = Memory.read s.mem b :=
  State.freeRanges_outside s xs b fun x hx => extentMisses_iff.2 (h x hx)

/-- A byte drawn stays a draw when more ranges are drawn: it keeps its draw or takes a later one. -/
theorem State.drawnAt_andFreeRanges {s t : State} {b : Nat} (h : s.DrawnAt t b) (hm : t.mem.wf = true) (xs : List Extent) :
    s.DrawnAt (t.freeRanges xs) b := by
  obtain ⟨n, hlo, hhi, hread⟩ := h
  by_cases hx : ∃ x ∈ xs, extentHas x b
  · obtain ⟨n', hlo', hhi', hread'⟩ := State.drawnAt_freeRanges hm hx
    exact ⟨n', by omega, hhi', hread'⟩
  · refine ⟨n, hlo, lt_of_lt_of_le hhi (State.freeRanges_draws_le t xs), ?_⟩
    rw [State.read_freeRanges_of_misses fun x hx' hb => hx ⟨x, hx', hb⟩, hread]

/-! ### Claimed destinations -/

theorem readRaces_iff {x : Extent} {cs : List Codec} :
    readRaces x cs = true ↔ ∃ c ∈ cs, ∃ cl ∈ c.claims, extentsMeet cl.dst x = true := by
  simp [readRaces, Codec.holds]

theorem readRaces_eq_false_of_no_claims {x : Extent} {cs : List Codec} (h : ∀ c ∈ cs, c.claims = []) :
    readRaces x cs = false := by
  refine Bool.eq_false_iff.2 fun hr => ?_
  obtain ⟨c, hc, cl, hcl, -⟩ := readRaces_iff.1 hr
  simp [h c hc] at hcl

theorem Codec.mem_spoiled {x y : Extent} {cs : List Codec} :
    y ∈ cs.flatMap (Codec.spoiled x) ↔ ∃ c ∈ cs, ∃ cl ∈ c.claims, claimWordsHit cl x = y := by
  simp [Codec.spoiled]

@[simp] theorem State.spoil_codecs (x : Extent) (cs : List Codec) (s : State) : (State.spoil x cs s).codecs = s.codecs := by
  rw [State.spoil_frame]
  rfl

/-- A write of another agent makes the words it touches of every claimed destination draws. -/
theorem State.drawnAt_spoil {s : State} {x : Extent} {cs : List Codec} {c : Codec} {cl : Claim} {a b : Nat}
    (hm : s.mem.wf = true) (hc : c ∈ cs) (hcl : cl ∈ c.claims) (hd : 0 < cl.dstBytes) (ha : extentHas x a)
    (hw : cl.SameWord a b) : s.DrawnAt (State.spoil x cs s) b :=
  State.drawnAt_freeRanges hm
    ⟨_, Codec.mem_spoiled.2 ⟨c, hc, cl, hcl, rfl⟩, (extentHas_claimWordsHit hd).2 ⟨a, ha, hw⟩⟩

/-- It leaves every byte that is in no such word. -/
theorem State.read_spoil_of_misses {s : State} {x : Extent} {cs : List Codec} {b : Nat}
    (hd : ∀ c ∈ cs, ∀ cl ∈ c.claims, 0 < cl.dstBytes)
    (h : ∀ c ∈ cs, ∀ cl ∈ c.claims, ∀ a, extentHas x a → ¬ cl.SameWord a b) :
    Memory.read (State.spoil x cs s).mem b = Memory.read s.mem b := by
  refine State.read_freeRanges_of_misses fun y hy hb => ?_
  obtain ⟨c, hc, cl, hcl, rfl⟩ := Codec.mem_spoiled.1 hy
  obtain ⟨a, ha, hw⟩ := (extentHas_claimWordsHit (hd c hc cl hcl)).1 hb
  exact h c hc cl hcl a ha hw

end Sys2Proof.Machine
end

section
/-! PROOF. Host access to data memory (20_memory.md R33, R34, R53): what a read answers and what a write leaves. -/

namespace Sys2Proof.Machine

/-! ### The outcomes of a host access -/

theorem hostMemRead_fault {s : State} {a : Nat} (h : 2 ^ s.platform.addrW ≤ a) : hostMemRead a s = .fault .noSuchAddress :=
  if_pos h

theorem hostMemWrite_fault {s : State} {a : Nat} {v : Byte} (h : 2 ^ s.platform.addrW ≤ a) :
    hostMemWrite a v s = .fault .noSuchAddress :=
  if_pos h

/-- A read inside the model answers the byte, or a draw where a codec claims it. -/
theorem hostMemRead_eq {s : State} {a : Nat} (ha : a < 2 ^ s.platform.addrW) (ho : s.outsideModel ⟨a, 1⟩ = false) :
    hostMemRead a s = if readRaces ⟨a, 1⟩ s.codecs then
      .next { s with readData := (Config.freeByte s.draws).setWidth 64, draws := s.draws + 1 }
    else .next { s with readData := (Memory.read s.mem a).setWidth 64 } := by
  simp only [hostMemRead, Nat.not_le.2 ha, ho, if_false, Bool.false_eq_true]

/-- The byte a host write stores, recorded by the running commands it races, before it spoils any claimed word. -/
def State.hostStored (s : State) (a : Nat) (v : Byte) : State :=
  { s with mem := Memory.write s.mem a v
           before := s.before.map (Codec.noteWrite ⟨a, 1⟩)
           codec := s.codec.noteWrite ⟨a, 1⟩
           after := s.after.map (Codec.noteWrite ⟨a, 1⟩) }

theorem State.hostStored_codecs (s : State) (a : Nat) (v : Byte) :
    (s.hostStored a v).codecs = s.codecs.map (Codec.noteWrite ⟨a, 1⟩) := by
  simp [State.hostStored, State.codecs]

/-- A write inside the model stores the byte and spoils the claimed words that hold it. -/
theorem hostMemWrite_eq {s : State} {a : Nat} {v : Byte} (ha : a < 2 ^ s.platform.addrW) (ho : s.outsideModel ⟨a, 1⟩ = false) :
    hostMemWrite a v s = .next (State.spoil ⟨a, 1⟩ s.codecs (s.hostStored a v)) := by
  simp only [hostMemWrite, Nat.not_le.2 ha, ho, if_false, Bool.false_eq_true, State.hostStored]

/-- Every write that is answered is one inside the model. -/
theorem hostMemWrite_next_eq {s t : State} {a : Nat} {v : Byte} (h : hostMemWrite a v s = .next t) :
    t = State.spoil ⟨a, 1⟩ s.codecs (s.hostStored a v) := by
  unfold hostMemWrite at h
  split at h
  · cases h
  · split at h
    · cases h
    · cases h
      rfl

/-- What a host write never changes: the registers, flags and hidden state of every codec, and the value last read. -/
theorem hostMemWrite_keeps {s t : State} {a : Nat} {v : Byte} (h : hostMemWrite a v s = .next t) :
    List.Forall₂ Codec.SameState s.codecs t.codecs ∧ t.readData = s.readData := by
  refine ⟨?_, by rw [(hostMemWrite_next h).2]⟩
  rw [hostMemWrite_next_eq h, State.spoil_codecs, State.hostStored_codecs]
  exact forall₂_sameState_noteWrite _ _

/-! ### The obligations -/

/-- Settles O52: below `2^ADDR_W` with no claim held, a read meets no claimed destination and a write spoils none. -/
theorem hostMemoryAccess : Obligations.HostMemoryAccess := by
  intro s a v hm ho
  refine ⟨fun ha => ⟨hostMemRead_fault ha, hostMemWrite_fault ha⟩, fun ha hcl => ?_⟩
  have hraces : readRaces ⟨a, 1⟩ s.codecs = false := readRaces_eq_false_of_no_claims hcl
  have hwrite : hostMemWrite a v s = .next (s.hostStored a v) := by
    rw [hostMemWrite_eq ha ho, State.spoil_none _ _ _ hraces]
  obtain ⟨hsame, hread⟩ := hostMemWrite_keeps hwrite
  refine ⟨by rw [hostMemRead_eq ha ho, hraces]; rfl, _, hwrite, ?_, ?_, hread, hsame⟩
  · exact Memory.read_write_same s.mem hm a v
  · exact fun b hb => Memory.read_write_other s.mem a b v hb

theorem flagWord_getElem (b : Bool) (i : Nat) (hi : i < 64) : (flagWord b)[i] = (b && decide (i = 0)) := by
  cases b <;> simp [flagWord]

/-- STATUS reads as DONE in bit 1. -/
theorem statusWord_done (c : Codec) : (statusWord c).getLsbD 1 = c.done := by
  simp [statusWord, flagWord_getElem]

/-- Settles O54: a claimed destination makes the read a draw, and a STATUS read with DONE = 1 ends the claims. -/
theorem unsettledDestinationReadsAreDraws : Obligations.UnsettledDestinationReadsAreDraws := by
  refine ⟨fun s a c cl hc hcl hmeet ha ho => ?_, fun s hdone => ?_⟩
  · rw [hostMemRead_eq ha ho, if_pos (readRaces_iff.2 ⟨c, hc, cl, hcl, hmeet⟩)]
  · exact ⟨{ s with readData := statusWord s.codec, codec := s.codec.seen }, rfl, by simp [hdone],
      (statusWord_done s.codec).trans hdone⟩

/-- Settles O57: the words spoiled are those that hold the byte written, and nothing is stored beside it. -/
theorem hostWritesSpoilClaimedDestinations : Obligations.HostWritesSpoilClaimedDestinations := by
  intro s t a v hinv ht
  have hd : ∀ c ∈ s.codecs, ∀ cl ∈ c.claims, 0 < cl.dstBytes := fun c hc cl hcl => ((hinv.codecs c hc).claims cl hcl).bytes_pos
  refine ⟨fun c hc cl hcl b hw => ?_, fun b hb hmiss => ?_, hostMemWrite_keeps ht⟩
  · rw [hostMemWrite_next_eq ht]
    exact State.drawnAt_spoil (s := s.hostStored a v) (Memory.wf_write _ hinv.mem_wf a v) hc hcl (hd c hc cl hcl)
      (extentHas_byte.2 rfl) hw
  · rw [hostMemWrite_next_eq ht, State.read_spoil_of_misses hd fun c hc cl hcl a' ha' => ?_]
    · exact Memory.read_write_other s.mem a b v hb
    · rw [extentHas_byte.1 ha']
      exact hmiss c hc cl hcl

end Sys2Proof.Machine
end

section
/-! PROOF. Races of the engine (20_memory.md R53, 70_reset_and_hazards.md R155, R158): what its read gives, which bytes its write and
its completion change, and what is left to draws. -/

namespace Sys2Proof.Machine

/-! ### Which access an engine step makes -/

theorem engineStep_rd {s : State} {j : Job} {i : Nat} (hr : s.codec.inReset = false) (hp : s.codec.phase = .run j)
    (hi : (jobSeq j)[j.pos]? = some (.rd i)) (hok : s.busOK (jobSrcWord j i) .read = true) :
    engineStep s = advance { j with rdata := j.rdata ++ [(i, (s.engineLoad (jobSrcWord j i)).1)] }
      (s.engineLoad (jobSrcWord j i)).2 := by
  simp [engineStep, engineRead, hr, hp, hi, hok]

theorem engineStep_wr {s : State} {j : Job} {k : Nat} (hr : s.codec.inReset = false) (hp : s.codec.phase = .run j)
    (hk : (jobSeq j)[j.pos]? = some (.wr k)) (hok : s.busOK (jobDstWord j k) .write = true) :
    engineStep s = advance j (s.engineStore (jobDstWord j k) (jobValue j k)) := by
  simp [engineStep, engineWrite, hr, hp, hk, hok]

theorem advance_of_not_last {j : Job} {s : State} (h : j.pos + 1 ≠ jobLength j) :
    advance j s = { s with codec := { s.codec with phase := .run { j with pos := j.pos + 1 } } } :=
  if_neg h

theorem advance_of_last {j : Job} {s : State} (h : j.pos + 1 = jobLength j) :
    advance j s = { s.spoilRaced (jobClaim j) s.codec.raced with
      codec := { s.codec.complete (jobPackedWords j) with raced := [] } } :=
  (advance_cases j s).elim (fun hc => absurd h hc.1) And.right

/-! ### Engine reads -/

/-- A read that meets another agent's write or another codec's claimed destination is a draw. -/
theorem State.engineLoad_of_races {s : State} {x : Extent}
    (h : (∃ r ∈ s.codec.raced, extentsMeet r x = true)
      ∨ ∃ c ∈ s.others, ∃ cl ∈ c.claims, extentsMeet cl.dst x = true) :
    s.engineLoad x = (numberOfBytes s.platform.endian (s.freeBytes x.len), { s with draws := s.draws + x.len }) := by
  refine if_pos ?_
  rwa [Bool.or_eq_true, List.any_eq_true, readRaces_iff]

/-- Settles O58: the load is a draw, and counting an access that is not the last changes POS and RDATA only. -/
theorem racedEngineReadsAreDraws : Obligations.RacedEngineReadsAreDraws := by
  intro s j i hr hp hi hok hlast hraces
  rw [engineStep_rd hr hp hi hok, State.engineLoad_of_races hraces]
  exact advance_of_not_last hlast

/-- A running command records a write of another agent that meets its source or destination. -/
theorem Codec.noteWrite_of_meets {c : Codec} {j : Job} {x : Extent} (hp : c.phase = .run j)
    (h : extentsMeet (jobSrc j) x = true ∨ extentsMeet (jobDst j) x = true) :
    c.noteWrite x = { c with raced := x :: c.raced } := by
  rw [← Bool.or_eq_true] at h
  simp [Codec.noteWrite, hp, h]

/-- Settles O53: the running command records the host's write, so its read is a draw by O58. -/
theorem racedSourceWordsReadAsDraws : Obligations.RacedSourceWordsReadAsDraws := by
  intro s t j a i v hr hp hi hmeet ht hrd hok hlast
  have hsrc : extentsMeet (jobSrc j) ⟨a, 1⟩ = true := by
    obtain ⟨b, hb, hba⟩ := extentsMeet_iff.1 hmeet
    exact extentsMeet_iff.2 ⟨b, extentHas_jobSrc hi hb, hba⟩
  have hplat : t.platform = s.platform := (hostMemWrite_samePlatform ht).1
  have hcodec : t.codec = { s.codec with raced := ⟨a, 1⟩ :: s.codec.raced } := by
    rw [← Codec.noteWrite_of_meets hp (.inl hsrc), (hostMemWrite_next ht).2]
  have hrace : ∃ x ∈ t.codec.raced, extentsMeet x (jobSrcWord j i) = true := by
    rw [extentsMeet_iff] at hmeet
    exact ⟨⟨a, 1⟩, by simp [hcodec], extentsMeet_iff.2 (by simpa only [and_comm] using hmeet)⟩
  have hstep := racedEngineReadsAreDraws t j i (by rw [hcodec]; exact hr) (by rw [hcodec]; exact hp) hrd
    (by rwa [State.busOK, hplat]) hlast (.inl hrace)
  rw [hplat, hcodec] at hstep
  rw [hstep]
  exact ⟨rfl, rfl, rfl, rfl, rfl, rfl⟩

/-! ### Engine writes -/

/-- Where no other codec claims the destination, none claims a word of it. -/
theorem State.alone_jobDstWord {s : State} {j : Job} {k : Nat} (h : s.alone (jobDst j) = true) (hk : k < jobDstWords j) :
    readRaces (jobDstWord j k) s.others = false := by
  rw [State.alone, Bool.not_eq_true'] at h
  refine Bool.eq_false_iff.2 fun hr => Bool.eq_false_iff.1 h ?_
  obtain ⟨c, hc, cl, hcl, hmeet⟩ := readRaces_iff.1 hr
  obtain ⟨b, hb, hbk⟩ := extentsMeet_iff.1 hmeet
  exact readRaces_iff.2 ⟨c, hc, cl, hcl, extentsMeet_iff.2 ⟨b, hb, extentHas_jobDst.2 ⟨k, hk, hbk⟩⟩⟩

/-- A word no other codec claims is stored, and no other byte changes. -/
theorem State.engineStore_mem {s : State} {x : Extent} (h : readRaces x s.others = false) (v : Nat) :
    (s.engineStore x v).mem = Memory.writeBytes s.mem x.base (bytesOfNumber s.platform.endian x.len v) := by
  rw [State.engineStore, State.spoil_none _ _ _ h]

theorem State.read_engineStore_of_misses {s : State} {x : Extent} {b : Nat} (h : readRaces x s.others = false) (v : Nat)
    (hb : ¬ extentHas x b) : Memory.read (s.engineStore x v).mem b = Memory.read s.mem b := by
  rw [State.engineStore_mem h]
  exact Memory.read_writeBytes_other _ _ _ _ (by rw [bytesOfNumber_length]; exact extentMisses_iff.2 hb)

/-- Completion draws only bytes of destination words that a racing write met. -/
theorem State.read_spoilRaced_of_misses {s : State} {j : Job} {raced : List Extent} {b : Nat}
    (h : ∀ x ∈ raced, ∀ m, m < jobDstWords j → extentHas (jobDstWord j m) b → extentsMeet (jobDstWord j m) x = false) :
    Memory.read (s.spoilRaced (jobClaim j) raced).mem b = Memory.read s.mem b := by
  refine State.read_freeRanges_of_misses fun y hy hb => ?_
  obtain ⟨x, hx, rfl⟩ := List.mem_map.1 hy
  obtain ⟨m, hm, hbm, hmeet⟩ := extentHas_jobClaim_wordsHit.1 hb
  simp [h x hx m hm hbm] at hmeet

/-- Counting an access changes no byte outside the destination. -/
theorem read_advance_of_misses {j : Job} {s : State} {a : Nat} (ha : ¬ extentHas (jobDst j) a) :
    Memory.read (advance j s).mem a = Memory.read s.mem a := by
  rcases advance_cases j s with ⟨-, h⟩ | ⟨-, h⟩ <;> rw [h]
  exact State.read_spoilRaced_of_misses fun x _ m hm ham => absurd (extentHas_jobDst.2 ⟨m, hm, ham⟩) ha

/-- Settles O37: a refused access draws over the destination, a write stores a word of it, and completion draws words of it. -/
theorem engineStepsWriteOnlyTheDestination : Obligations.EngineStepsWriteOnlyTheDestination := by
  intro s j hp _ halone a ha
  rcases engineStep_cases s with h | ⟨j', -, hp', hmove⟩
  · rw [h]
  obtain rfl : j' = j := by simpa [hp] using hp'.symm
  have ha' := extentMisses_iff.1 ha
  rcases hmove with ⟨i, -, ⟨-, h⟩ | ⟨-, h⟩⟩ | ⟨k, hk, ⟨-, h⟩ | ⟨-, h⟩⟩ <;> rw [h]
  · exact State.freeRange_outside s _ a ha
  · refine (read_advance_of_misses ?_).trans ?_
    · exact ha'
    · rw [State.engineLoad_frame]
  · exact State.freeRange_outside s _ a ha
  · have hkw : k < jobDstWords j' := lt_of_wr_mem_jobSeq (List.mem_of_getElem? hk)
    rw [read_advance_of_misses ha', State.read_engineStore_of_misses (State.alone_jobDstWord halone hkw)]
    exact fun hak => ha' (extentHas_jobDst.2 ⟨k, hkw, hak⟩)

/-- A byte at place `n` of destination word `m`. -/
theorem extentHas_jobDstWord_byte {j : Job} {m n : Nat} (hn : n < (jobDstWidth j).bytes) :
    extentHas (jobDstWord j m) ((jobDstWord j m).base + n) :=
  ⟨Nat.le_add_right _ _, Nat.add_lt_add_left hn _⟩

/-- Settles O55: the last access stores its word, and completion draws exactly the words that a racing write met. -/
theorem racedDestinationWordsEndAsDraws : Obligations.RacedDestinationWordsEndAsDraws := by
  intro s j k hm hr hp hk hok hlast halone _
  have hkw : k < jobDstWords j := lt_of_wr_mem_jobSeq (List.mem_of_getElem? hk)
  have hraces := State.alone_jobDstWord halone hkw
  set t := s.engineStore (jobDstWord j k) (jobValue j k) with ht
  have htc : t.codec = s.codec := by rw [ht, State.engineStore_frame]
  have htd : t.draws = s.draws := by rw [ht, State.engineStore, State.spoil_none _ _ _ hraces]
  have hstep : engineStep s = { t.spoilRaced (jobClaim j) s.codec.raced with
      codec := { s.codec.complete (jobPackedWords j) with raced := [] } } := by
    rw [engineStep_wr hr hp hk hok, advance_of_last hlast, ← ht, htc]
  rw [hstep]
  refine ⟨fun x hx m hmw hmeet n hn => ?_, fun m hmw hne hmiss n hn => ?_, rfl⟩
  · have hdrawn : t.DrawnAt (t.spoilRaced (jobClaim j) s.codec.raced) ((jobDstWord j m).base + n) :=
      State.drawnAt_freeRanges (State.engineStore_wf s _ _ hm) ⟨_, List.mem_map_of_mem hx,
        extentHas_jobClaim_wordsHit.2 ⟨m, hmw, extentHas_jobDstWord_byte hn, hmeet⟩⟩
    rwa [State.DrawnAt, htd] at hdrawn
  · have hword : ∀ m', extentHas (jobDstWord j m') ((jobDstWord j m).base + n) → m' = m := fun m' h =>
      (extentHas_jobDstWord.1 h).2.symm.trans (extentHas_jobDstWord.1 (extentHas_jobDstWord_byte hn)).2
    calc Memory.read (t.spoilRaced (jobClaim j) s.codec.raced).mem ((jobDstWord j m).base + n)
        = Memory.read t.mem ((jobDstWord j m).base + n) :=
          State.read_spoilRaced_of_misses fun x hx m' _ hb => by rw [hword m' hb]; exact hmiss x hx
      _ = Memory.read s.mem ((jobDstWord j m).base + n) :=
          State.read_engineStore_of_misses hraces _ fun hb => hne (hword k hb).symm

/-! ### Engine writes into a destination another codec claims -/

theorem advance_others (j : Job) (s : State) : (advance j s).others = s.others := by
  rcases advance_cases j s with ⟨-, h⟩ | ⟨-, h⟩ <;> rw [h]
  · rfl
  · rw [State.spoilRaced_frame]
    rfl

/-- The word an engine write stores, recorded by the running commands of the other codecs, before it spoils any claimed word. -/
def State.engineStored (s : State) (x : Extent) (v : Nat) : State :=
  { s with mem := Memory.writeBytes s.mem x.base (bytesOfNumber s.platform.endian x.len v)
           before := s.before.map (Codec.noteWrite x)
           after := s.after.map (Codec.noteWrite x) }

theorem State.engineStore_eq (s : State) (x : Extent) (v : Nat) :
    s.engineStore x v = State.spoil x s.others (s.engineStored x v) := rfl

theorem State.engineStore_others (s : State) (x : Extent) (v : Nat) :
    (s.engineStore x v).others = s.others.map (Codec.noteWrite x) := by
  rw [State.engineStore_frame, State.others, State.others, List.map_append]

/-- Counting an access keeps a draw a draw. -/
theorem drawnAt_andAdvance {s t : State} {b : Nat} (h : s.DrawnAt t b) (hm : t.mem.wf = true) (j : Job) :
    s.DrawnAt (advance j t) b := by
  rcases advance_cases j t with ⟨-, ha⟩ | ⟨-, ha⟩ <;> rw [ha]
  · exact h
  · exact State.drawnAt_andFreeRanges h hm _

/-- Settles O59: the store spoils the words it touches and every other codec notes the write; counting the access keeps both. -/
theorem engineWritesSpoilClaimedDestinations : Obligations.EngineWritesSpoilClaimedDestinations := by
  intro s j k hinv hp hk hok
  obtain ⟨hr, -⟩ := hinv.codec.run hp
  rw [engineStep_wr hr hp hk hok]
  constructor
  · intro c hc cl hcl a b hlo hhi hw
    refine drawnAt_andAdvance ?_ (State.engineStore_wf s _ _ hinv.mem_wf) j
    rw [State.engineStore_eq]
    exact State.drawnAt_spoil (s := s.engineStored _ _) (Memory.wf_writeBytes _ _ hinv.mem_wf _) hc hcl
      ((hinv.others c hc).claims cl hcl).bytes_pos ⟨hlo, hhi⟩ hw
  · rw [advance_others, State.engineStore_others, List.forall₂_map_right_iff, List.forall₂_same]
    refine fun c _ => ⟨Codec.noteWrite_raced_only _ c, fun j' hp' hmeet => ?_⟩
    rw [Codec.noteWrite_of_meets hp' hmeet]

end Sys2Proof.Machine
end

section
/-! PROOF. How long a claim lasts (20_memory.md R47, R48; 70_reset_and_hazards.md R155, R157): over every move of every agent but a host
read of STATUS with DONE = 1. -/

namespace Sys2Proof.Machine

/-- The next input ends the claims of `c`: a 64-bit host read of its STATUS while its DONE is 1. -/
def Codec.SeenBy (c : Codec) (i : Option Input) : Prop :=
  c.done = true ∧ ∃ data, i = some (.access .read (c.regBase + 0x08) 8 data)

/-- Every codec keeps its claims, unless the next input ends them. -/
abbrev State.ClaimsKept (i : Option Input) (s t : State) : Prop :=
  List.Forall₂ (fun c d => c.claims ⊆ d.claims ∨ c.SeenBy i) s.codecs t.codecs

theorem claims_subset_of_sameState {cs ds : List Codec} (h : List.Forall₂ Codec.SameState cs ds) (i : Option Input) :
    List.Forall₂ (fun c d => c.claims ⊆ d.claims ∨ c.SeenBy i) cs ds :=
  h.imp fun c d hcd => .inl (by rw [hcd]; exact List.Subset.refl _)

/-- The codecs stand in three parts of the state; only the selected one may end claims. -/
theorem State.claimsKept_of_parts {i : Option Input} {s t : State} (hb : List.Forall₂ Codec.SameState s.before t.before)
    (hc : s.codec.claims ⊆ t.codec.claims ∨ s.codec.SeenBy i) (ha : List.Forall₂ Codec.SameState s.after t.after) :
    s.ClaimsKept i t :=
  List.rel_append (claims_subset_of_sameState hb i) (.cons hc (claims_subset_of_sameState ha i))

/-! ### Instructions -/

theorem writeAlways_claims {f : Codec → Codec} {s t : State} (h : writeAlways f s = .next t)
    (hf : ∀ c, (f c).claims = c.claims) : s.codec.claims ⊆ t.codec.claims := by
  obtain ⟨u, hu, hheld, hmade⟩ := writeAlways_next f s
  obtain rfl : u = t := by simpa [hu] using h
  cases hr : s.codec.inReset with
  | true => rw [hheld hr]; exact List.Subset.refl _
  | false => rw [hmade hr]; exact (hf s.codec) ▸ List.Subset.refl _

theorem writeOperand_claims {f : Codec → Codec} {s t : State} (h : writeOperand f s = .next t)
    (hf : ∀ c, (f c).claims = c.claims) : s.codec.claims ⊆ t.codec.claims :=
  writeAlways_claims h fun c => by split <;> simp [hf]

/-- Taking a command ends no claim, and a command that starts adds its own. -/
theorem writeCommand_claims {v : Word} {s t : State} (h : writeCommand v s = .next t) : s.codec.claims ⊆ t.codec.claims := by
  rcases writeCommand_cases v s with ⟨-, hw⟩ | ⟨-, -, hw⟩ | ⟨-, -, hw⟩ <;> rw [hw] at h
  · cases h; exact List.Subset.refl _
  · cases h; exact List.Subset.refl _
  · rcases acceptCommand_cases v s with ⟨e, -, ha⟩ | ⟨j, -, ⟨-, ha⟩ | ⟨-, -, ha⟩ | ⟨-, -, ha⟩⟩ <;> rw [ha] at h <;> cases h
    · exact List.Subset.refl _
    · exact List.Subset.refl _
    · exact List.subset_cons_self _ _

/-- Only a STATUS read with DONE = 1 ends claims. -/
theorem exec_claims {i : Instr} {s t : State} (h : exec i s = .next t) :
    s.codec.claims ⊆ t.codec.claims ∨ (i = .regRead 0x08 ∧ s.codec.done = true) := by
  cases i with
  | regRead off =>
    rw [execRegRead_next h]
    by_cases hread : off = 0x08 ∧ s.codec.done = true
    · exact .inr ⟨by rw [hread.1], hread.2⟩
    · refine .inl ?_
      dsimp only
      split
      case isTrue hoff => rw [Codec.seen_claims, if_neg fun hd => hread ⟨hoff, hd⟩]; exact List.Subset.refl _
      case isFalse => exact List.Subset.refl _
  | pack | unpack | regWriteCmd => exact .inl (writeCommand_claims h)
  | regWriteCtrl | regWriteStatus | regWriteWords =>
    dsimp only [exec, execRegWriteCtrl, execRegWriteStatus, execRegWriteWords] at h
    exact .inl (writeAlways_claims h fun _ => rfl)
  | regWriteSrcBase | regWriteSrcLen | regWriteDstBase | regWriteDstCap | regWriteCount =>
    dsimp only [exec, execRegWriteSrcBase, execRegWriteSrcLen, execRegWriteDstBase, execRegWriteDstCap, execRegWriteCount] at h
    exact .inl (writeOperand_claims h fun _ => rfl)
  | regWriteReserved off v =>
    simp only [exec, execRegWriteReserved] at h
    split at h
    · cases h
    · split at h
      · cases h
      · exact .inl (writeAlways_claims h fun _ => rfl)

/-- An instruction that is a STATUS read only where the input reads STATUS keeps the claims. -/
theorem exec_claimsKept {i : Option Input} {instr : Instr} {s t : State} (h : exec instr s = .next t)
    (hi : instr = .regRead 0x08 → ∃ data, i = some (.access .read (s.codec.regBase + 0x08) 8 data)) : s.ClaimsKept i t := by
  obtain ⟨hframe, -⟩ := exec_frame h
  refine State.claimsKept_of_parts ?_ ((exec_claims h).imp_right fun hr => ⟨hr.2, hi hr.1⟩) ?_
  · rw [hframe]; exact forall₂_sameState_refl _
  · rw [hframe]; exact forall₂_sameState_refl _

/-! ### Which inputs read STATUS -/

theorem decodeWrite_ne_regRead (off : Nat) (v : Word) (o : BitVec 8) : decodeWrite off v ≠ .regRead o := by
  unfold decodeWrite
  split <;> simp

/-- Only a 64-bit read at offset 0x08 decodes to a STATUS read. -/
theorem decodeHostOp_status {dir : Dir} {off size : Nat} {v : Word} (h : decodeHostOp dir off size v = .ok (.regRead 0x08)) :
    dir = .read ∧ size = 8 ∧ off = 0x08 := by
  unfold decodeHostOp at h
  split at h
  · cases h
  · split at h
    · cases h
    · split at h
      · cases h
      · rename_i hsize _ hwin
        cases dir with
        | write => exact absurd (Except.ok.inj h) (decodeWrite_ne_regRead _ _ _)
        | read =>
          have hoff : off % 256 = 8 := congrArg BitVec.toNat (Instr.regRead.inj (Except.ok.inj h))
          rw [Config.regWindow] at hwin
          exact ⟨rfl, by omega, by omega⟩

theorem decodeCmd64_ne_regRead {c : Word} {i : Instr} (h : decodeCmd64 c = .ok i) (o : BitVec 8) : i ≠ .regRead o := by
  unfold decodeCmd64 at h
  split at h
  · cases h
  · split at h
    · cases h; nofun
    · split at h
      · cases h; nofun
      · cases h

/-- A command word is never a register read. -/
theorem commandInstr_ne_regRead (word : Word) (o : BitVec 8) : commandInstr word ≠ .regRead o := by
  unfold commandInstr
  split
  case h_1 hd => exact decodeCmd64_ne_regRead hd o
  case h_2 => nofun

theorem State.codecs_selected (s : State) : s.codecs[s.selected]? = some s.codec := by
  simp [State.codecs, State.selected]

/-- An address is routed to a codec whose window holds it. -/
theorem State.route_inWindow {s u : State} {addr k : Nat} (h : s.route addr = some k) (hu : s.select k = some u) :
    inWindow addr u.codec = true := by
  obtain ⟨hcodecs, hsel, -⟩ := State.select_some hu
  obtain ⟨hk, hwin, -⟩ := List.findIdx?_eq_some_iff_getElem.1 h
  have hget := u.codecs_selected
  rw [hcodecs, hsel, List.getElem?_eq_getElem hk] at hget
  rwa [Option.some.inj hget] at hwin

/-! ### The other moves -/

theorem advance_claims (j : Job) (s : State) : (advance j s).codec.claims = s.codec.claims := by
  rcases advance_cases j s with ⟨-, h⟩ | ⟨-, h⟩ <;> rw [h]
  rfl

theorem engineStep_claims (s : State) : (engineStep s).codec.claims = s.codec.claims := by
  rcases engineStep_cases s with h | ⟨j, -, -, ⟨i, -, ⟨-, h⟩ | ⟨-, h⟩⟩ | ⟨k, -, ⟨-, h⟩ | ⟨-, h⟩⟩⟩ <;> rw [h]
  · rfl
  · rw [advance_claims, State.engineLoad_frame]
  · rfl
  · rw [advance_claims, State.engineStore_frame]

theorem engineStep_claimsKept (i : Option Input) (s : State) : s.ClaimsKept i (engineStep s) :=
  have hframe := engineStep_engineFrame s
  State.claimsKept_of_parts hframe.before (.inl (engineStep_claims s ▸ List.Subset.refl _)) hframe.after

theorem assertReset_claimsKept (i : Option Input) (s : State) : s.ClaimsKept i (assertReset s) := by
  rcases s.codec.phase_cases with hp | ⟨j, hp⟩
  · rw [(assertReset_eq s).1 hp]
    exact State.claimsKept_of_parts (forall₂_sameState_refl _) (.inl (List.Subset.refl _)) (forall₂_sameState_refl _)
  · rw [(assertReset_eq s).2 j hp]
    exact State.claimsKept_of_parts (forall₂_sameState_refl _) (.inl (List.Subset.refl _)) (forall₂_sameState_refl _)

theorem releaseReset_claimsKept (i : Option Input) (s : State) : s.ClaimsKept i (releaseReset s) :=
  State.claimsKept_of_parts (forall₂_sameState_refl _) (.inl (List.Subset.refl _)) (forall₂_sameState_refl _)

/-! ### The move of a step -/

theorem onInst_claimsKept {i : Option Input} {k : Nat} {f : State → Host.Outcome State Fault Refusal} {s t : State}
    (h : onInst k f s = .next t) (hf : ∀ u, s.select k = some u → f u = .next t → u.ClaimsKept i t) : s.ClaimsKept i t := by
  obtain ⟨u, hu, ht⟩ := onInst_next h
  have hkept := hf u hu ht
  rwa [State.ClaimsKept, (State.select_some hu).1] at hkept

theorem accessSelected_claimsKept {dir : Dir} {addr size : Nat} {data : Word} {s t : State}
    (hwin : inWindow addr s.codec = true) (h : accessSelected dir addr size data s = .next t) :
    s.ClaimsKept (some (.access dir addr size data)) t := by
  unfold accessSelected at h
  split at h
  case h_2 => cases h
  case h_1 instr hdec =>
    refine exec_claimsKept h fun hread => ⟨data, ?_⟩
    rw [hread] at hdec
    obtain ⟨rfl, rfl, hoff⟩ := decodeHostOp_status hdec
    simp only [inWindow, Bool.and_eq_true, decide_eq_true_eq] at hwin
    rw [show addr = s.codec.regBase + 0x08 by omega]

theorem applyInput_claimsKept {i : Input} {s t : State} (h : applyInput i s = .next t) : s.ClaimsKept (some i) t := by
  cases i with
  | command k word =>
    exact onInst_claimsKept h fun u _ ht => exec_claimsKept ht fun hread => absurd hread (commandInstr_ne_regRead _ _)
  | access dir addr size data =>
    simp only [applyInput] at h
    split at h
    case h_1 k hroute =>
      exact onInst_claimsKept h fun u hu ht => accessSelected_claimsKept (State.route_inWindow hroute hu) ht
    case h_2 => cases h
  | engine k => exact onInst_claimsKept h fun u _ ht => by cases ht; exact engineStep_claimsKept _ u
  | reset k asserted =>
    cases asserted with
    | true => exact onInst_claimsKept h fun u _ ht => by cases ht; exact assertReset_claimsKept _ u
    | false => exact onInst_claimsKept h fun u _ ht => by cases ht; exact releaseReset_claimsKept _ u
  | memRead a =>
    rw [(hostMemRead_next h).2]
    exact claims_subset_of_sameState (forall₂_sameState_refl _) _
  | memWrite a v => exact claims_subset_of_sameState (hostMemWrite_keeps h).1 _

theorem freeRunning_claimsKept {s t : State} (h : freeRunning s = .next t) : s.ClaimsKept none t := by
  unfold freeRunning at h
  split at h
  · exact onInst_claimsKept h fun u _ ht => by cases ht; exact engineStep_claimsKept _ u
  · cases h
    exact claims_subset_of_sameState (forall₂_sameState_refl _) _

theorem step_claimsKept {s t : State} (h : step s = .next t) : s.ClaimsKept s.inputs.head? t := by
  unfold step at h
  cases hi : s.inputs with
  | nil =>
    rw [hi] at h
    exact freeRunning_claimsKept h
  | cons i rest =>
    rw [hi] at h
    exact applyInput_claimsKept (s := { s with inputs := rest }) h

/-- Settles O56: codec by codec, a step keeps the claims or is a STATUS read with DONE = 1. -/
theorem claimsLastUntilDoneIsRead : Obligations.ClaimsLastUntilDoneIsRead := by
  intro s t k c d cl hstep hc hd hcl
  obtain ⟨hk, rfl⟩ := List.getElem?_eq_some_iff.1 hc
  obtain ⟨hk', rfl⟩ := List.getElem?_eq_some_iff.1 hd
  refine ((step_claimsKept hstep).get hk hk').imp (fun hsub => hsub hcl) fun ⟨hdone, data, hhead⟩ => ⟨hdone, data, ?_⟩
  exact ⟨_, (List.cons_head?_tail hhead).symm⟩

/-! ### Which agent a step moves -/

theorem onInst_of_select {k : Nat} {f : State → Host.Outcome State Fault Refusal} {s t : State} (h : s.select k = some t) :
    onInst k f s = f t := by
  rw [onInst, h]

theorem onInst_of_length_le {k : Nat} {f : State → Host.Outcome State Fault Refusal} {s : State} (h : s.codecs.length ≤ k) :
    onInst k f s = .refused .noSuchInstance := by
  have hnone : s.select k = none := by rw [State.select, List.drop_eq_nil_of_le h]
  rw [onInst, hnone]

theorem step_of_inputs {s : State} {i : Input} {rest : List Input} (h : s.inputs = i :: rest) :
    step s = applyInput i { s with inputs := rest } := by
  rw [step, h]

/-- Settles O12: the head of the inputs is applied to the codec it names, and refused where it names none. -/
theorem stepMovesTheAgentOfItsInput : Obligations.StepMovesTheAgentOfItsInput := by
  refine ⟨fun s t k rest ht => ⟨fun hi => ?_, fun hi => ?_, fun hi => ?_⟩,
    fun s a v rest => ⟨fun hi => step_of_inputs hi, fun hi => step_of_inputs hi⟩,
    fun s k rest hk => ⟨fun hi => ?_, fun asserted hi => ?_, fun word hi => ?_⟩⟩ <;> rw [step_of_inputs hi]
  · exact onInst_of_select ht
  · exact onInst_of_select ht
  · exact onInst_of_select ht
  · exact onInst_of_length_le hk
  · cases asserted <;> exact onInst_of_length_le hk
  · exact onInst_of_length_le hk

end Sys2Proof.Machine
end

section
/-! PROOF. A command whose checks are passed (60_exceptions.md R124, R129 to R133) with a buffer over a region outside the model
(20_memory.md R35, R42). -/

namespace Sys2Proof.Machine

/-- The word of a legal command decodes to it. -/
theorem decodeCommand_encodeCommand {op : Op} {inw outw : Width} {w : BitVec 7} (hpos : 1 ≤ w.toNat) (hle : w.toNat ≤ inw.bits) :
    decodeCommand (encodeCommand op inw outw w) = .ok ⟨op, inw, outw, w.toNat⟩ := by
  have hw : ¬ (w.toNat = 0 ∨ inw.bits < w.toNat) := by omega
  cases op <;> simp [decodeCommand, opCode, hw]

/-- The operands of Accept are those of the command's hidden state. -/
theorem acceptOperands_jobOf (m : Command) (c : Codec) :
    acceptOperands m.op m.inw m.outw c.count.toNat (jobPackedWords (jobOf m c))
      = (jobSrcWidth (jobOf m c), jobSrcWords (jobOf m c), jobDstWidth (jobOf m c), jobDstWords (jobOf m c)) := by
  obtain ⟨op, inw, outw, w⟩ := m
  cases op <;> rfl

/-- A buffer of `n` words that ends in data memory, if it has any, is not out of range. -/
theorem extentOutOfRange_words {addrW base n b : Nat} (h : n ≠ 0 → base + n * b ≤ 2 ^ addrW) :
    extentOutOfRange addrW ⟨base, n * b⟩ = false := by
  refine Bool.eq_false_iff.2 fun hout => ?_
  simp only [extentOutOfRange, Bool.and_eq_true, decide_eq_true_eq] at hout
  obtain ⟨hlen, hpast⟩ := hout
  exact Nat.not_lt.2 (h (Nat.ne_zero_of_mul_ne_zero_left hlen)) hpast

/-- Two buffers of words, if both have any, one of which ends before the other begins, do not meet. -/
theorem extentsMeet_words {base n b base' n' b' : Nat}
    (h : n ≠ 0 → n' ≠ 0 → base' + n' * b' ≤ base ∨ base + n * b ≤ base') :
    extentsMeet ⟨base, n * b⟩ ⟨base', n' * b'⟩ = false := by
  refine Bool.eq_false_iff.2 fun hmeet => ?_
  obtain ⟨a, ⟨hlo, hhi⟩, hlo', hhi'⟩ := extentsMeet_iff.1 hmeet
  simp only [extentEnd] at hlo hhi hlo' hhi'
  have := h (Nat.ne_zero_of_mul_ne_zero_left (m := b) (by omega)) (Nat.ne_zero_of_mul_ne_zero_left (m := b') (by omega))
  omega

/-- The checks written out on the registers are the checks of acceptance. -/
theorem checkJob_of_passes {addrW : Nat} {c : Codec} {j : Job} (hsb : j.sb = c.srcBase.toNat) (hdb : j.db = c.dstBase.toNat)
    (h : PassesChecks addrW c (jobSrcWidth j) (jobSrcWords j) (jobDstWidth j) (jobDstWords j)) : checkJob addrW c j = .ok j := by
  obtain ⟨hlen, hcap, hsalign, hdalign, hsrange, hdrange, hdisjoint⟩ := h
  rw [← hsb] at hsalign hsrange hdisjoint
  rw [← hdb] at hdalign hdrange hdisjoint
  have halign : ¬ (j.sb % (jobSrcWidth j).bytes ≠ 0 ∨ j.db % (jobDstWidth j).bytes ≠ 0) := by
    simp [hsalign, hdalign]
  have hrange : ¬ (extentOutOfRange addrW (jobSrc j) = true ∨ extentOutOfRange addrW (jobDst j) = true) := by
    simp [jobSrc, jobDst, extentOutOfRange_words hsrange, extentOutOfRange_words hdrange]
  have hmeet : ¬ extentsMeet (jobSrc j) (jobDst j) = true := by
    simp [jobSrc, jobDst, extentsMeet_words hdisjoint]
  rw [checkJob, if_neg (Nat.not_lt.2 hlen), if_neg (Nat.not_lt.2 hcap), if_neg halign, if_neg hrange, if_neg hmeet]

/-- A command with at least one value has an access to make. -/
theorem jobLength_ne_zero {j : Job} (h : j.cnt ≠ 0) : jobLength j ≠ 0 := by
  unfold jobLength
  omega

theorem exec_commandOf (op : Op) (inw outw : Width) (w : BitVec 7) (s : State) :
    exec (commandOf op inw outw w) s = writeCommand (encodeCommand op inw outw w) s := by
  cases op <;> rfl

theorem writeCommand_of_idle {v : Word} {s : State} (hr : s.codec.inReset = false) (hb : s.codec.busy = false) :
    writeCommand v s = acceptCommand v s := by
  simp [writeCommand, hr, hb]

/-- Settles O29: the command passes its checks and has an access to make, so a buffer outside the model refuses it. -/
theorem buffersOutsideTheModelAreRefused : Obligations.BuffersOutsideTheModelAreRefused := by
  intro op inw outw w s hr hb sw dw sreq dreq hops hpos hle hcount hpass hout
  set v := encodeCommand op inw outw w with hv
  set j := jobOf ⟨op, inw, outw, w.toNat⟩ (s.codec.take v) with hj
  obtain ⟨rfl, rfl, rfl, rfl⟩ : sw = jobSrcWidth j ∧ sreq = jobSrcWords j ∧ dw = jobDstWidth j ∧ dreq = jobDstWords j := by
    simpa only [Prod.mk.injEq] using hops.trans (acceptOperands_jobOf ⟨op, inw, outw, w.toNat⟩ (s.codec.take v))
  have hcheck : checkCommand s.platform.addrW (s.codec.take v) v = .ok j := by
    rw [checkCommand, hv, decodeCommand_encodeCommand hpos hle]
    exact checkJob_of_passes rfl rfl hpass
  have hlen : jobLength j ≠ 0 := jobLength_ne_zero fun h => hcount (BitVec.eq_of_toNat_eq h)
  have hregion : (s.outsideModel (jobSrc j) || s.outsideModel (jobDst j)) = true := by
    rw [Bool.or_eq_true]
    exact hout
  rw [exec_commandOf, writeCommand_of_idle hr hb]
  simp only [acceptCommand, ← hv, hcheck, hlen, hregion, if_false, if_true]

end Sys2Proof.Machine
end

section
/-! PROOF. The command word and its fields (30_encoding.md R55): masking a word reads a field, and the six fields
determine the word. -/

namespace Sys2Proof.Machine

/-! ### Masks -/

/-- The mask of the `n` bits from bit `k`. -/
def fieldMask (k n : Nat) : Word := (BitVec.allOnes n).setWidth 64 <<< k

theorem and_fieldMask (c : Word) (k n : Nat) : c &&& fieldMask k n = (c.extractLsb' k n).setWidth 64 <<< k := by
  apply BitVec.eq_of_getLsbD_eq
  intro i hi
  by_cases hk : k ≤ i
  · simp [fieldMask, hi, Nat.add_sub_cancel' hk, Bool.and_comm, ← Bool.and_assoc]
  · simp [fieldMask, Nat.lt_of_not_le hk]

theorem extractLsb'_shiftLeft_setWidth {k n : Nat} (h : k + n ≤ 64) (x : BitVec n) :
    (x.setWidth 64 <<< k).extractLsb' k n = x := by
  apply BitVec.eq_of_getLsbD_eq
  intro i hi
  simp [hi, show k + i < 64 by omega]

/-- A masked word holds `x` at the place of a field exactly when the field is `x`. -/
theorem and_fieldMask_eq_iff {k n : Nat} (h : k + n ≤ 64) (c : Word) (x : BitVec n) :
    c &&& fieldMask k n = x.setWidth 64 <<< k ↔ c.extractLsb' k n = x := by
  rw [and_fieldMask]
  refine ⟨fun hc => ?_, fun hc => by rw [hc]⟩
  rw [← extractLsb'_shiftLeft_setWidth h (c.extractLsb' k n), hc, extractLsb'_shiftLeft_setWidth h]

/-- RSV0 and RSV1 are 0 (30_encoding.md R59). -/
def ReservedClear (c : Word) : Prop := cmdRsv0 c = 0 ∧ cmdRsv1 c = 0

theorem not_reservedClear_iff (c : Word) : ¬ ReservedClear c ↔ cmdRsv0 c ≠ 0 ∨ cmdRsv1 c ≠ 0 := not_and_or

theorem and_reservedMask_eq_zero_iff (c : Word) : c &&& 0xFFFFFFFFFFFF80C0 = 0 ↔ ReservedClear c := by
  have hmask : (0xFFFFFFFFFFFF80C0 : Word) = fieldMask 6 2 ||| fieldMask 15 49 := by decide
  rw [hmask, BitVec.and_or_distrib_left]
  exact BitVec.or_eq_zero_iff.trans
    (and_congr (and_fieldMask_eq_iff (by decide) c 0) (and_fieldMask_eq_iff (by decide) c 0))

theorem and_opMask_eq_iff (c : Word) (o : BitVec 2) : c &&& 3 = o.setWidth 64 ↔ cmdOp c = o := by
  have h := and_fieldMask_eq_iff (k := 0) (n := 2) (by decide) c o
  rwa [BitVec.shiftLeft_zero] at h

/-- The mask of 30_encoding.md R63 is that of the reserved bits with that of OP. -/
theorem and_commandMask_eq_iff (c : Word) (o : BitVec 2) :
    c &&& 0xFFFFFFFFFFFF80C3 = o.setWidth 64 ↔ ReservedClear c ∧ cmdOp c = o := by
  have hmask : (0xFFFFFFFFFFFF80C3 : Word) = 0xFFFFFFFFFFFF80C0 ||| 3 := by decide
  have hrsv : o.setWidth 64 &&& (0xFFFFFFFFFFFF80C0 : Word) = 0 := by revert o; decide
  have hop : o.setWidth 64 &&& (3 : Word) = o.setWidth 64 := by revert o; decide
  rw [← and_reservedMask_eq_zero_iff, ← and_opMask_eq_iff]
  constructor
  · intro h
    constructor
    · rw [← hrsv, ← h, BitVec.and_assoc]; rfl
    · rw [← hop, ← h, BitVec.and_assoc]; rfl
  · rintro ⟨hc, hc'⟩
    rw [hmask, BitVec.and_or_distrib_left, hc, hc']
    exact BitVec.zero_or

/-! ### The fields determine the word -/

theorem word_ext_fields {c d : Word} (hop : cmdOp c = cmdOp d) (hinw : cmdInw c = cmdInw d) (houtw : cmdOutw c = cmdOutw d)
    (hrsv0 : cmdRsv0 c = cmdRsv0 d) (hw : cmdW c = cmdW d) (hrsv1 : cmdRsv1 c = cmdRsv1 d) : c = d := by
  have hmasks : BitVec.allOnes 64
      = fieldMask 0 2 ||| fieldMask 2 2 ||| fieldMask 4 2 ||| fieldMask 6 2 ||| fieldMask 8 7 ||| fieldMask 15 49 := by decide
  simp only [cmdOp, cmdInw, cmdOutw, cmdRsv0, cmdW, cmdRsv1] at hop hinw houtw hrsv0 hw hrsv1
  rw [← BitVec.and_allOnes (x := c), ← BitVec.and_allOnes (x := d), hmasks]
  simp only [BitVec.and_or_distrib_left, and_fieldMask, hop, hinw, houtw, hrsv0, hw, hrsv1]

@[simp] theorem widthCode_widthOfCode (x : BitVec 2) : widthCode (widthOfCode x) = x := by
  revert x; decide

theorem bits_widthOfCode (x : BitVec 2) : (widthOfCode x).bits = 8 <<< x.toNat := by
  revert x; decide

/-- A word with clear reserved bits and the OP of an operation is the encoding of its fields (30_encoding.md R61). -/
theorem encodeCommand_fields {c : Word} {op : Op} (hrsv : ReservedClear c) (hop : cmdOp c = opCode op) :
    encodeCommand op (widthOfCode (cmdInw c)) (widthOfCode (cmdOutw c)) (cmdW c) = c := by
  obtain ⟨hrsv0, hrsv1⟩ := hrsv
  apply word_ext_fields <;> simp [hrsv0, hrsv1, hop]

/-- Every OP is reserved or that of an operation (30_encoding.md R56). -/
theorem cmdOp_cases (c : Word) : (cmdOp c = 0 ∨ cmdOp c = 3) ∨ ∃ op, cmdOp c = opCode op := by
  have hall : ∀ o : BitVec 2, (o = 0 ∨ o = 3) ∨ o = opCode .pack ∨ o = opCode .unpack := by decide
  exact (hall (cmdOp c)).imp_right fun h => h.elim (⟨_, ·⟩) (⟨_, ·⟩)

/-- Which of its three forms a command word has (30_encoding.md R62). -/
theorem commandWord_cases (c : Word) :
    ¬ ReservedClear c ∨ ReservedClear c ∧ (cmdOp c = 0 ∨ cmdOp c = 3) ∨ ReservedClear c ∧ ∃ op, cmdOp c = opCode op := by
  by_cases hrsv : ReservedClear c
  · exact .inr ((cmdOp_cases c).imp (⟨hrsv, ·⟩) (⟨hrsv, ·⟩))
  · exact .inl hrsv

end Sys2Proof.Machine
end

section
/-! PROOF. The outcomes of decoding a command word (30_encoding.md R62, R63), by the form of the word. -/

namespace Sys2Proof.Machine

/-! ### The command of a word -/

theorem decodeCommand_of_reserved {c : Word} (hrsv : ¬ ReservedClear c) : decodeCommand c = .error .reserved :=
  if_pos ((not_reservedClear_iff c).1 hrsv)

theorem decodeCommand_of_opcode {c : Word} (hrsv : ReservedClear c) (hop : cmdOp c = 0 ∨ cmdOp c = 3) :
    decodeCommand c = .error .opcode := by
  rw [decodeCommand, if_neg (by rwa [← not_reservedClear_iff, not_not]), if_pos hop]

theorem decodeCommand_of_op {c : Word} {op : Op} (hrsv : ReservedClear c) (hop : cmdOp c = opCode op) :
    decodeCommand c
      = if (cmdW c).toNat = 0 ∨ (widthOfCode (cmdInw c)).bits < (cmdW c).toNat then .error .width
        else .ok ⟨op, widthOfCode (cmdInw c), widthOfCode (cmdOutw c), (cmdW c).toNat⟩ := by
  obtain ⟨hrsv0, hrsv1⟩ := hrsv
  cases op <;> simp [decodeCommand, hrsv0, hrsv1, hop, opCode]

/-- Settles O2: masks and shifts are read as fields, and each form of the word has one outcome. -/
theorem everyCommandWordHasOneOutcome : Obligations.EveryCommandWordHasOneOutcome := by
  intro c
  have h0 : c &&& 3 = 0 ↔ cmdOp c = 0 := and_opMask_eq_iff c 0
  have h1 : c &&& 3 = 1 ↔ cmdOp c = 1 := and_opMask_eq_iff c 1
  have h2 : c &&& 3 = 2 ↔ cmdOp c = 2 := and_opMask_eq_iff c 2
  have h3 : c &&& 3 = 3 ↔ cmdOp c = 3 := and_opMask_eq_iff c 3
  have hw : (c.toNat >>> 8) % 128 = (cmdW c).toNat := rfl
  have hinw : 8 <<< ((c.toNat >>> 2) % 4) = (widthOfCode (cmdInw c)).bits := (bits_widthOfCode (cmdInw c)).symm
  have houtw : 8 <<< ((c.toNat >>> 4) % 4) = (widthOfCode (cmdOutw c)).bits := (bits_widthOfCode (cmdOutw c)).symm
  rw [ne_eq, and_reservedMask_eq_zero_iff, h0, h1, h2, h3, hw, hinw, houtw]
  rcases commandWord_cases c with hrsv | ⟨hrsv, hop⟩ | ⟨hrsv, op, hop⟩
  · simp [decodeCommand_of_reserved hrsv, hrsv]
  · rcases hop with hop | hop <;> simp [decodeCommand_of_opcode hrsv, hrsv, hop]
  · have henc := encodeCommand_fields hrsv hop
    rw [decodeCommand_of_op hrsv hop]
    by_cases hlegal : (cmdW c).toNat = 0 ∨ (widthOfCode (cmdInw c)).bits < (cmdW c).toNat
    · cases op <;> simp [hlegal, hrsv, hop, opCode]
    · cases op <;> simp [hlegal, hrsv, hop, opCode, henc] <;> omega

/-! ### The instruction of a word -/

theorem decodeCmd64_of_op {c : Word} {op : Op} (hrsv : ReservedClear c) (hop : cmdOp c = opCode op) :
    decodeCmd64 c = .ok (commandOf op (widthOfCode (cmdInw c)) (widthOfCode (cmdOutw c)) (cmdW c)) := by
  obtain ⟨hrsv0, hrsv1⟩ := hrsv
  cases op <;> simp [decodeCmd64, hrsv0, hrsv1, hop, opCode, commandOf]

theorem op_eq_of_commandOf_eq {op op' : Op} {inw outw inw' outw' : Width} {w w' : BitVec 7}
    (h : commandOf op inw outw w = commandOf op' inw' outw' w') : op = op' := by
  cases op <;> cases op' <;> simp_all [commandOf]

theorem op_of_decodeCmd64 {c : Word} {op : Op} {inw outw : Width} {w : BitVec 7}
    (h : decodeCmd64 c = .ok (commandOf op inw outw w)) : ReservedClear c ∧ cmdOp c = opCode op := by
  rcases commandWord_cases c with hrsv | ⟨hrsv, hop⟩ | ⟨hrsv, op', hop⟩
  · rw [decodeCmd64, if_pos ((not_reservedClear_iff c).1 hrsv)] at h
    cases h
  · obtain ⟨hrsv0, hrsv1⟩ := hrsv
    rcases hop with hop | hop <;> simp [decodeCmd64, hrsv0, hrsv1, hop] at h
  · rw [decodeCmd64_of_op hrsv hop] at h
    rw [← op_eq_of_commandOf_eq (Except.ok.inj h)]
    exact ⟨hrsv, hop⟩

/-- The match and mask of an operation select its command words (30_encoding.md R63). -/
theorem decode_cmd64_commandOf_iff (c : Word) (op : Op) :
    (∃ inw outw w, decode (.cmd64 c) = .ok (commandOf op inw outw w))
      ↔ c &&& 0xFFFFFFFFFFFF80C3 = (opCode op).setWidth 64 := by
  rw [and_commandMask_eq_iff]
  exact ⟨fun ⟨_, _, _, h⟩ => op_of_decodeCmd64 h, fun ⟨hrsv, hop⟩ => ⟨_, _, _, decodeCmd64_of_op hrsv hop⟩⟩

/-- Settles O3: the match and mask of each of the two operations. -/
theorem matchAndMaskSelectTheCommand : Obligations.MatchAndMaskSelectTheCommand :=
  fun c => ⟨decode_cmd64_commandOf_iff c .pack, decode_cmd64_commandOf_iff c .unpack⟩

/-! ### Decoding an encoding -/

theorem encode_commandOf (op : Op) (inw outw : Width) (w : BitVec 7) :
    encode (commandOf op inw outw w) = .cmd64 (encodeCommand op inw outw w) := by
  cases op <;> rfl

theorem decode_encode_commandOf (op : Op) (inw outw : Width) (w : BitVec 7) :
    decode (encode (commandOf op inw outw w)) = .ok (commandOf op inw outw w) := by
  have hrsv : ReservedClear (encodeCommand op inw outw w) := ⟨by simp, by simp⟩
  rw [encode_commandOf, decode, decodeCmd64_of_op hrsv (cmdOp_encodeCommand op inw outw w)]
  simp

/-- An aligned 64-bit access inside the window is decoded by its direction (40_host_registers.md R70). -/
theorem decode_hostOp {off : Nat} (halign : off % 8 = 0) (hin : off < Config.regWindow) (dir : Dir) (v : Word) :
    decode (.hostOp dir off 8 v)
      = .ok (match dir with
          | .read => .regRead (BitVec.ofNat 8 off)
          | .write => decodeWrite off v) := by
  cases dir <;> simp [decode, decodeHostOp, halign, Nat.not_le.2 hin]

theorem decodeWrite_reserved {off : Nat} (h : 0x48 ≤ off) (v : Word) :
    decodeWrite off v = .regWriteReserved (BitVec.ofNat 8 off) v := by
  rw [decodeWrite] <;> rintro rfl <;> omega

theorem decode_encode {i : Instr} (hwf : i.wf = true) : decode (encode i) = .ok i := by
  cases i with
  | pack inw outw w => exact decode_encode_commandOf .pack inw outw w
  | unpack inw outw w => exact decode_encode_commandOf .unpack inw outw w
  | regRead off =>
    obtain ⟨-, halign, hin⟩ := Laws.WellFormedTransfer.regRead off hwf
    simp [encode, decode_hostOp halign hin]
  | regWriteReserved off v =>
    obtain ⟨-, halign, hin⟩ := Laws.WellFormedTransfer.regWriteReserved off v hwf
    have hlo : 0x48 ≤ off.toNat := by simp_all [Instr.wf]
    simp [encode, decode_hostOp halign hin, decodeWrite_reserved hlo]
  | regWriteCtrl | regWriteStatus | regWriteCmd | regWriteSrcBase | regWriteSrcLen | regWriteDstBase | regWriteDstCap
  | regWriteCount | regWriteWords => rfl

/-- Settles O1: a command word reads back field by field, and a host operation by its offset. -/
theorem instructionsDecodeFromTheirEncoding : Obligations.InstructionsDecodeFromTheirEncoding :=
  ⟨fun _ => decode_encode, decode_encode_commandOf⟩

/-- Settles O4: the words are encodings, but for the one with a reserved bit. -/
theorem writtenOutWordsDecode : Obligations.WrittenOutWordsDecode :=
  ⟨decode_encode_commandOf .pack .w8 .w8 3, decode_encode_commandOf .pack .w64 .w8 33,
    decode_encode_commandOf .unpack .w16 .w32 12, by decide,
    decode_encode (i := .regWriteCmd 0x301) rfl, decode_encode (i := .regRead 0x08) rfl⟩

end Sys2Proof.Machine
end

section
/-! PROOF. Running a command word or a register access: the step decodes its input and runs the instruction (30_encoding.md R54, R62,
R69), and a word with reserved bits or a reserved OP fails when it is taken (60_exceptions.md R126, R127). -/

namespace Sys2Proof.Machine

theorem exec_regWriteCmd (v : Word) (s : State) : exec (.regWriteCmd v) s = writeCommand v s := rfl

/-- Settles O24: both are the write of the word to CMD. -/
theorem commandWordsAreCmdWrites : Obligations.CommandWordsAreCmdWrites :=
  fun op inw outw w s => (exec_commandOf op inw outw w s).trans (exec_regWriteCmd _ s).symm

/-- A word that decodes to no command fails when it is taken, with the code of its decoding. -/
theorem exec_regWriteCmd_of_error {v : Word} {e : Err} {s : State} (hr : s.codec.inReset = false) (hb : s.codec.busy = false)
    (h : decodeCommand v = .error e) : exec (.regWriteCmd v) s = .next (s.failedWith v e) := by
  have hcheck : checkCommand s.platform.addrW (s.codec.take v) v = .error e := by rw [checkCommand, h]
  rw [exec_regWriteCmd, writeCommand_of_idle hr hb, acceptCommand, hcheck]
  rfl

/-- Settles O25: such a word decodes to no command. -/
theorem reservedWordsFail : Obligations.ReservedWordsFail := by
  intro v s hr hb
  obtain ⟨hreserved, hopcode, -⟩ := everyCommandWordHasOneOutcome v
  exact ⟨fun h => exec_regWriteCmd_of_error hr hb (hreserved.2 h),
    fun h hop => exec_regWriteCmd_of_error hr hb (hopcode.2 ⟨h, hop⟩)⟩

theorem commandInstr_of_ok {word : Word} {i : Instr} (h : decode (.cmd64 word) = .ok i) : commandInstr word = i := by
  rw [commandInstr, h]

theorem commandInstr_of_error {word : Word} {r : Reject} (h : decode (.cmd64 word) = .error r) :
    commandInstr word = .regWriteCmd word := by
  rw [commandInstr, h]

theorem decodeHostOp_of_decode {dir : Dir} {off size : Nat} {data : Word} {i : Instr}
    (h : decode (.hostOp dir off size data) = .ok i) : decodeHostOp dir off size data = .ok i := by
  cases hd : decodeHostOp dir off size data <;> simp_all [decode]

/-- A step whose next input is a command word runs the instruction of the word on the codec the input names. -/
theorem step_command {s t : State} {k : Nat} {word : Word} {rest : List Input} (hi : s.inputs = .command k word :: rest)
    (ht : State.select { s with inputs := rest } k = some t) : step s = exec (commandInstr word) t := by
  rw [step_of_inputs hi]
  exact onInst_of_select ht

/-- A step whose next input is a register access runs the instruction it decodes to on the codec of its window. -/
theorem step_access {s t : State} {dir : Dir} {addr size k : Nat} {data : Word} {rest : List Input} {i : Instr}
    (hi : s.inputs = .access dir addr size data :: rest) (hk : s.route addr = some k)
    (ht : State.select { s with inputs := rest } k = some t)
    (h : decode (.hostOp dir (addr - t.codec.regBase) size data) = .ok i) : step s = exec i t := by
  have hroute : State.route { s with inputs := rest } addr = some k := hk
  rw [step_of_inputs hi, applyInput, hroute]
  exact (onInst_of_select ht).trans (by rw [accessSelected, decodeHostOp_of_decode h])

/-- A 64-bit word placed as the next input is run as a command word (30_encoding.md R54). -/
theorem step_withFetchWord {s : State} {w : Nat} {i : Instr} (h : decodeTableWord 64 w = some i) :
    step (s.withFetchWord 64 w) = exec i s := by
  set word := BitVec.ofNat 64 (w % 2 ^ 64)
  have hdecode : decode (.cmd64 word) = .ok i := by
    have : (decode (.cmd64 word)).toOption = some i := h
    cases hd : decode (.cmd64 word) <;> simp_all [Except.toOption]
  have hinputs : (s.withFetchWord 64 w).inputs = .command s.selected word :: s.inputs := rfl
  rw [step_command hinputs (State.select_selected s), commandInstr_of_ok hdecode]

/-- Settles O11: the head of the inputs is decoded and run on the codec it names. -/
theorem stepRunsTheDecodedInstruction : Obligations.StepRunsTheDecodedInstruction := by
  refine ⟨fun s t k word rest hi ht => ⟨fun i h => ?_, fun r h => ?_⟩,
    fun s t dir addr size k data rest i hi hk ht h => step_access hi hk ht h, fun s t k ht => ?_,
    fun s w i h => step_withFetchWord h⟩
  · rw [step_command hi ht, commandInstr_of_ok h]
  · rw [step_command hi ht, commandInstr_of_error h]
  · obtain ⟨hcodecs, hselected, hframe⟩ := State.select_some ht
    refine ⟨hcodecs, hselected, ?_⟩
    rw [hframe]
    simp

end Sys2Proof.Machine
end

section
/-! PROOF. Register reads and refused accesses (40_host_registers.md R70, R71, R80): what a read answers, the one thing it changes, and
which accesses have no meaning. -/

namespace Sys2Proof.Machine

/-! ### Reading a register -/

/-- Bit `i` of the STATUS word, field by field (10_state.md R18). -/
theorem getLsbD_statusWord (c : Codec) {i : Nat} (hi : i < 64) :
    (statusWord c).getLsbD i = ((c.busy && decide (i = 0)) || (c.done && decide (i = 1)) || (c.drop && decide (i = 2))
      || (decide (8 ≤ i) && (errCode c.err).getLsbD (i - 8))) := by
  have hflag (b : Bool) (k : Nat) : (flagWord b <<< k).getLsbD i = (b && decide (i = k)) := by
    rcases Nat.lt_trichotomy i k with h | rfl | h
    · simp [h, h.ne]
    · simp [hi, flagWord_getElem]
    · simp [hi, flagWord_getElem, h.ne', Nat.sub_ne_zero_of_lt h, Nat.not_lt.2 h.le]
  have hbusy : (flagWord c.busy).getLsbD i = (c.busy && decide (i = 0)) := by simpa using hflag c.busy 0
  have herr : decide (i < 8) = !decide (8 ≤ i) := by rw [← decide_not]; congr 1; simp
  simp only [statusWord, BitVec.getLsbD_or, hbusy, hflag]
  simp [hi, herr]

/-- A field of STATUS between the flags and ERR, or above ERR, reads 0. -/
theorem statusWord_reserved (c : Codec) {k n : Nat} (h : 3 ≤ k ∧ k + n ≤ 8 ∨ 12 ≤ k ∧ k + n ≤ 64) :
    (statusWord c).extractLsb' k n = 0 := by
  apply BitVec.eq_of_getLsbD_eq
  intro i hi
  have herr : (decide (8 ≤ k + i) && (errCode c.err).getLsbD (k + i - 8)) = false := by
    rcases h with h | h
    · simp [show ¬ 8 ≤ k + i by omega]
    · simp [BitVec.getLsbD_of_ge (errCode c.err) (k + i - 8) (by omega)]
  rw [BitVec.getLsbD_extractLsb', getLsbD_statusWord c (by omega), herr]
  have hbit (b : Nat) (hb : b < 3) : decide (k + i = b) = false := decide_eq_false (by omega)
  simp only [hbit, Nat.reduceLT, Bool.and_false, Bool.or_false, BitVec.ofNat_eq_ofNat, BitVec.getLsbD_zero]

theorem statusWord_busy (c : Codec) : (statusWord c).getLsbD 0 = c.busy := by
  rw [getLsbD_statusWord c (by decide)]
  simp

theorem statusWord_drop (c : Codec) : (statusWord c).getLsbD 2 = c.drop := by
  rw [getLsbD_statusWord c (by decide)]
  simp

theorem statusWord_err (c : Codec) : (statusWord c).extractLsb' 8 4 = errCode c.err := by
  apply BitVec.eq_of_getLsbD_eq
  intro i hi
  rw [BitVec.getLsbD_extractLsb', getLsbD_statusWord c (by omega)]
  simp [hi, show 8 + i ≠ 1 by omega, show 8 + i ≠ 2 by omega]

/-- An offset above the nine registers reads 0. -/
theorem readReg_reserved {off : Nat} (h : 0x48 ≤ off) (c : Codec) : readReg c off = 0 := by
  unfold readReg
  split
  case h_10 => rfl
  all_goals exact absurd h (by decide)

/-- What a read at `off` leaves of the codec: only a STATUS read settles anything (20_memory.md R47). -/
def Codec.afterRead (off : BitVec 8) (c : Codec) : Codec := if off = 0x08 then c.seen else c

@[simp] theorem Codec.afterRead_status (c : Codec) : c.afterRead 0x08 = c.seen := rfl

theorem Codec.afterRead_of_ne {off : BitVec 8} (h : off ≠ 0x08) (c : Codec) : c.afterRead off = c := if_neg h

theorem Codec.seen_of_not_done {c : Codec} (h : c.done = false) : c.seen = c := by
  simp [Codec.seen, h]

/-- A read changes at most the claims, the model's own record. -/
theorem Codec.afterRead_frame (off : BitVec 8) (c : Codec) : c.afterRead off = { c with claims := (c.afterRead off).claims } := by
  unfold Codec.afterRead Codec.seen
  split
  · split <;> rfl
  · rfl

@[simp] theorem readReg_afterRead (off : BitVec 8) (c : Codec) (off' : Nat) : readReg (c.afterRead off) off' = readReg c off' := by
  unfold Codec.afterRead
  split <;> simp

/-- The state after a read of the register at `off`. -/
def State.readAt (s : State) (off : BitVec 8) : State :=
  { s with readData := readReg s.codec off.toNat, codec := s.codec.afterRead off }

theorem State.readAt_status (s : State) : (s.readAt 0x08).readData = statusWord s.codec := rfl

/-- A read at a multiple of 8 answers. -/
theorem exec_regRead_of_aligned {off : BitVec 8} (h : off.toNat % 8 = 0) (s : State) :
    exec (.regRead off) s = .next (s.readAt off) :=
  if_pos (decide_eq_true h)

/-- A read that answers is one at a multiple of 8. -/
theorem exec_regRead_next {off : BitVec 8} {s t : State} (h : exec (.regRead off) s = .next t) : t = s.readAt off :=
  execRegRead_next h

/-- Settles O15: the register at each offset, the STATUS word field by field, and the frame of a read. -/
theorem regReadAnswersTheRegister : Obligations.RegReadAnswersTheRegister := by
  intro off s halign
  refine ⟨s.readAt off, exec_regRead_of_aligned halign s, ?ctrl, ?status, ?cmd, ?srcBase, ?srcLen, ?dstBase, ?dstCap, ?count,
    ?words, fun h => readReg_reserved h s.codec, rfl, s.codec.afterRead_frame off, ?unchanged, ?claims⟩
  case status =>
    rintro rfl
    rw [State.readAt_status]
    exact ⟨statusWord_busy _, statusWord_done _, statusWord_drop _, statusWord_err _,
      statusWord_reserved _ (.inl (by decide)), statusWord_reserved _ (.inr (by decide))⟩
  case unchanged =>
    intro h
    by_cases hoff : off = 0x08
    · subst hoff
      exact Codec.seen_of_not_done (h.resolve_left fun hne => hne rfl)
    · exact Codec.afterRead_of_ne hoff _
  case claims =>
    rintro rfl hdone
    exact (Codec.seen_claims _).trans (if_pos hdone)
  all_goals rintro rfl; rfl

/-- Settles O16: a read changes the claims alone, and no register is read from them. -/
theorem registerReadsHaveNoSideEffect : Obligations.RegisterReadsHaveNoSideEffect := by
  intro off off' s t halign h
  obtain rfl := exec_regRead_next h
  exact ⟨congrArg (fun c => { s with readData := (s.readAt off).readData, codec := c }) (s.codec.afterRead_frame off),
    s.readAt off', (s.readAt off).readAt off', exec_regRead_of_aligned halign _, exec_regRead_of_aligned halign _,
    readReg_afterRead off s.codec off'.toNat⟩

/-! ### Refused accesses -/

/-- A step whose next input is a register access that decodes to no instruction is refused. -/
theorem step_access_of_error {s t : State} {dir : Dir} {addr size k : Nat} {data : Word} {rest : List Input} {r : AccessReject}
    (hi : s.inputs = .access dir addr size data :: rest) (hk : s.route addr = some k)
    (ht : State.select { s with inputs := rest } k = some t)
    (h : decodeHostOp dir (addr - t.codec.regBase) size data = .error r) : step s = .refused (refusalOf r) := by
  have hroute : State.route { s with inputs := rest } addr = some k := hk
  rw [step_of_inputs hi, applyInput, hroute]
  exact (onInst_of_select ht).trans (by rw [accessSelected, h])

/-- Settles O14: an address in no window names no codec, and the decoder rejects the size before the alignment. -/
theorem otherRegisterAccessesAreRefused : Obligations.OtherRegisterAccessesAreRefused := by
  intro s dir addr size data rest hi
  refine ⟨fun hnone => ?_, fun t k hk ht => ⟨fun hsize => ?_, fun hsize halign => ?_⟩⟩
  · have hroute : State.route { s with inputs := rest } addr = none := hnone
    rw [step_of_inputs hi, applyInput, hroute]
  · exact step_access_of_error hi hk ht (if_pos hsize)
  · exact step_access_of_error hi hk ht ((if_neg (not_not.2 hsize)).trans (if_pos halign))

/-- Settles O23: both meanings look at the alignment first. -/
theorem illFormedAccessesAreRefused : Obligations.IllFormedAccessesAreRefused := by
  intro s off v
  refine ⟨fun h => ?_, fun h hlow => ?_⟩
  · have halign : alignedOffset off = false := decide_eq_false h
    exact ⟨by simp [exec, execRegRead, halign], by simp [exec, execRegWriteReserved, halign]⟩
  · have halign : alignedOffset off = true := decide_eq_true h
    simp [exec, execRegWriteReserved, halign, hlow]

end Sys2Proof.Machine
end

section
/-! PROOF. Register writes (40_host_registers.md R72 to R79): made, dropped while BUSY = 1, or without effect. -/

namespace Sys2Proof.Machine

/-! ### Which write an instruction makes -/

@[simp] theorem exec_regWriteCtrl (v : Word) (s : State) :
    exec (.regWriteCtrl v) s = writeAlways (fun c => { c with ie := v.getLsbD 0 }) s := rfl
@[simp] theorem exec_regWriteStatus (v : Word) (s : State) :
    exec (.regWriteStatus v) s = writeAlways (fun c => c.acknowledge v) s := rfl
@[simp] theorem exec_regWriteSrcBase (v : Word) (s : State) :
    exec (.regWriteSrcBase v) s = writeOperand (fun c => { c with srcBase := v }) s := rfl
@[simp] theorem exec_regWriteSrcLen (v : Word) (s : State) :
    exec (.regWriteSrcLen v) s = writeOperand (fun c => { c with srcLen := v }) s := rfl
@[simp] theorem exec_regWriteDstBase (v : Word) (s : State) :
    exec (.regWriteDstBase v) s = writeOperand (fun c => { c with dstBase := v }) s := rfl
@[simp] theorem exec_regWriteDstCap (v : Word) (s : State) :
    exec (.regWriteDstCap v) s = writeOperand (fun c => { c with dstCap := v }) s := rfl
@[simp] theorem exec_regWriteCount (v : Word) (s : State) :
    exec (.regWriteCount v) s = writeOperand (fun c => { c with count := v }) s := rfl
@[simp] theorem exec_regWriteWords (v : Word) (s : State) : exec (.regWriteWords v) s = writeAlways (fun c => c) s := rfl

/-- At a reserved offset nothing is written. -/
theorem exec_regWriteReserved {off : BitVec 8} (halign : off.toNat % 8 = 0) (hoff : 0x48 ≤ off.toNat) (v : Word) (s : State) :
    exec (.regWriteReserved off v) s = writeAlways (fun c => c) s := by
  simp [exec, execRegWriteReserved, alignedOffset, halign, Nat.not_lt.2 hoff]

/-- A reserved write that answers is at a reserved offset. -/
theorem exec_regWriteReserved_next {off : BitVec 8} {v : Word} {s t : State} (h : exec (.regWriteReserved off v) s = .next t) :
    off.toNat % 8 = 0 ∧ 0x48 ≤ off.toNat := by
  by_contra hoff
  rcases Nat.eq_zero_or_pos (off.toNat % 8) with halign | halign
  · simp [(illFormedAccessesAreRefused s off v).2 halign (by omega)] at h
  · simp [((illFormedAccessesAreRefused s off v).1 halign.ne').2] at h

/-! ### Whether a write is made -/

theorem writeAlways_of_released {s : State} (hr : s.codec.inReset = false) (f : Codec → Codec) :
    writeAlways f s = .next { s with codec := f s.codec } := by
  simp [writeAlways, hr]

/-- A write of no effect leaves the machine as it is, in reset too. -/
@[simp] theorem writeAlways_id (s : State) : writeAlways (fun c => c) s = .next s := by
  simp [writeAlways]

theorem writeOperand_of_idle {s : State} (hr : s.codec.inReset = false) (hb : s.codec.busy = false) (f : Codec → Codec) :
    writeOperand f s = .next { s with codec := f s.codec } := by
  rw [writeOperand, writeAlways_of_released hr, hb]
  rfl

theorem writeOperand_of_busy {s : State} (hr : s.codec.inReset = false) (hb : s.codec.busy = true) (f : Codec → Codec) :
    writeOperand f s = .next s.dropped := by
  rw [writeOperand, writeAlways_of_released hr, hb]
  rfl

theorem writeCommand_of_busy {s : State} (hr : s.codec.inReset = false) (hb : s.codec.busy = true) (v : Word) :
    writeCommand v s = .next s.dropped := by
  rw [writeCommand, hr, hb]
  rfl

/-- Each flag that an acknowledgement may clear is kept where its bit is 0. -/
theorem Codec.acknowledge_eq (c : Codec) (v : Word) : c.acknowledge v = { c with
    done := c.done && !v.getLsbD 1
    err := if v.getLsbD 1 then .ok else c.err
    drop := c.drop && !v.getLsbD 2 } := by
  have hclear (b flag : Bool) : (if b then false else flag) = (flag && !b) := by cases b <;> simp
  simp only [Codec.acknowledge, hclear]

/-! ### The obligations -/

/-- Settles O17: the write is not an operand's, so BUSY does not hold it off. -/
theorem regWriteCtrlSetsTheInterruptEnable : Obligations.RegWriteCtrlSetsTheInterruptEnable :=
  fun v s hr => (exec_regWriteCtrl v s).trans (writeAlways_of_released hr _)

/-- Settles O18: the write is the acknowledgement, busy or not. -/
theorem regWriteStatusClearsByOnes : Obligations.RegWriteStatusClearsByOnes := fun v s hr => by
  rw [exec_regWriteStatus, writeAlways_of_released hr, Codec.acknowledge_eq]

/-- Settles O19: each is a write to an operand register of an idle codec. -/
theorem operandWritesStoreWhileIdle : Obligations.OperandWritesStoreWhileIdle := fun v s hr hb => by
  simp [writeOperand_of_idle hr hb]

/-- Settles O20: each is a write to an operand register of a running codec. -/
theorem operandWritesDropWhileBusy : Obligations.OperandWritesDropWhileBusy := fun v s hr hb => by
  simp [writeOperand_of_busy hr hb]

/-- Settles O21: a command word is the data of a write to CMD, which a running codec drops. -/
theorem commandsDropWhileBusy : Obligations.CommandsDropWhileBusy := fun s hr hb =>
  ⟨writeCommand_of_busy hr hb, fun op inw outw w => by rw [exec_commandOf, writeCommand_of_busy hr hb]⟩

/-- Settles O22: such a write changes nothing and a reserved offset holds no register. -/
theorem readOnlyAndReservedWritesDoNothing : Obligations.ReadOnlyAndReservedWritesDoNothing := fun s =>
  ⟨fun v => by simp, fun off halign hoff => ⟨fun v => by simp [exec_regWriteReserved halign hoff], s.readAt off,
    exec_regRead_of_aligned halign s, readReg_reserved hoff s.codec⟩⟩

end Sys2Proof.Machine
end

section
/-! PROOF. A command that starts (60_exceptions.md R124), and what every instruction leaves unchanged (40_host_registers.md R71 to
R79). -/

namespace Sys2Proof.Machine

/-! ### A command that starts -/

/-- A legal command word whose checks on the registers pass is accepted, with the command's hidden state. -/
theorem checkCommand_of_passes {addrW : Nat} {c : Codec} {op : Op} {inw outw : Width} {w : BitVec 7} (hpos : 1 ≤ w.toNat)
    (hle : w.toNat ≤ inw.bits) {j : Job} (hj : j = jobOf ⟨op, inw, outw, w.toNat⟩ c)
    (hpass : PassesChecks addrW c (jobSrcWidth j) (jobSrcWords j) (jobDstWidth j) (jobDstWords j)) :
    checkCommand addrW c (encodeCommand op inw outw w) = .ok j := by
  subst hj
  rw [checkCommand, decodeCommand_encodeCommand hpos hle]
  exact checkJob_of_passes rfl rfl hpass

/-- A command that passed its checks, with an access to make and its buffers in the model, goes to RUN. -/
theorem acceptCommand_of_starts {v : Word} {s : State} {j : Job}
    (hcheck : checkCommand s.platform.addrW (s.codec.take v) v = .ok j) (hlen : jobLength j ≠ 0)
    (hsrc : s.outsideModel (jobSrc j) = false) (hdst : s.outsideModel (jobDst j) = false) :
    acceptCommand v s = .next { s with codec := (s.codec.take v).start j } := by
  simp [acceptCommand, hcheck, hlen, hsrc, hdst]

/-- Settles O27: the command passes its checks and has an access to make, and neither buffer is outside the model. -/
theorem passingCommandsStart : Obligations.PassingCommandsStart := by
  intro op inw outw w s hr hb sw dw sreq dreq hops hpos hle hcount hpass hsrc hdst
  set v := encodeCommand op inw outw w
  set j := jobOf ⟨op, inw, outw, w.toNat⟩ (s.codec.take v) with hj
  obtain ⟨rfl, rfl, rfl, rfl⟩ : sw = jobSrcWidth j ∧ sreq = jobSrcWords j ∧ dw = jobDstWidth j ∧ dreq = jobDstWords j := by
    simpa only [Prod.mk.injEq] using hops.trans (acceptOperands_jobOf ⟨op, inw, outw, w.toNat⟩ (s.codec.take v))
  have hcheck : checkCommand s.platform.addrW (s.codec.take v) v = .ok j := checkCommand_of_passes hpos hle hj hpass
  have hlen : jobLength j ≠ 0 := jobLength_ne_zero fun h => hcount (BitVec.eq_of_toNat_eq h)
  have hwrite : writeCommand v s = .next (s.started v op inw outw w.toNat) := by
    rw [writeCommand_of_idle hr hb, acceptCommand_of_starts hcheck hlen hsrc hdst]
    rfl
  exact ⟨(exec_commandOf op inw outw w s).trans hwrite, hwrite⟩

/-! ### What an instruction can write -/

/-- An instruction that writes a command word: a write to CMD, or the word itself (30_encoding.md R54). -/
def WritesCommand (i : Instr) : Prop := (∃ v, i = .regWriteCmd v) ∨ ∃ op inw outw w, i = commandOf op inw outw w

/-- What an instruction can make of the selected codec (40_host_registers.md R71 to R79, 60_exceptions.md R124): a case for each way
of changing it, with the condition under which it happens. The last one bounds what a taken command writes. -/
inductive CodecEffect (c : Codec) : Instr → Codec → Prop where
  | none (i : Instr) : CodecEffect c i c
  | settled : CodecEffect c (.regRead 0x08) { c with claims := [] }
  | dropped (i : Instr) (hr : c.inReset = false) (hb : c.busy = true) : CodecEffect c i c.dropWrite
  | ctrl (v : Word) (hr : c.inReset = false) : CodecEffect c (.regWriteCtrl v) { c with ie := v.getLsbD 0 }
  | status (v : Word) (hr : c.inReset = false) : CodecEffect c (.regWriteStatus v) (c.acknowledge v)
  | srcBase (v : Word) (hr : c.inReset = false) : CodecEffect c (.regWriteSrcBase v) { c with srcBase := v }
  | srcLen (v : Word) (hr : c.inReset = false) : CodecEffect c (.regWriteSrcLen v) { c with srcLen := v }
  | dstBase (v : Word) (hr : c.inReset = false) : CodecEffect c (.regWriteDstBase v) { c with dstBase := v }
  | dstCap (v : Word) (hr : c.inReset = false) : CodecEffect c (.regWriteDstCap v) { c with dstCap := v }
  | count (v : Word) (hr : c.inReset = false) : CodecEffect c (.regWriteCount v) { c with count := v }
  | taken {i : Instr} (hi : WritesCommand i) (hr : c.inReset = false) (hb : c.busy = false) (cmd words : Word) (phase : Phase)
      (done : Bool) (err : Err) (added : List Claim) (raced : List Extent) :
      CodecEffect c i { c with cmd := cmd, words := words, phase := phase, done := done, err := err
                               claims := added ++ c.claims, raced := raced }

/-- What an instruction does to the parts of the state that any instruction changes: the selected codec and the value read. -/
structure InstrEffect (i : Instr) (s t : State) : Prop where
  codec : CodecEffect s.codec i t.codec
  readData : (∀ off, i ≠ .regRead off) → t.readData = s.readData

/-- A read changes no codec, but for the claims a STATUS read settles. -/
theorem codecEffect_afterRead (off : BitVec 8) (c : Codec) : CodecEffect c (.regRead off) (c.afterRead off) := by
  by_cases hoff : off = 0x08
  · subst hoff
    cases hd : c.done with
    | true => rw [Codec.afterRead_status, Codec.seen, if_pos hd]; exact .settled
    | false => rw [Codec.afterRead_status, Codec.seen_of_not_done hd]; exact .none _
  · rw [Codec.afterRead_of_ne hoff]
    exact .none _

/-- A write to a register of the codec, held off by reset or made. -/
theorem instrEffect_of_writeAlways {i : Instr} {f : Codec → Codec} {s t : State} (hi : exec i s = writeAlways f s)
    (h : exec i s = .next t) (hf : s.codec.inReset = false → CodecEffect s.codec i (f s.codec)) : InstrEffect i s t := by
  obtain ⟨u, hu, hheld, hmade⟩ := writeAlways_next f s
  obtain rfl : u = t := by simpa [hi, hu] using h
  cases hr : s.codec.inReset with
  | true => rw [hheld hr]; exact ⟨.none i, fun _ => rfl⟩
  | false => rw [hmade hr]; exact ⟨hf hr, fun _ => rfl⟩

/-- A write to an operand register, held off by reset, dropped while busy, or made. -/
theorem instrEffect_of_writeOperand {i : Instr} {f : Codec → Codec} {s t : State} (hi : exec i s = writeOperand f s)
    (h : exec i s = .next t) (hf : s.codec.inReset = false → CodecEffect s.codec i (f s.codec)) : InstrEffect i s t :=
  instrEffect_of_writeAlways hi h fun hr => by
    split
    case isTrue hb => exact .dropped i hr hb
    case isFalse => exact hf hr

/-- A write of a command word, held off by reset, dropped while busy, or taken: it fails, completes or starts. -/
theorem instrEffect_of_writeCommand {i : Instr} {v : Word} {s t : State} (hi : WritesCommand i) (h : writeCommand v s = .next t) :
    InstrEffect i s t := by
  rcases writeCommand_cases v s with ⟨-, hw⟩ | ⟨hr, hb, hw⟩ | ⟨hr, hb, hw⟩ <;> rw [hw] at h
  · cases h; exact ⟨.none i, fun _ => rfl⟩
  · cases h; exact ⟨.dropped i hr hb, fun _ => rfl⟩
  · rcases acceptCommand_cases v s with ⟨e, -, ha⟩ | ⟨j, -, ⟨-, ha⟩ | ⟨-, -, ha⟩ | ⟨-, -, ha⟩⟩ <;> rw [ha] at h <;> cases h
    · exact ⟨.taken hi hr hb _ _ _ _ _ [] _, fun _ => rfl⟩
    · exact ⟨.taken hi hr hb _ _ _ _ _ [] _, fun _ => rfl⟩
    · exact ⟨.taken hi hr hb _ _ _ _ _ [jobClaim j] _, fun _ => rfl⟩

/-- The effect of every instruction that answers. -/
theorem exec_effect {i : Instr} {s t : State} (h : exec i s = .next t) : InstrEffect i s t := by
  cases i with
  | regRead off =>
    rw [exec_regRead_next h]
    exact ⟨codecEffect_afterRead off s.codec, fun hi => absurd rfl (hi off)⟩
  | pack inw outw w => exact instrEffect_of_writeCommand (.inr ⟨.pack, inw, outw, w, rfl⟩) h
  | unpack inw outw w => exact instrEffect_of_writeCommand (.inr ⟨.unpack, inw, outw, w, rfl⟩) h
  | regWriteCmd v => exact instrEffect_of_writeCommand (.inl ⟨v, rfl⟩) h
  | regWriteCtrl v => exact instrEffect_of_writeAlways (exec_regWriteCtrl v s) h (.ctrl v)
  | regWriteStatus v => exact instrEffect_of_writeAlways (exec_regWriteStatus v s) h (.status v)
  | regWriteSrcBase v => exact instrEffect_of_writeOperand (exec_regWriteSrcBase v s) h (.srcBase v)
  | regWriteSrcLen v => exact instrEffect_of_writeOperand (exec_regWriteSrcLen v s) h (.srcLen v)
  | regWriteDstBase v => exact instrEffect_of_writeOperand (exec_regWriteDstBase v s) h (.dstBase v)
  | regWriteDstCap v => exact instrEffect_of_writeOperand (exec_regWriteDstCap v s) h (.dstCap v)
  | regWriteCount v => exact instrEffect_of_writeOperand (exec_regWriteCount v s) h (.count v)
  | regWriteWords v => exact instrEffect_of_writeAlways (exec_regWriteWords v s) h fun _ => .none _
  | regWriteReserved off v =>
    obtain ⟨halign, hoff⟩ := exec_regWriteReserved_next h
    exact instrEffect_of_writeAlways (exec_regWriteReserved halign hoff v s) h fun _ => .none _

/-! ### What it leaves unchanged -/

section
variable {c d : Codec} {i : Instr} (h : CodecEffect c i d)
include h

theorem CodecEffect.inReset_eq : d.inReset = c.inReset := by
  cases h <;> rfl

theorem CodecEffect.ie_eq (hi : ∀ v, i ≠ .regWriteCtrl v) : d.ie = c.ie := by
  cases h
  case ctrl v _ => exact absurd rfl (hi v)
  all_goals rfl

theorem CodecEffect.srcBase_eq (hi : ∀ v, i ≠ .regWriteSrcBase v) : d.srcBase = c.srcBase := by
  cases h
  case srcBase v _ => exact absurd rfl (hi v)
  all_goals rfl

theorem CodecEffect.srcLen_eq (hi : ∀ v, i ≠ .regWriteSrcLen v) : d.srcLen = c.srcLen := by
  cases h
  case srcLen v _ => exact absurd rfl (hi v)
  all_goals rfl

theorem CodecEffect.dstBase_eq (hi : ∀ v, i ≠ .regWriteDstBase v) : d.dstBase = c.dstBase := by
  cases h
  case dstBase v _ => exact absurd rfl (hi v)
  all_goals rfl

theorem CodecEffect.dstCap_eq (hi : ∀ v, i ≠ .regWriteDstCap v) : d.dstCap = c.dstCap := by
  cases h
  case dstCap v _ => exact absurd rfl (hi v)
  all_goals rfl

theorem CodecEffect.count_eq (hi : ∀ v, i ≠ .regWriteCount v) : d.count = c.count := by
  cases h
  case count v _ => exact absurd rfl (hi v)
  all_goals rfl

/-- Beside a write to STATUS, only a dropped write changes DROP. -/
theorem CodecEffect.drop_eq (hi : ∀ v, i ≠ .regWriteStatus v) : d.drop = c.drop ∨ (c.busy = true ∧ d.drop = true) := by
  cases h
  case dropped _ hb => exact .inr ⟨hb, rfl⟩
  case status v _ => exact absurd rfl (hi v)
  all_goals exact .inl rfl

/-- Where no command is taken, what a taken command writes stays, but for the flags an acknowledgement clears. -/
theorem CodecEffect.command_eq (hi : WritesCommand i → c.busy = true) :
    d.phase = c.phase ∧ d.cmd = c.cmd ∧ d.words = c.words
      ∧ ((∀ v, i ≠ .regWriteStatus v) → d.done = c.done ∧ d.err = c.err) := by
  cases h
  case taken hr hb _ _ _ _ _ _ _ hcmd => simp [hi hcmd] at hb
  case status v _ => exact ⟨rfl, rfl, rfl, fun hstatus => absurd rfl (hstatus v)⟩
  all_goals exact ⟨rfl, rfl, rfl, fun _ => ⟨rfl, rfl⟩⟩

/-- While reset is asserted no register, flag or hidden state is written. -/
theorem CodecEffect.eq_of_inReset (hr : c.inReset = true) : d = { c with claims := d.claims } := by
  cases h
  case none | settled => rfl
  all_goals simp_all

/-- Only a STATUS read ends a claim. -/
theorem CodecEffect.claims_append (hi : i ≠ .regRead 0x08) : ∃ added, d.claims = added ++ c.claims := by
  cases h
  case settled => exact absurd rfl hi
  case taken added _ _ => exact ⟨added, rfl⟩
  all_goals exact ⟨[], rfl⟩

end

/-- Settles O31: the frame of every instruction, and what each case of its effect leaves of the selected codec. -/
theorem instructionsKeepEverythingElse : Obligations.InstructionsKeepEverythingElse := by
  intro i s t h
  obtain ⟨hframe, hbase⟩ := exec_frame h
  obtain ⟨hcodec, hread⟩ := exec_effect h
  refine ⟨by rw [hframe], by rw [hframe], by rw [hframe], by rw [hframe], by rw [hframe], fun a => by rw [hframe], hbase,
    hcodec.inReset_eq, hread, hcodec.ie_eq, hcodec.srcBase_eq, hcodec.srcLen_eq, hcodec.dstBase_eq, hcodec.dstCap_eq,
    hcodec.count_eq, hcodec.drop_eq, fun hb => hcodec.command_eq fun _ => hb, hcodec.eq_of_inReset, hcodec.claims_append,
    fun hwrite hword => hcodec.command_eq fun hi => ?_⟩
  rcases hi with ⟨v, hv⟩ | ⟨op, inw, outw, w, hw⟩
  · exact absurd hv (hwrite v)
  · exact absurd hw (hword op inw outw w)

end Sys2Proof.Machine
end

section
/-! PROOF. The order of the access sequences (41_pack.md R92, 42_unpack.md R106): their reads and their writes each count up, and
a packed word of PACK is written after the reads of the values it holds bits of. -/

namespace Sys2Proof.Machine

/-! ### Rounding up -/

theorem ceildiv_eq_div_add (a : Nat) {b : Nat} (hb : 0 < b) : ceildiv a b = a / b + if a % b ≠ 0 then 1 else 0 := by
  have hdiv := Nat.mod_add_div a b
  have hlt := Nat.mod_lt a hb
  generalize a % b = r at hdiv hlt ⊢
  rw [ceildiv, show a + b - 1 = r + b - 1 + b * (a / b) by omega, Nat.add_mul_div_left _ _ hb, Nat.add_comm]
  congr 1
  split
  case isTrue hrem => exact Nat.div_eq_of_lt_le (by omega) (by omega)
  case isFalse hrem => exact Nat.div_eq_of_lt (by omega)

theorem ceildiv_eq_pred_div {a : Nat} (ha : 0 < a) {b : Nat} (hb : 0 < b) : ceildiv a b = (a - 1) / b + 1 := by
  rw [ceildiv, show a + b - 1 = a - 1 + b by omega, Nat.add_div_right _ hb]

@[simp] theorem ceildiv_zero {b : Nat} (hb : 0 < b) : ceildiv 0 b = 0 := Nat.div_eq_of_lt (by omega)

theorem ceildiv_mono {a a' : Nat} (h : a ≤ a') (b : Nat) : ceildiv a b ≤ ceildiv a' b :=
  Nat.div_le_div_right (by omega)

theorem div_le_ceildiv (a : Nat) {b : Nat} (hb : 0 < b) : a / b ≤ ceildiv a b := by
  rw [ceildiv_eq_div_add a hb]
  exact Nat.le_add_right _ _

/-! ### The reads and the writes of a sequence -/

/-- The source word an access reads. -/
def Access.readIndex : Access → Option Nat
  | .rd i => some i
  | .wr _ => none

/-- The destination word an access writes. -/
def Access.writeIndex : Access → Option Nat
  | .wr k => some k
  | .rd _ => none

@[simp] theorem Access.readIndex_rd (i : Nat) : (Access.rd i).readIndex = some i := rfl
@[simp] theorem Access.readIndex_wr (k : Nat) : (Access.wr k).readIndex = none := rfl
@[simp] theorem Access.writeIndex_rd (i : Nat) : (Access.rd i).writeIndex = none := rfl
@[simp] theorem Access.writeIndex_wr (k : Nat) : (Access.wr k).writeIndex = some k := rfl
@[simp] theorem Access.readIndex_comp_rd : Access.readIndex ∘ Access.rd = some := rfl
@[simp] theorem Access.writeIndex_comp_wr : Access.writeIndex ∘ Access.wr = some := rfl

section
variable (i : Nat) (l : List Access)
@[simp] theorem filterMap_readIndex_cons_rd : (.rd i :: l).filterMap Access.readIndex = i :: l.filterMap Access.readIndex := rfl
@[simp] theorem filterMap_readIndex_cons_wr : (.wr i :: l).filterMap Access.readIndex = l.filterMap Access.readIndex := rfl
@[simp] theorem filterMap_writeIndex_cons_rd : (.rd i :: l).filterMap Access.writeIndex = l.filterMap Access.writeIndex := rfl
@[simp] theorem filterMap_writeIndex_cons_wr : (.wr i :: l).filterMap Access.writeIndex = i :: l.filterMap Access.writeIndex :=
  rfl
end

theorem mem_filterMap_readIndex {l : List Access} {i : Nat} : i ∈ l.filterMap Access.readIndex ↔ .rd i ∈ l := by
  rw [List.mem_filterMap]
  constructor
  · rintro ⟨a, ha, hi⟩
    cases a <;> cases hi
    exact ha
  · exact fun h => ⟨_, h, rfl⟩

theorem mem_filterMap_writeIndex {l : List Access} {k : Nat} : k ∈ l.filterMap Access.writeIndex ↔ .wr k ∈ l := by
  rw [List.mem_filterMap]
  constructor
  · rintro ⟨a, ha, hk⟩
    cases a <;> cases hk
    exact ha
  · exact fun h => ⟨_, h, rfl⟩

/-- Every access is a read or a write. -/
theorem length_eq_reads_add_writes (l : List Access) :
    l.length = (l.filterMap Access.readIndex).length + (l.filterMap Access.writeIndex).length := by
  induction l with
  | nil => rfl
  | cons a l ih => cases a <;> simp [ih] <;> omega

/-- Two runs of indices, one after the other. -/
theorem range'_append_sub {a b c : Nat} (hab : a ≤ b) (hbc : b ≤ c) :
    List.range' a (b - a) ++ List.range' b (c - b) = List.range' a (c - a) := by
  have := List.range'_append_1 (s := a) (m := b - a) (n := c - b)
  rwa [Nat.add_sub_cancel' hab, show b - a + (c - b) = c - a by omega] at this

/-! ### PackSeq -/

theorem packSeqFrom_reads (ow w n i : Nat) : (packSeqFrom ow w n i).filterMap Access.readIndex = List.range' i n := by
  induction n generalizing i with
  | zero => unfold packSeqFrom; split <;> simp
  | succ n ih => simp [packSeqFrom, packWrites, ih, List.range'_succ]

theorem packSeqFrom_writes {ow : Nat} (how : 0 < ow) (w n i : Nat) : (packSeqFrom ow w n i).filterMap Access.writeIndex
    = List.range' (i * w / ow) (ceildiv ((i + n) * w) ow - i * w / ow) := by
  induction n generalizing i with
  | zero =>
    have hN := ceildiv_eq_div_add (i * w) how
    unfold packSeqFrom
    split
    case isTrue hrem =>
      rw [if_pos hrem] at hN
      simp [hN]
    case isFalse hrem =>
      rw [if_neg hrem] at hN
      simp [hN]
  | succ n ih =>
    have hnext : i * w / ow ≤ (i + 1) * w / ow := Nat.div_le_div_right (Nat.mul_le_mul_right _ (by omega))
    have hend : (i + 1) * w / ow ≤ ceildiv ((i + 1 + n) * w) ow :=
      (div_le_ceildiv _ how).trans (ceildiv_mono (Nat.mul_le_mul_right _ (by omega)) ow)
    simp only [packSeqFrom, packWrites, filterMap_writeIndex_cons_rd, List.filterMap_append, List.filterMap_map,
      Access.writeIndex_comp_wr, List.filterMap_some, ih, show i + (n + 1) = i + 1 + n by omega]
    exact range'_append_sub hnext hend

/-- `Rd(m)` stands behind one read for each value and one write for each packed word before it. -/
theorem packSeqFrom_getElem?_rd {ow w p m : Nat} (n i : Nat) : (packSeqFrom ow w n i)[p]? = some (.rd m)
    ↔ i ≤ m ∧ m < i + n ∧ p + i + i * w / ow = m + m * w / ow := by
  induction n generalizing i p with
  | zero =>
    have hnone : (packSeqFrom ow w 0 i)[p]? ≠ some (.rd m) := fun h => by
      have := mem_filterMap_readIndex.2 (List.mem_of_getElem? h)
      simp [packSeqFrom_reads] at this
    simp only [hnone, false_iff]
    omega
  | succ n ih =>
    have hmono {a b : Nat} (h : a ≤ b) : a * w / ow ≤ b * w / ow := Nat.div_le_div_right (Nat.mul_le_mul_right _ h)
    have hstep := hmono (Nat.le_add_right i 1)
    have hlen : (packWrites ow w i).length = (i + 1) * w / ow - i * w / ow := by simp [packWrites]
    rw [packSeqFrom]
    cases p with
    | zero =>
      simp only [List.getElem?_cons_zero, Option.some.injEq, Access.rd.injEq]
      constructor
      · rintro rfl; omega
      · rintro ⟨hle, -, hp⟩
        have := hmono hle
        omega
    | succ p =>
      rw [List.getElem?_cons_succ]
      rcases Nat.lt_or_ge p (packWrites ow w i).length with hp | hp
      · rw [List.getElem?_append_left hp]
        have hwr : (packWrites ow w i)[p]? ≠ some (.rd m) := fun h => by
          simpa [packWrites] using List.mem_of_getElem? h
        simp only [hwr, false_iff]
        rintro ⟨hle, -, hpos⟩
        rcases Nat.eq_or_lt_of_le hle with rfl | hlt
        · omega
        · have := hmono (show i + 1 ≤ m from hlt)
          omega
      · rw [List.getElem?_append_right hp, ih, hlen]
        constructor
        · rintro ⟨hle, hlt, hpos⟩
          omega
        · rintro ⟨hle, hlt, hpos⟩
          rcases Nat.eq_or_lt_of_le hle with rfl | hlt
          · omega
          · omega

/-- `Wr(k)` stands behind the read of every value that begins before the word ends. -/
theorem rd_mem_take_packSeqFrom {ow w p k m : Nat} (how : 0 < ow) (n i : Nat) (hk : (packSeqFrom ow w n i)[p]? = some (.wr k))
    (him : i ≤ m) (hmn : m < i + n) (hm : m * w < (k + 1) * ow) : .rd m ∈ (packSeqFrom ow w n i).take p := by
  induction n generalizing i p with
  | zero => omega
  | succ n ih =>
    rw [packSeqFrom] at hk ⊢
    cases p with
    | zero => simp at hk
    | succ p =>
      rw [List.getElem?_cons_succ] at hk
      rw [List.take_succ_cons, List.mem_cons, List.take_append, List.mem_append]
      rcases Nat.eq_or_lt_of_le him with rfl | him
      · exact .inl rfl
      · rcases Nat.lt_or_ge p (packWrites ow w i).length with hp | hp
        · rw [List.getElem?_append_left hp] at hk
          have hdone := ((mem_packWrites how).1 (List.mem_of_getElem? hk)).2
          have : (i + 1) * w ≤ m * w := Nat.mul_le_mul_right _ him
          omega
        · rw [List.getElem?_append_right hp] at hk
          exact .inr (.inr (ih _ hk him (by omega)))

theorem packSeq_reads (count ow w : Nat) : (packSeq count ow w).filterMap Access.readIndex = List.range count := by
  rw [packSeq, packSeqFrom_reads, List.range_eq_range']

theorem packSeq_writes {ow : Nat} (how : 0 < ow) (count w : Nat) :
    (packSeq count ow w).filterMap Access.writeIndex = List.range (ceildiv (count * w) ow) := by
  rw [packSeq, packSeqFrom_writes how, List.range_eq_range']
  simp

/-- Settles O38: each part follows the recursion of the sequence over the values. -/
theorem packSequenceOrder : Obligations.PackSequenceOrder := by
  intro count w outw _
  have how := Width.bits_pos outw
  refine ⟨?length, fun p i => ?place, packSeq_reads count outw.bits w, packSeq_writes how count w,
    fun p k i hk hi hlo _ => ?order⟩
  case length => simp [length_eq_reads_add_writes, packSeq_reads, packSeq_writes how, packedLength]
  case place =>
    rw [packSeq, packSeqFrom_getElem?_rd]
    simp
  case order => exact rd_mem_take_packSeqFrom how count 0 hk (Nat.zero_le i) (by omega) hlo

/-! ### UnpackSeq -/

/-- The packed words that hold a bit of the values up to `i` are those before the end of value `i`. -/
theorem ceildiv_succ_mul {ow w : Nat} (how : 0 < ow) (hw : 0 < w) (i : Nat) :
    (i * w + w - 1) / ow + 1 = ceildiv ((i + 1) * w) ow := by
  rw [ceildiv_eq_pred_div (by positivity) how, Nat.succ_mul]

/-- One round of `UnpackSeq`: the words up to the end of value `i` that are still to read, and the write of the value. -/
theorem unpackSeqFrom_succ {ow w : Nat} (how : 0 < ow) (hw : 0 < w) (n i : Nat) :
    unpackSeqFrom ow w (n + 1) i (ceildiv (i * w) ow)
      = (List.range' (ceildiv (i * w) ow) (ceildiv ((i + 1) * w) ow - ceildiv (i * w) ow)).map Access.rd
        ++ .wr i :: unpackSeqFrom ow w n (i + 1) (ceildiv ((i + 1) * w) ow) := by
  have hnext : ceildiv (i * w) ow ≤ ceildiv ((i + 1) * w) ow := ceildiv_mono (Nat.mul_le_mul_right _ (by omega)) ow
  rw [unpackSeqFrom, unpackReads, ceildiv_succ_mul how hw, Nat.max_eq_right hnext]

theorem unpackSeqFrom_reads {ow w : Nat} (how : 0 < ow) (hw : 0 < w) (n i : Nat) :
    (unpackSeqFrom ow w n i (ceildiv (i * w) ow)).filterMap Access.readIndex
      = List.range' (ceildiv (i * w) ow) (ceildiv ((i + n) * w) ow - ceildiv (i * w) ow) := by
  induction n generalizing i with
  | zero => simp [unpackSeqFrom]
  | succ n ih =>
    have hmono {a b : Nat} (h : a ≤ b) : ceildiv (a * w) ow ≤ ceildiv (b * w) ow := ceildiv_mono (Nat.mul_le_mul_right _ h) ow
    simp only [unpackSeqFrom_succ how hw, List.filterMap_append, List.filterMap_map, Access.readIndex_comp_rd,
      List.filterMap_some, filterMap_readIndex_cons_wr, ih, show i + 1 + n = i + (n + 1) by omega]
    exact range'_append_sub (hmono (Nat.le_add_right i 1)) (hmono (by omega))

theorem unpackSeqFrom_writes (ow w n i next : Nat) :
    (unpackSeqFrom ow w n i next).filterMap Access.writeIndex = List.range' i n := by
  induction n generalizing i next with
  | zero => simp [unpackSeqFrom]
  | succ n ih => simp [unpackSeqFrom, unpackReads, ih, List.range'_succ]

theorem unpackSeq_reads {ow w : Nat} (how : 0 < ow) (hw : 0 < w) (count : Nat) :
    (unpackSeq count ow w).filterMap Access.readIndex = List.range (ceildiv (count * w) ow) := by
  have hzero : ceildiv (0 * w) ow = 0 := by rw [Nat.zero_mul, ceildiv_zero how]
  have := unpackSeqFrom_reads how hw count 0
  rw [hzero] at this
  simpa [unpackSeq, List.range_eq_range'] using this

theorem unpackSeq_writes (count ow w : Nat) : (unpackSeq count ow w).filterMap Access.writeIndex = List.range count := by
  rw [unpackSeq, unpackSeqFrom_writes, List.range_eq_range']

/-! ### The sequence of a command -/

theorem jobReadsDone_eq (j : Job) : jobReadsDone j = ((jobSeq j).take j.pos).filterMap Access.readIndex := rfl

theorem jobSeq_reads {j : Job} (hw : 1 ≤ j.w) : (jobSeq j).filterMap Access.readIndex = List.range (jobSrcWords j) := by
  cases hop : j.op with
  | pack =>
    simp only [jobSeq, jobSrcWords, hop]
    exact packSeq_reads _ _ _
  | unpack =>
    simp only [jobSeq, jobSrcWords, hop]
    exact unpackSeq_reads (Width.bits_pos _) hw _

theorem jobSeq_writes (j : Job) : (jobSeq j).filterMap Access.writeIndex = List.range (jobDstWords j) := by
  cases hop : j.op with
  | pack =>
    simp only [jobSeq, jobDstWords, hop]
    exact packSeq_writes (Width.bits_pos _) _ _
  | unpack =>
    simp only [jobSeq, jobDstWords, hop]
    exact unpackSeq_writes _ _ _

theorem jobLength_eq (j : Job) : jobLength j = jobSrcWords j + jobDstWords j := by
  cases hop : j.op <;> simp only [jobLength, jobSrcWords, jobDstWords, hop]
  exact Nat.add_comm _ _

theorem jobSeq_length {j : Job} (hw : 1 ≤ j.w) : (jobSeq j).length = jobLength j := by
  rw [length_eq_reads_add_writes, jobSeq_reads hw, jobSeq_writes, List.length_range, List.length_range, jobLength_eq]

theorem rd_mem_jobSeq {j : Job} (hw : 1 ≤ j.w) {i : Nat} : .rd i ∈ jobSeq j ↔ i < jobSrcWords j := by
  rw [← mem_filterMap_readIndex, jobSeq_reads hw, List.mem_range]

theorem wr_mem_jobSeq {j : Job} {k : Nat} : .wr k ∈ jobSeq j ↔ k < jobDstWords j := by
  rw [← mem_filterMap_writeIndex, jobSeq_writes, List.mem_range]

end Sys2Proof.Machine
end

section
/-! PROOF. A command of no values (41_pack.md R94, 42_unpack.md R108): both its extents are empty, so of the checks on the
registers only the alignment can fail. -/

namespace Sys2Proof.Machine

theorem decodeCommand_encodeCommand_of_width {op : Op} {inw outw : Width} {w : BitVec 7}
    (h : w.toNat = 0 ∨ inw.bits < w.toNat) : decodeCommand (encodeCommand op inw outw w) = .error .width := by
  rw [decodeCommand_of_op ⟨by simp, by simp⟩ (cmdOp_encodeCommand op inw outw w)]
  simp [h]

/-- No values pack into no words. -/
@[simp] theorem packedLength_zero (w : Nat) (outw : Width) : packedLength 0 w outw = 0 := by
  rw [packedLength, Nat.zero_mul, ceildiv_zero (Width.bits_pos outw)]

section
variable {j : Job} (h : j.cnt = 0)
include h

theorem jobSrcWords_of_no_values : jobSrcWords j = 0 := by
  cases hop : j.op <;> simp [jobSrcWords, jobPackedWords, hop, h]

theorem jobDstWords_of_no_values : jobDstWords j = 0 := by
  cases hop : j.op <;> simp [jobDstWords, jobPackedWords, hop, h]

theorem jobLength_of_no_values : jobLength j = 0 := by
  simp [jobLength, jobPackedWords, h]

theorem checkJob_of_no_values (addrW : Nat) (c : Codec) : checkJob addrW c j
    = if j.sb % (jobSrcWidth j).bytes ≠ 0 ∨ j.db % (jobDstWidth j).bytes ≠ 0 then .error .align else .ok j := by
  simp [checkJob, jobSrc, jobDst, jobSrcWords_of_no_values h, jobDstWords_of_no_values h, extentOutOfRange, extentsMeet]

end

/-- Settles O28: the word fails to decode, or its command has empty extents and only the alignment is left to check. -/
theorem commandsOfNoValuesCompleteAtOnce : Obligations.CommandsOfNoValuesCompleteAtOnce := by
  intro op inw outw w s hr hb hcount sw dw sreq dreq hops v
  have hexec : exec (commandOf op inw outw w) s = acceptCommand v s := by
    rw [exec_commandOf, writeCommand_of_idle hr hb]
  set c := s.codec.take v with hc
  set j := jobOf ⟨op, inw, outw, w.toNat⟩ c with hj
  have hcnt : j.cnt = 0 := by simp [hj, jobOf, hc, hcount]
  obtain ⟨rfl, rfl⟩ : sw = jobSrcWidth j ∧ dw = jobDstWidth j := by
    cases op <;> simp_all [acceptOperands, jobOf, jobSrcWidth, jobDstWidth]
  have hcheck (hpos : 1 ≤ w.toNat) (hle : w.toNat ≤ inw.bits) : checkCommand s.platform.addrW c v
      = if s.codec.srcBase.toNat % (jobSrcWidth j).bytes ≠ 0 ∨ s.codec.dstBase.toNat % (jobDstWidth j).bytes ≠ 0
        then .error .align else .ok j := by
    rw [checkCommand, decodeCommand_encodeCommand hpos hle]
    exact checkJob_of_no_values hcnt s.platform.addrW c
  refine ⟨fun hw => ?width, fun hpos hle halign => ?align, fun hpos hle hsrc hdst => ?complete⟩
  case width =>
    rw [hexec, acceptCommand, checkCommand, decodeCommand_encodeCommand_of_width hw]
    rfl
  case align =>
    rw [hexec, acceptCommand, hcheck hpos hle, if_pos halign]
    rfl
  case complete =>
    rw [hexec, acceptCommand, hcheck hpos hle, if_neg (by simp [hsrc, hdst])]
    simp only [jobLength_of_no_values hcnt, if_true]
    rfl

end Sys2Proof.Machine
end

section
/-! PROOF. One engine step with no race (41_pack.md R93, 42_unpack.md R107): a read gives the word memory holds, a
write stores the word of the bitstream formula, and the last access completes the command (60_exceptions.md R137). -/

namespace Sys2Proof.Machine

/-! ### Counting an access -/

/-- The codec once `n` accesses of its command `j` are counted: the command goes on, or has completed after the last one. -/
def Codec.counted (c : Codec) (j : Job) (n : Nat) : Codec :=
  if n = jobLength j then c.complete (jobPackedWords j) else { c with phase := .run { j with pos := n } }

theorem Codec.counted_of_last (c : Codec) {j : Job} {n : Nat} (h : n = jobLength j) :
    c.counted j n = c.complete (jobPackedWords j) := if_pos h

theorem Codec.counted_of_not_last (c : Codec) {j : Job} {n : Nat} (h : n ≠ jobLength j) :
    c.counted j n = { c with phase := .run { j with pos := n } } := if_neg h

/-- Where no write raced, counting an access changes the codec alone. -/
theorem advance_of_unraced {s : State} (h : s.codec.raced = []) (j : Job) :
    advance j s = { s with codec := s.codec.counted j (j.pos + 1) } := by
  by_cases hlast : j.pos + 1 = jobLength j
  · rw [advance_of_last hlast, Codec.counted_of_last _ hlast, h, State.spoilRaced_nil, ← h]
    rfl
  · rw [advance_of_not_last hlast, Codec.counted_of_not_last _ hlast]

/-! ### Reads -/

/-- With no race a load gives the word memory holds. -/
theorem State.engineLoad_of_alone {s : State} {x : Extent} (hraced : s.codec.raced = []) (halone : s.alone x = true) :
    s.engineLoad x = (s.memRead x, s) := by
  rw [State.alone, Bool.not_eq_true'] at halone
  simp [State.engineLoad, hraced, halone]

/-- The hidden state of a command that has read source word `i` as `x`. -/
def Job.withRead (j : Job) (i x : Nat) : Job := { j with rdata := j.rdata ++ [(i, x)] }

/-- An engine read with no race: the word goes to RDATA and the access is counted. -/
theorem engineStep_rd_of_alone {s : State} {j : Job} {i : Nat} (hr : s.codec.inReset = false) (hp : s.codec.phase = .run j)
    (hi : (jobSeq j)[j.pos]? = some (.rd i)) (hok : s.busOK (jobSrcWord j i) .read = true) (hraced : s.codec.raced = [])
    (halone : s.alone (jobSrcWord j i) = true) : engineStep s = { s with
      codec := s.codec.counted (j.withRead i (s.memRead (jobSrcWord j i))) (j.pos + 1) } := by
  rw [engineStep_rd hr hp hi hok, State.engineLoad_of_alone hraced halone]
  exact advance_of_unraced hraced _

/-- Settles O32: an access that is not the last leaves the command in RUN. -/
theorem engineReadStep : Obligations.EngineReadStep := by
  intro s j i hr hp hi hok hraced halone hlast
  rw [engineStep_rd_of_alone hr hp hi hok hraced halone, Codec.counted_of_not_last _ (j := j.withRead i _) hlast]
  rfl

/-! ### Writes -/

theorem State.engineStore_of_alone {s : State} {x : Extent} (h : s.alone x = true) (v : Nat) :
    s.engineStore x v = s.engineStored x v := by
  rw [State.alone, Bool.not_eq_true'] at h
  rw [State.engineStore_eq, State.spoil_none _ _ _ h]

/-- An engine write with no race: the word is stored and the access is counted. -/
theorem engineStep_wr_of_alone {s : State} {j : Job} {k : Nat} (hr : s.codec.inReset = false) (hp : s.codec.phase = .run j)
    (hk : (jobSeq j)[j.pos]? = some (.wr k)) (hok : s.busOK (jobDstWord j k) .write = true) (hraced : s.codec.raced = [])
    (halone : s.alone (jobDstWord j k) = true) : engineStep s = { s.engineStored (jobDstWord j k) (jobValue j k) with
      codec := s.codec.counted j (j.pos + 1) } := by
  rw [engineStep_wr hr hp hk hok, State.engineStore_of_alone halone]
  exact advance_of_unraced (s := s.engineStored _ _) hraced j

/-- A word stored reads back, if it fits. -/
theorem State.memRead_engineStored {s : State} (hm : s.mem.wf = true) {x : Extent} {v : Nat} (hv : v < 256 ^ x.len) :
    (s.engineStored x v).memRead x = v := by
  have hback := Memory.readBytes_writeBytes (bytesOfNumber s.platform.endian x.len v) s.mem hm x.base
  rw [bytesOfNumber_length] at hback
  rw [State.memRead, State.engineStored, hback, numberOfBytes_bytesOfNumber _ _ _ hv]

theorem State.read_engineStored_of_misses {x : Extent} {a : Nat} (h : ¬ extentHas x a) (s : State) (v : Nat) :
    Memory.read (s.engineStored x v).mem a = Memory.read s.mem a :=
  Memory.read_writeBytes_other _ _ _ _ (by rw [bytesOfNumber_length]; exact extentMisses_iff.2 h)

/-- The value of a destination word fits the word. -/
theorem jobValue_lt {j : Job} (hw : j.w ≤ j.inw.bits) (k : Nat) : jobValue j k < 256 ^ (jobDstWidth j).bytes := by
  have hbits : 256 ^ (jobDstWidth j).bytes = 2 ^ (jobDstWidth j).bits := by rw [Width.bits_eq_bytes, Nat.pow_mul]
  rw [hbits]
  cases hop : j.op with
  | pack =>
    simp only [jobValue, jobDstWidth, hop]
    exact packedWord_lt _ _ _ _
  | unpack =>
    simp only [jobValue, jobDstWidth, hop]
    exact lt_of_lt_of_le (Nat.mod_lt _ (Nat.two_pow_pos _)) (Nat.pow_le_pow_right (by omega) hw)

/-! ### The bitstream formula -/

theorem slice_eq (v lo len : Nat) : slice v lo len = v / 2 ^ lo % 2 ^ len := by
  rw [slice, maskTo, Nat.shiftRight_eq_div_pow]

theorem packStream_eq_sum (w : Nat) (rdata : List (Nat × Nat)) :
    packStream w rdata = (rdata.map fun p => (p.2 % 2 ^ w) * 2 ^ (p.1 * w)).sum := by
  induction rdata with
  | nil => rfl
  | cons p rdata ih => rw [packStream, ih, List.map_cons, List.sum_cons, Nat.shiftLeft_eq, maskTo]

theorem unpackStream_eq_sum (ow : Nat) (rdata : List (Nat × Nat)) :
    unpackStream ow rdata = (rdata.map fun p => p.2 * 2 ^ (p.1 * ow)).sum := by
  induction rdata with
  | nil => rfl
  | cons p rdata ih => rw [unpackStream, ih, List.map_cons, List.sum_cons, Nat.shiftLeft_eq]

/-- Settles O33: the word stored is the value of the formula, which fits it, and counting the access changes no memory. -/
theorem engineWriteStep : Obligations.EngineWriteStep := by
  intro s j k hm hr hp hw hk hok hraced halone
  have hstep := engineStep_wr_of_alone hr hp hk hok hraced halone
  have hread : (engineStep s).memRead (jobDstWord j k) = jobValue j k := by
    rw [hstep]
    exact State.memRead_engineStored hm (jobValue_lt hw k)
  refine ⟨fun hop => ?pack, fun hop => ?unpack, fun a ha => ?frame, ?draws, fun hlast => ?next, fun hlast => ?last⟩
  case pack => rw [hread, jobValue, hop, packedWord, slice_eq, packStream_eq_sum]
  case unpack => rw [hread, jobValue, hop, unpackedValue, slice_eq, unpackStream_eq_sum]
  case frame =>
    rw [hstep]
    exact State.read_engineStored_of_misses (extentMisses_iff.1 ha) s _
  case draws => rw [hstep]; rfl
  case next => rw [hstep, Codec.counted_of_not_last _ hlast]
  case last =>
    rw [hstep, Codec.counted_of_last _ hlast]
    rfl

/-! ### The last access -/

/-- An engine step whose access the platform accepts counts the access, whether or not other agents raced. -/
theorem engineStep_codec {s : State} {j : Job} (hr : s.codec.inReset = false) (hp : s.codec.phase = .run j) {a : Access}
    (ha : (jobSeq j)[j.pos]? = some a) (hrd : ∀ i, a = .rd i → s.busOK (jobSrcWord j i) .read = true)
    (hwr : ∀ k, a = .wr k → s.busOK (jobDstWord j k) .write = true) :
    ∃ r t, engineStep s = advance { j with rdata := r } t ∧ t.codec = s.codec := by
  cases a with
  | rd i => exact ⟨_, _, engineStep_rd hr hp ha (hrd i rfl), by rw [State.engineLoad_frame]⟩
  | wr k => exact ⟨j.rdata, _, engineStep_wr hr hp ha (hwr k rfl), by rw [State.engineStore_frame]⟩

/-- The registers of a running command hold its packed length, so WORDS holds it whole. -/
theorem Job.Copies.packedWords_lt {c : Codec} {j : Job} (h : Job.Copies c j) : jobPackedWords j < 2 ^ 64 := by
  have hsrc := h.srcLen
  have hdst := h.dstCap
  cases hop : j.op with
  | pack =>
    simp only [jobDstWords, hop] at hdst
    exact lt_of_le_of_lt hdst c.dstCap.isLt
  | unpack =>
    simp only [jobSrcWords, hop] at hsrc
    exact lt_of_le_of_lt hsrc c.srcLen.isLt

/-- Settles O35: the sequence has an access at the last place, and counting it completes the command. -/
theorem lastAccessCompletesTheCommand : Obligations.LastAccessCompletesTheCommand := by
  intro s j hinv hp hlast hrd hwr
  obtain ⟨hr, -, hj, hcopies, -⟩ := hinv.codec.run hp
  have hpos : j.pos < (jobSeq j).length := by rw [jobSeq_length hj.w_pos]; exact hj.pos_lt
  have ha := List.getElem?_eq_getElem hpos
  obtain ⟨r, t, hstep, htc⟩ := engineStep_codec hr hp ha (fun i hi => hrd i (ha.trans (congrArg some hi)))
    fun k hk => hwr k (ha.trans (congrArg some hk))
  have hwords : ((t.codec.complete (jobPackedWords j)).words).toNat = jobPackedWords j :=
    Nat.mod_eq_of_lt hcopies.packedWords_lt
  rw [hstep, advance_of_last (j := { j with rdata := r }) hlast]
  exact ⟨rfl, rfl, rfl, rfl, hwords⟩

end Sys2Proof.Machine
end

section
/-! PROOF. The laws of PACK (41_pack.md R96): the stream sees its values masked, the packed words hold the same stream in base
`2^OutW`, and streams concatenate. -/

namespace Sys2Proof.Machine

/-! ### Slices, bit by bit -/

theorem slice_testBit {len b : Nat} (hb : b < len) (v lo : Nat) : (slice v lo len).testBit b = v.testBit (lo + b) := by
  simp [slice, maskTo, Nat.testBit_mod_two_pow, Nat.testBit_shiftRight, hb]

theorem slice_testBit_of_le {len b : Nat} (hb : len ≤ b) (v lo : Nat) : (slice v lo len).testBit b = false :=
  Nat.testBit_lt_two_pow (lt_of_lt_of_le (Nat.mod_lt _ (Nat.two_pow_pos len)) (Nat.pow_le_pow_right (by omega) hb))

/-- Slices of two numbers that agree bit by bit there are equal. -/
theorem slice_congr {v v' lo lo' len : Nat} (h : ∀ b, b < len → v.testBit (lo + b) = v'.testBit (lo' + b)) :
    slice v lo len = slice v' lo' len := by
  refine Nat.eq_of_testBit_eq fun b => ?_
  rcases Nat.lt_or_ge b len with hb | hb
  · rw [slice_testBit hb, slice_testBit hb, h b hb]
  · rw [slice_testBit_of_le hb, slice_testBit_of_le hb]

/-! ### Masking first -/

theorem packStream_indexed_map_mask (w : Nat) (xs : List Nat) :
    packStream w (indexed (xs.map (· % 2 ^ w))) = packStream w (indexed xs) := by
  induction xs with
  | nil => rfl
  | cons x xs ih => rw [List.map_cons, packStream_indexed_cons, packStream_indexed_cons, ih, maskTo, maskTo, Nat.mod_mod]

/-- The packed words depend on the stream alone. -/
theorem packedWord_congr {w : Nat} {r r' : List (Nat × Nat)} (h : packStream w r = packStream w r') (ow : Nat) :
    packedWord ow w r = packedWord ow w r' := by
  funext k
  rw [packedWord, packedWord, h]

/-- PACK sees its values masked to `W` bits. -/
theorem packWords_map_mask (ow w : Nat) (xs : List Nat) : packWords ow w (xs.map (· % 2 ^ w)) = packWords ow w xs := by
  rw [packWords, packWords, List.length_map, packedWord_congr (packStream_indexed_map_mask w xs)]

/-! ### Unpacking the packed words -/

/-- Packed words that fit their width are the stream's digits in base `2^OutW`. -/
theorem unpackStream_eq_packStream {ow : Nat} {r : List (Nat × Nat)} (h : ∀ p ∈ r, p.2 < 2 ^ ow) :
    unpackStream ow r = packStream ow r := by
  induction r with
  | nil => rfl
  | cons p r ih =>
    obtain ⟨hp, hr⟩ := List.forall_mem_cons.1 h
    rw [unpackStream, packStream, ih hr, maskTo, Nat.mod_eq_of_lt hp]

theorem unpackStream_indexedPacked {ow : Nat} {ps : List Nat} (h : ∀ p ∈ ps, p < 2 ^ ow) :
    unpackStream ow (indexedPacked ps) = packStream ow (indexed ps) := by
  refine unpackStream_eq_packStream fun p hp => ?_
  obtain ⟨q, hq, rfl⟩ := List.mem_map.1 hp
  exact h _ (List.fst_mem_of_mem_zipIdx hq)

theorem forall_mem_packWords_lt (ow w : Nat) (xs : List Nat) : ∀ p ∈ packWords ow w xs, p < 2 ^ ow := by
  intro p hp
  obtain ⟨k, -, rfl⟩ := List.mem_map.1 hp
  exact packedWord_lt _ _ _ _

/-- The packed words hold the stream of the values. -/
theorem unpackStream_packWords {ow : Nat} (how : 0 < ow) (w : Nat) (xs : List Nat) :
    unpackStream ow (indexedPacked (packWords ow w xs)) = packStream w (indexed xs) := by
  rw [unpackStream_indexedPacked (forall_mem_packWords_lt ow w xs)]
  refine Nat.eq_of_testBit_eq fun p => ?_
  have hbit := packStream_indexed_testBit ow (packWords ow w xs) (p / ow) (p % ow) (Nat.mod_lt p how)
  rwa [Nat.div_add_mod', packWords_testBit how] at hbit

/-- Value `i` of the stream is value word `i`, masked. -/
theorem slice_packStream_indexed (w : Nat) (xs : List Nat) (i : Nat) :
    slice (packStream w (indexed xs)) (i * w) w = xs.getD i 0 % 2 ^ w := by
  refine Nat.eq_of_testBit_eq fun b => ?_
  rcases Nat.lt_or_ge b w with hb | hb
  · rw [slice_testBit hb, packStream_indexed_testBit w xs i b hb]
    simp [Nat.testBit_mod_two_pow, hb]
  · rw [slice_testBit_of_le hb]
    simp [Nat.testBit_mod_two_pow, Nat.not_lt.2 hb]

/-- Unpacking the packed words gives the values masked to `W` bits (42_unpack.md R110). -/
theorem unpackValues_packWords {ow : Nat} (how : 0 < ow) (w : Nat) (xs : List Nat) :
    unpackValues ow w xs.length (packWords ow w xs) = xs.map (· % 2 ^ w) := by
  refine List.ext_getElem (by simp [unpackValues]) fun i _ hi => ?_
  have hi : i < xs.length := by simpa using hi
  simp only [unpackValues, unpackedValue, unpackStream_packWords how, List.getElem_map, List.getElem_range,
    slice_packStream_indexed, List.getD_eq_getElem _ _ hi]

/-! ### Blocks one after the other -/

theorem packStream_indexed_append (w : Nat) (xs ys : List Nat) : packStream w (indexed (xs ++ ys))
    = 2 ^ (xs.length * w) * packStream w (indexed ys) + packStream w (indexed xs) := by
  induction xs with
  | nil => simp
  | cons x xs ih =>
    rw [List.cons_append, packStream_indexed_cons, packStream_indexed_cons, ih, List.length_cons]
    ring

theorem ceildiv_mul_add (q b : Nat) {ow : Nat} (how : 0 < ow) : ceildiv (q * ow + b) ow = q + ceildiv b ow := by
  rw [ceildiv, ceildiv, show q * ow + b + ow - 1 = b + ow - 1 + ow * q by rw [Nat.mul_comm]; omega, Nat.add_mul_div_left _ _ how,
    Nat.add_comm]

/-- A block that ends on a word boundary and the block after it pack apart. -/
theorem packWords_append {ow w : Nat} (how : 0 < ow) {xs : List Nat} (hend : xs.length * w % ow = 0) (ys : List Nat) :
    packWords ow w (xs ++ ys) = packWords ow w xs ++ packWords ow w ys := by
  obtain ⟨q, hq⟩ : ∃ q, xs.length * w = q * ow := ⟨_, (Nat.div_mul_cancel (Nat.dvd_of_mod_eq_zero hend)).symm⟩
  have hx : packStream w (indexed xs) < 2 ^ (q * ow) := hq ▸ packStream_indexed_lt w xs
  have hlen : ceildiv (xs.length * w) ow = q := by simpa [hq, how] using ceildiv_mul_add q 0 how
  have hsum : ceildiv ((xs ++ ys).length * w) ow = q + ceildiv (ys.length * w) ow := by
    rw [List.length_append, Nat.add_mul, hq, ceildiv_mul_add q _ how]
  rw [packWords, packWords, packWords, hlen, hsum, List.range_add, List.map_append, List.map_map]
  congr 1
  · refine List.map_congr_left fun k hk => slice_congr fun b hb => ?_
    have hword : (k + 1) * ow ≤ q * ow := Nat.mul_le_mul_right _ (List.mem_range.1 hk)
    rw [packStream_indexed_append, hq, Nat.testBit_two_pow_mul_add _ hx, if_pos (by rw [Nat.succ_mul] at hword; omega)]
  · refine List.map_congr_left fun k _ => slice_congr fun b _ => ?_
    rw [packStream_indexed_append, hq, Nat.testBit_two_pow_mul_add _ hx, Nat.add_mul, if_neg (by omega)]
    congr 1
    omega

/-- Settles O45: masking, the round trip and concatenation, each a law of the stream. -/
theorem packLaws : Obligations.PackLaws := by
  intro outw w xs ys _
  have how := Width.bits_pos outw
  refine ⟨packWords_map_mask outw.bits w xs, ?_, fun hend => packWords_append how hend ys⟩
  rw [unpackValues_packWords how, packWords_map_mask]

end Sys2Proof.Machine
end

section
/-! PROOF. The sequential form of PACK (41_pack.md R89): when its cursor has passed the low `L` bits of the stream, it has
written the full words of them and holds the rest. -/

namespace Sys2Proof.Machine

/-- The packing cursor when the low `L` bits of the stream, the number `S`, are placed (43_width_adaptation.md R115). -/
def PackCursor.past (ow L S : Nat) : PackCursor :=
  ⟨L % ow, S / 2 ^ (L / ow * ow), (List.range (L / ow)).map fun k => slice S (k * ow) ow⟩

theorem PackCursor.past_zero (ow : Nat) : PackCursor.past ow 0 0 = ⟨0, 0, []⟩ := by
  simp [PackCursor.past]

/-- Bits placed above the low `L` leave the words written as they are. -/
theorem slice_add_mul_two_pow {S L k ow : Nat} (hS : S < 2 ^ L) (hk : k < L / ow) (y : Nat) :
    slice (2 ^ L * y + S) (k * ow) ow = slice S (k * ow) ow := by
  refine slice_congr fun b hb => ?_
  have hword : (k + 1) * ow ≤ L := (Nat.mul_le_mul_right _ hk).trans (Nat.div_mul_le_self L ow)
  rw [Nat.testBit_two_pow_mul_add _ hS, if_pos (by rw [Nat.succ_mul] at hword; omega)]

/-- The word being built once bits are placed above the low `L`: they go in from the bit cursor on. -/
theorem curWord_add {ow S L : Nat} (hS : S < 2 ^ L) (y : Nat) :
    (2 ^ L * y + S) / 2 ^ (L / ow * ow) = S / 2 ^ (L / ow * ow) ||| y <<< (L % ow) := by
  have hL : L = L / ow * ow + L % ow := (Nat.div_add_mod' L ow).symm
  have hcur : S / 2 ^ (L / ow * ow) < 2 ^ (L % ow) := by
    rw [Nat.div_lt_iff_lt_mul (Nat.two_pow_pos _), ← Nat.pow_add, Nat.add_comm, ← hL]
    exact hS
  rw [Nat.or_comm, ← Nat.shiftLeft_add_eq_or_of_lt hcur, Nat.shiftLeft_eq]
  conv_lhs => rw [hL, Nat.pow_add, Nat.mul_assoc, Nat.add_comm, ← hL, Nat.add_mul_div_left _ _ (Nat.two_pow_pos _)]
  rw [Nat.add_comm, Nat.mul_comm y]

/-- `t` bits above `L` bits. -/
theorem two_pow_mul_add_lt {L S t y : Nat} (hS : S < 2 ^ L) (hy : y < 2 ^ t) : 2 ^ L * y + S < 2 ^ (L + t) :=
  calc 2 ^ L * y + S < 2 ^ L * (y + 1) := by rw [Nat.mul_succ]; omega
    _ ≤ 2 ^ L * 2 ^ t := Nat.mul_le_mul_left _ hy
    _ = 2 ^ (L + t) := (Nat.pow_add _ _ _).symm

section
variable {ow L S t y : Nat} (hS : S < 2 ^ L)
include hS

/-- The words written stay when bits are placed above them. -/
theorem PackCursor.out_add (y : Nat) : (List.range (L / ow)).map (fun k => slice (2 ^ L * y + S) (k * ow) ow)
    = (PackCursor.past ow L S).out :=
  List.map_congr_left fun _ hk => slice_add_mul_two_pow hS (List.mem_range.1 hk) y

variable (how : 0 < ow)
include how

/-- Placing `t` bits that fill the word being built. -/
theorem PackCursor.past_add_of_full (ht : L % ow + t = ow) (hy : y < 2 ^ t) : PackCursor.past ow (L + t) (2 ^ L * y + S)
    = ⟨0, 0, (PackCursor.past ow L S).out ++ [(PackCursor.past ow L S).cur ||| y <<< (L % ow)]⟩ := by
  have hend : L + t = (L / ow + 1) * ow := by
    have := Nat.div_add_mod' L ow
    rw [Nat.succ_mul]
    omega
  have hlt : 2 ^ L * y + S < 2 ^ ((L / ow + 1) * ow) := hend ▸ two_pow_mul_add_lt hS hy
  have hword : slice (2 ^ L * y + S) (L / ow * ow) ow = (PackCursor.past ow L S).cur ||| y <<< (L % ow) := by
    rw [slice_eq, Nat.mod_eq_of_lt, curWord_add hS]
    · rfl
    · rwa [Nat.div_lt_iff_lt_mul (Nat.two_pow_pos _), ← Nat.pow_add, Nat.add_comm ow, ← Nat.succ_mul]
  rw [PackCursor.past, hend, Nat.mul_mod_left, Nat.mul_div_cancel _ how, Nat.div_eq_of_lt hlt, List.range_succ, List.map_append,
    PackCursor.out_add hS, List.map_singleton, hword]

/-- Placing `t` bits that leave room in the word being built. -/
theorem PackCursor.past_add_of_room (ht : L % ow + t < ow) : PackCursor.past ow (L + t) (2 ^ L * y + S)
    = ⟨L % ow + t, (PackCursor.past ow L S).cur ||| y <<< (L % ow), (PackCursor.past ow L S).out⟩ := by
  have hL : L + t = ow * (L / ow) + (L % ow + t) := by rw [← Nat.add_assoc, Nat.div_add_mod]
  have hdiv : (L + t) / ow = L / ow := by rw [hL, Nat.mul_add_div how, Nat.div_eq_of_lt ht, Nat.add_zero]
  have hmod : (L + t) % ow = L % ow + t := by rw [hL, Nat.mul_add_mod, Nat.mod_eq_of_lt ht]
  rw [PackCursor.past, hdiv, hmod, curWord_add hS, PackCursor.out_add hS]
  rfl

end

/-- One turn of the inner loop places the next bits of the value, at least one of them. -/
theorem placeValue_past_succ {ow w x n placed L S : Nat} (how : 0 < ow) (hS : S < 2 ^ L) (hplaced : placed < w) :
    ∃ t, 0 < t ∧ placed + t ≤ w ∧ placeValue ow w x (n + 1) placed (PackCursor.past ow L S)
      = placeValue ow w x n (placed + t) (PackCursor.past ow (L + t) (2 ^ L * (x / 2 ^ placed % 2 ^ t) + S)) := by
  have hb : L % ow < ow := Nat.mod_lt L how
  have hpb : (PackCursor.past ow L S).b = L % ow := rfl
  refine ⟨min (w - placed) (ow - L % ow), by omega, by omega, ?_⟩
  rw [placeValue, if_pos hplaced]
  simp only [maskTo, Nat.shiftRight_eq_div_pow, hpb]
  split
  case isTrue hfull => rw [PackCursor.past_add_of_full hS how hfull (Nat.mod_lt _ (Nat.two_pow_pos _))]
  case isFalse hroom => rw [PackCursor.past_add_of_room hS how (by omega)]

/-- The inner loop places a value: its low `W` bits join the stream. -/
theorem placeValue_past {ow w x L S : Nat} (how : 0 < ow) (hS : S < 2 ^ L) (n placed : Nat) (hle : placed ≤ w)
    (hn : w - placed ≤ n) : placeValue ow w x n placed (PackCursor.past ow (L + placed) (2 ^ L * (x % 2 ^ placed) + S))
      = PackCursor.past ow (L + w) (2 ^ L * (x % 2 ^ w) + S) := by
  induction n generalizing placed with
  | zero =>
    obtain rfl : placed = w := by omega
    rfl
  | succ n ih =>
    rcases Nat.eq_or_lt_of_le hle with rfl | hlt
    · rw [placeValue, if_neg (Nat.lt_irrefl _)]
    · have hS' : 2 ^ L * (x % 2 ^ placed) + S < 2 ^ (L + placed) :=
        two_pow_mul_add_lt hS (Nat.mod_lt x (Nat.two_pow_pos placed))
      obtain ⟨t, hpos, hfit, hturn⟩ := placeValue_past_succ (x := x) (n := n) how hS' hlt
      have hbits : 2 ^ (L + placed) * (x / 2 ^ placed % 2 ^ t) + (2 ^ L * (x % 2 ^ placed) + S)
          = 2 ^ L * (x % 2 ^ (placed + t)) + S := by
        rw [Nat.pow_add 2 placed, Nat.mod_mul, Nat.pow_add]
        ring
      rw [hturn, hbits, Nat.add_assoc]
      exact ih _ hfit (by omega)

/-- The outer loop places the values one after the other. -/
theorem placeValues_past {ow w : Nat} (how : 0 < ow) (xs : List Nat) {L S : Nat} (hS : S < 2 ^ L) :
    placeValues ow w xs (PackCursor.past ow L S)
      = PackCursor.past ow (L + xs.length * w) (2 ^ L * packStream w (indexed xs) + S) := by
  induction xs generalizing L S with
  | nil => simp [placeValues]
  | cons x xs ih =>
    have hvalue := placeValue_past (x := maskTo w x) how hS w 0 (Nat.zero_le w) (by omega)
    simp only [Nat.pow_zero, Nat.mod_one, Nat.mul_zero, Nat.add_zero, Nat.zero_add, maskTo, Nat.mod_mod] at hvalue
    have hS' : 2 ^ L * (x % 2 ^ w) + S < 2 ^ (L + w) := two_pow_mul_add_lt hS (Nat.mod_lt x (Nat.two_pow_pos w))
    rw [placeValues, maskTo, hvalue, ih hS', packStream_indexed_cons, maskTo, List.length_cons, Nat.pow_add]
    congr 1 <;> ring

/-- After the loop over the values the cursor has passed the whole stream. -/
theorem placeValues_zero {ow : Nat} (how : 0 < ow) (w : Nat) (xs : List Nat) :
    placeValues ow w xs ⟨0, 0, []⟩ = PackCursor.past ow (xs.length * w) (packStream w (indexed xs)) := by
  have := placeValues_past (w := w) how xs (L := 0) (S := 0) (by simp)
  simpa [PackCursor.past_zero] using this

/-- The packed words are the words written and, if there is one, the last, partly filled word. -/
theorem packWords_eq_past {ow : Nat} (how : 0 < ow) (w : Nat) (xs : List Nat) :
    packWords ow w xs = let p := PackCursor.past ow (xs.length * w) (packStream w (indexed xs))
      if p.b ≠ 0 then p.out ++ [p.cur] else p.out := by
  set L := xs.length * w with hL
  set p := PackCursor.past ow L (packStream w (indexed xs)) with hp
  have hout : (List.range (L / ow)).map (packedWord ow w (indexed xs)) = p.out := rfl
  have hN := ceildiv_eq_div_add L how
  rw [packWords, ← hL, hN]
  by_cases hrem : L % ow = 0
  · have hb : ¬ p.b ≠ 0 := not_not.2 hrem
    rw [if_neg (not_not.2 hrem), Nat.add_zero, hout]
    exact (if_neg hb).symm
  · have hb : p.b ≠ 0 := hrem
    have hlast : packedWord ow w (indexed xs) (L / ow) = p.cur := by
      rw [packedWord, slice_eq, Nat.mod_eq_of_lt]
      · rfl
      · rw [Nat.div_lt_iff_lt_mul (Nat.two_pow_pos _), ← Nat.pow_add, Nat.add_comm]
        refine lt_of_lt_of_le (packStream_indexed_lt w xs) (Nat.pow_le_pow_right (by omega) ?_)
        have := Nat.div_add_mod' L ow
        have := Nat.mod_lt L how
        omega
    rw [if_pos hrem, List.range_succ, List.map_append, List.map_singleton, hout, hlast]
    exact (if_pos hb).symm

/-- Settles O46: the loops place the stream of the values, and the cursor stands at its end. -/
theorem sequentialPackWritesTheSameWords : Obligations.SequentialPackWritesTheSameWords := by
  intro outw w xs _
  have how := Width.bits_pos outw
  have hend := placeValues_zero how w xs
  refine ⟨?_, by rw [hend]; rfl, by rw [hend]; simp [PackCursor.past, wordCursor]⟩
  rw [packSequential, hend, packWords_eq_past how]

end Sys2Proof.Machine
end

section
/-! PROOF. The run of a command that nothing disturbs (41_pack.md R93, 42_unpack.md R107): after `n` engine steps its first `n`
accesses are made, the words written hold their values, and no byte outside the destination has changed. -/

namespace Sys2Proof.Machine

/-! ### What accesses leave as it was -/

theorem readRaces_congr {cs ds : List Codec} (h : cs.map Codec.claims = ds.map Codec.claims) (x : Extent) :
    readRaces x cs = readRaces x ds := by
  have hclaims (es : List Codec) :
      readRaces x es = (es.map Codec.claims).any fun cls => cls.any fun cl => extentsMeet cl.dst x := by
    rw [List.any_map]
    rfl
  rw [hclaims, hclaims, h]

/-- Where no other codec claims a range, none claims a part of it. -/
theorem State.alone_of_subset {s : State} {x y : Extent} (h : s.alone x = true) (hxy : ∀ a, extentHas y a → extentHas x a) :
    s.alone y = true := by
  rw [State.alone, Bool.not_eq_true'] at h ⊢
  refine Bool.eq_false_iff.2 fun hr => Bool.eq_false_iff.1 h ?_
  obtain ⟨c, hc, cl, hcl, hmeet⟩ := readRaces_iff.1 hr
  obtain ⟨a, ha, hay⟩ := extentsMeet_iff.1 hmeet
  exact readRaces_iff.2 ⟨c, hc, cl, hcl, extentsMeet_iff.2 ⟨a, ha, hxy a hay⟩⟩

theorem State.memRead_congr {s t : State} {x : Extent} (hplat : t.platform = s.platform)
    (h : ∀ a, extentHas x a → Memory.read t.mem a = Memory.read s.mem a) : t.memRead x = s.memRead x := by
  have hbytes : Memory.readBytes t.mem x.base x.len = Memory.readBytes s.mem x.base x.len :=
    List.map_congr_left fun n hn => h _ ⟨Nat.le_add_right _ _, Nat.add_lt_add_left (List.mem_range.1 hn) _⟩
  rw [State.memRead, State.memRead, hplat, hbytes]

/-- Two words of a destination share no byte. -/
theorem jobDstWord_disjoint {j : Job} {k m a : Nat} (hne : k ≠ m) (hk : extentHas (jobDstWord j k) a) :
    ¬ extentHas (jobDstWord j m) a := fun hm =>
  hne ((extentHas_jobDstWord.1 hk).2.symm.trans (extentHas_jobDstWord.1 hm).2)

/-! ### The hidden state after some accesses -/

/-- The hidden state of command `j` after `n` accesses, when source word `i` reads as `src i`. -/
def Job.after (j : Job) (src : Nat → Nat) (n : Nat) : Job :=
  { j with pos := n, rdata := (jobReadsDone { j with pos := n }).map fun i => (i, src i) }

theorem Job.after_zero {j : Job} (hpos : j.pos = 0) (hrdata : j.rdata = []) (src : Nat → Nat) : j.after src 0 = j := by
  cases j
  simp_all [Job.after, jobReadsDone]

theorem Job.after_rd {j : Job} {n i : Nat} (h : (jobSeq j)[n]? = some (.rd i)) (src : Nat → Nat) :
    (j.after src n).withRead i (src i) = { j.after src (n + 1) with pos := n } := by
  have hdone := jobReadsDone_succ (j := { j with pos := n }) h
  simp only [Job.after, Job.withRead, hdone, List.map_append, List.map_singleton]

theorem Job.after_wr {j : Job} {n k : Nat} (h : (jobSeq j)[n]? = some (.wr k)) (src : Nat → Nat) :
    j.after src n = { j.after src (n + 1) with pos := n } := by
  have hdone := jobReadsDone_succ (j := { j with pos := n }) h
  simp only [Job.after, hdone, List.append_nil]

/-- Each destination word is written once the source words it depends on are read: its value is the value after all the reads. -/
def Job.WritesAfterReads (j : Job) (src : Nat → Nat) : Prop :=
  ∀ p k, (jobSeq j)[p]? = some (.wr k) → jobValue (j.after src p) k = jobValue (j.after src (jobLength j)) k

/-! ### The run -/

theorem engineRun_succ (n : Nat) (s : State) : engineRun (n + 1) s = engineStep (engineRun n s) := by
  induction n generalizing s with
  | zero => rfl
  | succ n ih => rw [engineRun, ih, ← engineRun]

/-- The numbers the command's source words hold. -/
def State.sourceWord (s : State) (j : Job) (i : Nat) : Nat := s.memRead (jobSrcWord j i)

/-- A machine whose selected codec has just started command `j`, with every access accepted and no other codec on its buffers. -/
structure State.JustStarted (s : State) (j : Job) : Prop where
  wf : s.mem.wf = true
  inReset : s.codec.inReset = false
  phase : s.codec.phase = .run j
  raced : s.codec.raced = []
  w_pos : 1 ≤ j.w
  w_le : j.w ≤ j.inw.bits
  pos : j.pos = 0
  rdata : j.rdata = []
  length_pos : 0 < jobLength j
  reads_ok : ∀ i, i < jobSrcWords j → s.busOK (jobSrcWord j i) .read = true
  writes_ok : ∀ k, k < jobDstWords j → s.busOK (jobDstWord j k) .write = true
  src_alone : s.alone (jobSrc j) = true
  dst_alone : s.alone (jobDst j) = true
  disjoint : extentsMeet (jobSrc j) (jobDst j) = false

/-- What the first `n` accesses of command `j` make of the machine `s` that started it. -/
structure State.RanTo (s : State) (j : Job) (n : Nat) (u : State) : Prop where
  codec : u.codec = s.codec.counted (j.after (s.sourceWord j) n) n
  platform : u.platform = s.platform
  claims : u.others.map Codec.claims = s.others.map Codec.claims
  wf : u.mem.wf = true
  written : ∀ k, .wr k ∈ (jobSeq j).take n →
    u.memRead (jobDstWord j k) = jobValue (j.after (s.sourceWord j) (jobLength j)) k
  outside : ∀ a, ¬ extentHas (jobDst j) a → Memory.read u.mem a = Memory.read s.mem a

theorem State.ranTo_zero {s : State} {j : Job} (h : s.JustStarted j) : s.RanTo j 0 s where
  codec := by
    rw [Job.after_zero h.pos h.rdata, Codec.counted_of_not_last _ h.length_pos.ne]
    obtain ⟨op, inw, outw, w, cnt, sb, db, pos, rdata⟩ := j
    obtain rfl : pos = 0 := h.pos
    rw [← h.phase]
  platform := rfl
  claims := rfl
  wf := h.wf
  written k hk := by simp at hk
  outside _ _ := rfl

section
variable {s u : State} {j : Job} {n : Nat} (hu : s.RanTo j n u)
include hu

theorem State.RanTo.codec_run (hn : n < jobLength j) :
    u.codec = { s.codec with phase := .run (j.after (s.sourceWord j) n) } :=
  hu.codec.trans (Codec.counted_of_not_last _ hn.ne)

theorem State.RanTo.busOK (x : Extent) (dir : BusDir) : u.busOK x dir = s.busOK x dir := by
  rw [State.busOK, State.busOK, hu.platform]

theorem State.RanTo.alone (x : Extent) : u.alone x = s.alone x := by
  rw [State.alone, State.alone, readRaces_congr hu.claims]

variable (h : s.JustStarted j)
include h

/-- The source words still hold what they held at the start. -/
theorem State.RanTo.sourceWord {i : Nat} (hi : i < jobSrcWords j) : u.memRead (jobSrcWord j i) = s.sourceWord j i :=
  State.memRead_congr hu.platform fun a ha => hu.outside a fun hd =>
    Bool.eq_false_iff.1 h.disjoint (extentsMeet_iff.2 ⟨a, extentHas_jobSrc hi ha, hd⟩)

/-- The next access is a read. -/
theorem State.RanTo.rd {i : Nat} (hi : (jobSeq j)[n]? = some (.rd i)) (hn : n < jobLength j) :
    s.RanTo j (n + 1) (engineStep u) := by
  have hlt : i < jobSrcWords j := (rd_mem_jobSeq h.w_pos).1 (List.mem_of_getElem? hi)
  have hrun := hu.codec_run hn
  have halone : u.alone (jobSrcWord j i) = true :=
    (hu.alone _).trans (State.alone_of_subset h.src_alone fun a => extentHas_jobSrc hlt)
  have hstep := engineStep_rd_of_alone (s := u) (j := j.after (s.sourceWord j) n) (i := i) (by rw [hrun]; exact h.inReset)
    (by rw [hrun]) hi ((hu.busOK _ _).trans (h.reads_ok i hlt)) (by rw [hrun]; exact h.raced) halone
  have hword : u.memRead (jobSrcWord (j.after (s.sourceWord j) n) i) = s.sourceWord j i := hu.sourceWord h hlt
  rw [hword, Job.after_rd hi, hrun] at hstep
  rw [hstep]
  exact {
    codec := rfl
    platform := hu.platform
    claims := hu.claims
    wf := hu.wf
    written := fun k hk => hu.written k (by simpa [List.take_add_one, hi] using hk)
    outside := hu.outside }

/-- The next access is a write. -/
theorem State.RanTo.wr {k : Nat} (hk : (jobSeq j)[n]? = some (.wr k)) (hn : n < jobLength j)
    (hreads : j.WritesAfterReads (s.sourceWord j)) : s.RanTo j (n + 1) (engineStep u) := by
  have hlt : k < jobDstWords j := wr_mem_jobSeq.1 (List.mem_of_getElem? hk)
  have hin (a : Nat) (ha : extentHas (jobDstWord j k) a) : extentHas (jobDst j) a := extentHas_jobDst.2 ⟨k, hlt, ha⟩
  have hrun := hu.codec_run hn
  have halone : u.alone (jobDstWord j k) = true := (hu.alone _).trans (State.alone_of_subset h.dst_alone hin)
  have hstep := engineStep_wr_of_alone (s := u) (j := j.after (s.sourceWord j) n) (k := k) (by rw [hrun]; exact h.inReset)
    (by rw [hrun]) hk ((hu.busOK _ _).trans (h.writes_ok k hlt)) (by rw [hrun]; exact h.raced) halone
  have hvalue := jobValue_lt (j := j.after (s.sourceWord j) n) h.w_le k
  rw [hreads n k hk] at hstep hvalue
  have hcodec : u.codec.counted (j.after (s.sourceWord j) n) (n + 1)
      = s.codec.counted (j.after (s.sourceWord j) (n + 1)) (n + 1) := by
    rw [hrun, Job.after_wr hk]
    rfl
  rw [hstep]
  exact {
    codec := hcodec
    platform := hu.platform
    claims := by
      rw [← hu.claims]
      simp [State.others, State.engineStored, Function.comp_def]
    wf := Memory.wf_writeBytes _ _ hu.wf _
    written := fun m hm => by
      by_cases hkm : k = m
      · subst hkm
        exact State.memRead_engineStored hu.wf hvalue
      · have hm' : .wr m ∈ (jobSeq j).take n := by
          rw [List.take_add_one, hk, List.mem_append] at hm
          exact hm.resolve_right (by simpa using Ne.symm hkm)
        rw [← hu.written m hm']
        exact State.memRead_congr rfl fun a ha =>
          State.read_engineStored_of_misses (jobDstWord_disjoint (Ne.symm hkm) ha) u _
    outside := fun a ha =>
      (State.read_engineStored_of_misses (fun hak => ha (hin a hak)) u _).trans (hu.outside a ha) }

end

/-- Up to its last access a command that nothing disturbs makes one access per engine step. -/
theorem State.JustStarted.ranTo {s : State} {j : Job} (h : s.JustStarted j)
    (hreads : j.WritesAfterReads (s.sourceWord j)) {n : Nat} (hn : n ≤ jobLength j) : s.RanTo j n (engineRun n s) := by
  induction n with
  | zero => exact State.ranTo_zero h
  | succ n ih =>
    have hu := ih (by omega)
    have ha := List.getElem?_eq_getElem (l := jobSeq j) (i := n) (by rw [jobSeq_length h.w_pos]; omega)
    rw [engineRun_succ]
    cases hacc : (jobSeq j)[n]'(by rw [jobSeq_length h.w_pos]; omega) with
    | rd i => exact hu.rd h (ha.trans (congrArg some hacc)) hn
    | wr k => exact hu.wr h (ha.trans (congrArg some hacc)) hn hreads

/-- After the last access the command has completed, and every word of its destination holds its value. -/
theorem State.JustStarted.completes {s : State} {j : Job} (h : s.JustStarted j) (hreads : j.WritesAfterReads (s.sourceWord j)) :
    (engineRun (jobLength j) s).codec = s.codec.complete (jobPackedWords j)
      ∧ (∀ k, k < jobDstWords j → (engineRun (jobLength j) s).memRead (jobDstWord j k)
          = jobValue (j.after (s.sourceWord j) (jobLength j)) k)
      ∧ ∀ a, extentMisses (jobDst j) a → Memory.read (engineRun (jobLength j) s).mem a = Memory.read s.mem a := by
  have hu := h.ranTo hreads le_rfl
  refine ⟨hu.codec.trans (Codec.counted_of_last _ rfl), fun k hk => hu.written k ?_,
    fun a ha => hu.outside a (extentMisses_iff.1 ha)⟩
  rw [List.take_of_length_le (jobSeq_length h.w_pos).le]
  exact wr_mem_jobSeq.2 hk

/-! ### What is read by when -/

/-- The source words are read in order, so after some accesses those read are the first ones. -/
theorem jobReadsDone_eq_range {j : Job} (hw : 1 ≤ j.w) (p : Nat) :
    ∃ r, r ≤ jobSrcWords j ∧ jobReadsDone { j with pos := p } = List.range r := by
  have hprefix : jobReadsDone { j with pos := p } <+: List.range (jobSrcWords j) :=
    jobSeq_reads hw ▸ (List.take_prefix p (jobSeq j)).filterMap _
  rw [List.prefix_iff_eq_take, List.take_range] at hprefix
  exact ⟨_, Nat.min_le_right _ _, hprefix⟩

theorem jobReadsDone_all {j : Job} (hw : 1 ≤ j.w) :
    jobReadsDone { j with pos := jobLength j } = List.range (jobSrcWords j) := by
  rw [← jobSeq_reads hw, jobReadsDone_eq]
  exact congrArg _ (List.take_of_length_le (jobSeq_length hw).le)

end Sys2Proof.Machine
end

section
/-! PROOF. PACK from its command word to its result (41_pack.md R84 to R88): every value with a bit in a packed word is read before
the word is written (R92), so the word written is that of the whole bitstream. -/

namespace Sys2Proof.Machine

/-! ### The packed words from the values read -/

theorem indexed_map_range (src : Nat → Nat) (r : Nat) :
    indexed ((List.range r).map src) = (List.range r).map fun i => (i, src i) := by
  refine List.ext_getElem (by simp [indexed]) fun i _ hi => ?_
  simp [indexed]

theorem getD_map_range (src : Nat → Nat) {r m : Nat} (h : m < r) : ((List.range r).map src).getD m 0 = src m := by
  simp [List.getD, h]

/-- A packed word is settled once every value with a bit in it is read. -/
theorem packedWord_of_reads {ow w count r k : Nat} (hw : 0 < w) (hr : r ≤ count)
    (hread : ∀ m, m < count → m * w < (k + 1) * ow → m < r) (src : Nat → Nat) :
    packedWord ow w ((List.range r).map fun i => (i, src i)) k
      = packedWord ow w ((List.range count).map fun i => (i, src i)) k := by
  rw [← indexed_map_range, ← indexed_map_range, packedWord, packedWord]
  refine slice_congr fun b hb => ?_
  have hm : (k * ow + b) / w * w ≤ k * ow + b := Nat.div_mul_le_self _ _
  have hin (n : Nat) : k * ow + b < n * w ↔ (k * ow + b) / w < n := (Nat.div_lt_iff_lt_mul hw).symm
  rw [packStream_indexed_testBit_eq hw, packStream_indexed_testBit_eq hw]
  simp only [List.length_map, List.length_range, hin]
  by_cases hc : (k * ow + b) / w < count
  · have hmr := hread _ hc (by rw [Nat.succ_mul]; omega)
    simp only [hc, hmr, getD_map_range]
  · have hmr : ¬ (k * ow + b) / w < r := by omega
    simp only [hc, hmr, false_and]

/-- A packed word as a sum over the values (41_pack.md R85). -/
theorem packedWord_eq_sum (ow w count k : Nat) (src : Nat → Nat) :
    packedWord ow w ((List.range count).map fun i => (i, src i)) k
      = (∑ i ∈ Finset.range count, (src i % 2 ^ w) * 2 ^ (i * w)) / 2 ^ (k * ow) % 2 ^ ow := by
  rw [packedWord, slice_eq, packStream_eq_sum, List.map_map]
  rfl

/-! ### A PACK that runs -/

theorem jobValue_after_of_pack {j : Job} (hop : j.op = .pack) (src : Nat → Nat) (p k : Nat) : jobValue (j.after src p) k
    = packedWord j.outw.bits j.w ((jobReadsDone { j with pos := p }).map fun i => (i, src i)) k := by
  simp only [jobValue, Job.after, hop]

theorem Job.writesAfterReads_of_pack {j : Job} (hop : j.op = .pack) (hw : 1 ≤ j.w) (src : Nat → Nat) :
    j.WritesAfterReads src := by
  intro p k hk
  obtain ⟨r, hr, hdone⟩ := jobReadsDone_eq_range hw p
  have hsrc : jobSrcWords j = j.cnt := by simp only [jobSrcWords, hop]
  have hseq : jobSeq j = packSeq j.cnt j.outw.bits j.w := by simp only [jobSeq, hop]
  rw [jobValue_after_of_pack hop, jobValue_after_of_pack hop, hdone, jobReadsDone_all hw]
  refine packedWord_of_reads hw hr (fun m hm hlo => ?_) src
  have hmem : .rd m ∈ (jobSeq j).take p := by
    rw [hseq] at hk ⊢
    exact rd_mem_take_packSeqFrom (Width.bits_pos _) j.cnt 0 hk (Nat.zero_le m) (by omega) hlo
  rw [← List.mem_range, ← hdone]
  exact mem_filterMap_readIndex.2 hmem

/-! ### From the command word -/

/-- A command that was taken with its checks passed has just started, where the platform accepts its accesses and no other codec
claims its buffers. -/
theorem State.justStarted_of_passes {s : State} {v : Word} {op : Op} {inw outw : Width} {w : Nat} {j : Job}
    (hj : j = jobOf ⟨op, inw, outw, w⟩ s.codec) (hm : s.mem.wf = true) (hr : s.codec.inReset = false) (hpos : 1 ≤ w)
    (hle : w ≤ inw.bits) (hcount : 1 ≤ j.cnt)
    (hpass : PassesChecks s.platform.addrW s.codec (jobSrcWidth j) (jobSrcWords j) (jobDstWidth j) (jobDstWords j))
    (hreads : ∀ i, i < jobSrcWords j → s.busOK (jobSrcWord j i) .read = true)
    (hwrites : ∀ k, k < jobDstWords j → s.busOK (jobDstWord j k) .write = true)
    (hsrc : s.alone (jobSrc j) = true) (hdst : s.alone (jobDst j) = true) : (s.started v op inw outw w).JustStarted j := by
  obtain ⟨-, -, -, -, -, -, hdisjoint⟩ := hpass
  subst hj
  exact {
    wf := hm
    inReset := hr
    phase := rfl
    raced := rfl
    w_pos := hpos
    w_le := hle
    pos := rfl
    rdata := rfl
    length_pos := Nat.pos_of_ne_zero (jobLength_ne_zero (Nat.ne_of_gt hcount))
    reads_ok := hreads
    writes_ok := hwrites
    src_alone := hsrc
    dst_alone := hdst
    disjoint := extentsMeet_words hdisjoint }

/-- Settles O41: the word starts its command, whose run writes each packed word after the reads it depends on. -/
theorem packWritesTheBitstream : Obligations.PackWritesTheBitstream := by
  intro inw outw w s count n sb db hcount hn hsb hdb hm hr hb hpos hle hone hpass hosrc hodst hreads hwrites hsrc hdst
  subst hcount hn hsb hdb
  obtain ⟨-, hcap, -⟩ := id hpass
  set v := encodeCommand .pack inw outw w
  set j := jobOf ⟨.pack, inw, outw, w.toNat⟩ s.codec with hj
  have hexec : exec (.pack inw outw w) s = .next (s.started v .pack inw outw w.toNat) :=
    (passingCommandsStart .pack inw outw w s hr hb inw outw _ _ rfl hpos hle
      (fun h => by simp [h] at hone) hpass hosrc hodst).1
  have hstart : (s.started v .pack inw outw w.toNat).JustStarted j :=
    State.justStarted_of_passes hj hm hr hpos hle hone hpass hreads hwrites hsrc hdst
  obtain ⟨hcodec, hwords, houtside⟩ := hstart.completes (Job.writesAfterReads_of_pack rfl hpos _)
  have hN : jobPackedWords j < 2 ^ 64 := lt_of_le_of_lt hcap s.codec.dstCap.isLt
  refine ⟨_, _, hexec, rfl, rfl, fun k hk => ?value, houtside, ?flags⟩
  case value =>
    refine (hwords k hk).trans ?_
    rw [jobValue_after_of_pack rfl, jobReadsDone_all hpos]
    exact packedWord_eq_sum _ _ _ _ _
  case flags =>
    rw [show s.codec.count.toNat + (s.codec.count.toNat * w.toNat + outw.bits - 1) / outw.bits = jobLength j from rfl, hcodec]
    exact ⟨rfl, rfl, rfl, Nat.mod_eq_of_lt hN, Codec.sameOperands_refl _⟩

end Sys2Proof.Machine
end

section
/-! PROOF. The order of `UnpackSeq` (42_unpack.md R106): a value is written behind the reads of every packed word up to its end. -/

namespace Sys2Proof.Machine

section
variable {ow w : Nat} (how : 0 < ow) (hw : 0 < w)
include how hw

/-- The accesses of one round of `UnpackSeq` up to a write: the round's reads, then its write or the rounds that follow. -/
theorem unpackSeqFrom_succ_getElem?_wr {p m : Nat} (n i : Nat) :
    (unpackSeqFrom ow w (n + 1) i (ceildiv (i * w) ow))[p]? = some (.wr m)
      ↔ (m = i ∧ p = ceildiv ((i + 1) * w) ow - ceildiv (i * w) ow)
        ∨ ∃ q, p = ceildiv ((i + 1) * w) ow - ceildiv (i * w) ow + (q + 1)
          ∧ (unpackSeqFrom ow w n (i + 1) (ceildiv ((i + 1) * w) ow))[q]? = some (.wr m) := by
  rw [unpackSeqFrom_succ how hw]
  generalize ceildiv ((i + 1) * w) ow - ceildiv (i * w) ow = d
  rcases Nat.lt_or_ge p d with hp | hp
  · rw [List.getElem?_append_left (by simpa using hp)]
    have hrd : ((List.range' (ceildiv (i * w) ow) d).map Access.rd)[p]? ≠ some (.wr m) := fun h => by
      simpa using List.mem_of_getElem? h
    simp only [hrd, false_iff]
    rintro (⟨-, h⟩ | ⟨q, h, -⟩) <;> omega
  · obtain ⟨q, rfl⟩ := Nat.exists_eq_add_of_le hp
    rw [List.getElem?_append_right (by simp), List.length_map, List.length_range', Nat.add_sub_cancel_left]
    cases q with
    | zero => simp [eq_comm]
    | succ q => simp

/-- `Wr(m)` stands behind one write for each value before it and one read for each packed word up to its end. -/
theorem unpackSeqFrom_getElem?_wr {p m : Nat} (n i : Nat) :
    (unpackSeqFrom ow w n i (ceildiv (i * w) ow))[p]? = some (.wr m)
      ↔ i ≤ m ∧ m < i + n ∧ p + i + ceildiv (i * w) ow = m + ceildiv ((m + 1) * w) ow := by
  have hmono {a b : Nat} (h : a ≤ b) : ceildiv (a * w) ow ≤ ceildiv (b * w) ow := ceildiv_mono (Nat.mul_le_mul_right _ h) ow
  induction n generalizing i p with
  | zero =>
    simp only [unpackSeqFrom, List.getElem?_nil, reduceCtorEq, false_iff]
    omega
  | succ n ih =>
    have hstep := hmono (Nat.le_add_right i 1)
    simp only [unpackSeqFrom_succ_getElem?_wr how hw, ih]
    constructor
    · rintro (⟨rfl, rfl⟩ | ⟨q, rfl, hle, hlt, hq⟩) <;> omega
    · rintro ⟨hle, hlt, hp⟩
      rcases Nat.eq_or_lt_of_le hle with rfl | him
      · exact .inl ⟨rfl, by omega⟩
      · have := hmono (show i + 1 ≤ m + 1 by omega)
        exact .inr ⟨p - (ceildiv ((i + 1) * w) ow - ceildiv (i * w) ow) - 1, by omega, him, by omega, by omega⟩

/-- `Wr(m)` stands behind the read of every packed word that is still to read and begins before value `m` ends. -/
theorem rd_mem_take_unpackSeqFrom {p m k : Nat} (n i : Nat)
    (hm : (unpackSeqFrom ow w n i (ceildiv (i * w) ow))[p]? = some (.wr m)) (hik : ceildiv (i * w) ow ≤ k)
    (hk : k < ceildiv ((m + 1) * w) ow) : .rd k ∈ (unpackSeqFrom ow w n i (ceildiv (i * w) ow)).take p := by
  induction n generalizing i p with
  | zero => simp [unpackSeqFrom] at hm
  | succ n ih =>
    have hround := (unpackSeqFrom_succ_getElem?_wr how hw n i).1 hm
    rw [unpackSeqFrom_succ how hw, List.take_append, List.mem_append]
    rcases Nat.lt_or_ge k (ceildiv ((i + 1) * w) ow) with hki | hki
    · rw [List.take_of_length_le (by rw [List.length_map, List.length_range']; omega)]
      exact .inl (List.mem_map_of_mem (List.mem_range'_1.2 ⟨hik, by omega⟩))
    · rcases hround with ⟨rfl, -⟩ | ⟨q, rfl, hq⟩
      · omega
      · exact .inr (by simp [ih _ hq hki])

omit hw in
/-- `UnpackSeq` starts with no packed word read. -/
theorem unpackSeq_eq (count : Nat) : unpackSeq count ow w = unpackSeqFrom ow w count 0 (ceildiv (0 * w) ow) := by
  rw [unpackSeq, Nat.zero_mul, ceildiv_zero how]

/-- `Wr(i)` stands behind the read of every packed word with a bit of value `i` or of a value before it. -/
theorem rd_mem_take_unpackSeq {count p i k : Nat} (hi : (unpackSeq count ow w)[p]? = some (.wr i))
    (hk : k ≤ (i * w + w - 1) / ow) : .rd k ∈ (unpackSeq count ow w).take p := by
  rw [unpackSeq_eq how] at hi ⊢
  refine rd_mem_take_unpackSeqFrom how hw count 0 hi (by simp [how]) ?_
  rw [← ceildiv_succ_mul how hw]
  exact Nat.lt_succ_of_le hk

end

/-- Settles O39: the indices count up, and each value's place and the reads before it follow the rounds of the sequence. -/
theorem unpackSequenceOrder : Obligations.UnpackSequenceOrder := by
  intro count w outw hw
  have how := Width.bits_pos outw
  refine ⟨?length, fun p i => ?place, unpackSeq_reads how hw count, unpackSeq_writes count outw.bits w,
    fun p i k => rd_mem_take_unpackSeq how hw⟩
  case length => simp [length_eq_reads_add_writes, unpackSeq_reads how hw, unpackSeq_writes, packedLength]
  case place =>
    rw [unpackSeq_eq how, unpackSeqFrom_getElem?_wr how hw, Nat.zero_mul, ceildiv_zero how, ← ceildiv_succ_mul how hw]
    omega

end Sys2Proof.Machine
end

section
/-! PROOF. The values of the packed stream (42_unpack.md R99, R101, R110): they depend on its bits below `count*W` alone, and the
packed words of any values give these back, masked. -/

namespace Sys2Proof.Machine

/-- Settles O44: the packed words hold the stream of the values, whose slices are the values masked. -/
theorem unpackInvertsPack : Obligations.UnpackInvertsPack := by
  intro inw outw w xs _ _ _
  have hback := unpackValues_packWords (Width.bits_pos outw) w xs
  refine ⟨hback, fun hfit => ?_, packWords_length _ _ _⟩
  rw [hback, List.map_congr_left fun x hx => Nat.mod_eq_of_lt (hfit x hx), List.map_id']

/-- Bit `p` of the stream of packed words that fit is bit `p mod OutW` of word `floor(p/OutW)`. -/
theorem unpackStream_indexedPacked_testBit {ow : Nat} (how : 0 < ow) {ps : List Nat} (h : ∀ p ∈ ps, p < 2 ^ ow) (b : Nat) :
    (unpackStream ow (indexedPacked ps)).testBit b = (ps.getD (b / ow) 0).testBit (b % ow) := by
  have hbit := packStream_indexed_testBit ow ps (b / ow) (b % ow) (Nat.mod_lt b how)
  rwa [Nat.div_add_mod', ← unpackStream_indexedPacked h] at hbit

/-- Settles O48: a value is a slice of the stream below `count*W`, where the two streams agree bit by bit. -/
theorem unpackIgnoresPadding : Obligations.UnpackIgnoresPadding := by
  intro outw w count ps qs _ hps hqs hbits
  have how := Width.bits_pos outw
  refine List.map_congr_left fun i hi => slice_congr fun b hb => ?_
  have hend : (i + 1) * w ≤ count * w := Nat.mul_le_mul_right _ (List.mem_range.1 hi)
  rw [unpackStream_indexedPacked_testBit how hps, unpackStream_indexedPacked_testBit how hqs]
  exact hbits _ (by rw [Nat.succ_mul] at hend; omega)

end Sys2Proof.Machine
end

section
/-! PROOF. The sequential form of UNPACK (42_unpack.md R103): when its cursor has passed the low `L` bits of the stream, the bits
gathered next are those from position `L` on. -/

namespace Sys2Proof.Machine

/-- The unpacking cursor when the low `L` bits of the stream are gathered (43_width_adaptation.md R115). -/
def UnpackCursor.past (ow L : Nat) : UnpackCursor := ⟨L / ow, L % ow⟩

/-- Gathering `t` bits up to the end of the packed word. -/
theorem UnpackCursor.past_add_of_full {ow L t : Nat} (how : 0 < ow) (ht : L % ow + t = ow) :
    UnpackCursor.past ow (L + t) = ⟨L / ow + 1, 0⟩ := by
  have hend : L + t = ow * (L / ow + 1) := by
    have := Nat.div_add_mod L ow
    rw [Nat.mul_succ]
    omega
  rw [UnpackCursor.past, hend, Nat.mul_div_cancel_left _ how, Nat.mul_mod_right]

/-- Gathering `t` bits that leave some of the packed word. -/
theorem UnpackCursor.past_add_of_room {ow L t : Nat} (how : 0 < ow) (ht : L % ow + t < ow) :
    UnpackCursor.past ow (L + t) = ⟨L / ow, L % ow + t⟩ := by
  have hL : L + t = ow * (L / ow) + (L % ow + t) := by rw [← Nat.add_assoc, Nat.div_add_mod]
  rw [UnpackCursor.past, hL, Nat.mul_add_div how, Nat.div_eq_of_lt ht, Nat.mul_add_mod, Nat.mod_eq_of_lt ht, Nat.add_zero]

/-- A slice and the slice above it, side by side. -/
theorem slice_or_slice (v lo a b : Nat) : slice v lo a ||| slice v (lo + a) b <<< a = slice v lo (a + b) := by
  have hlow : slice v lo a < 2 ^ a := Nat.mod_lt _ (Nat.two_pow_pos a)
  rw [Nat.or_comm, ← Nat.shiftLeft_add_eq_or_of_lt hlow, Nat.shiftLeft_eq, slice_eq, slice_eq, slice_eq, Nat.pow_add,
    Nat.pow_add, Nat.mod_mul, Nat.div_div_eq_div_mul]
  ring

/-- The bits of a packed word stand in the stream from the word's place on. -/
theorem slice_getD_eq {ow k b t : Nat} (hfit : b + t ≤ ow) (ps : List Nat) :
    slice (ps.getD k 0) b t = slice (packStream ow (indexed ps)) (k * ow + b) t := by
  refine slice_congr fun j hj => ?_
  rw [Nat.add_assoc, packStream_indexed_testBit ow ps k (b + j) (by omega)]

section
variable {ow w : Nat} (how : 0 < ow) (ps : List Nat)
include how

/-- One turn of the inner loop gathers the next bits of the value, at least one of them. -/
theorem gatherValue_past_succ {n got L : Nat} (hgot : got < w) : ∃ t, 0 < t ∧ got + t ≤ w
    ∧ gatherValue ow w ps (n + 1) got (slice (packStream ow (indexed ps)) L got) (UnpackCursor.past ow (L + got))
      = gatherValue ow w ps n (got + t) (slice (packStream ow (indexed ps)) L (got + t))
          (UnpackCursor.past ow (L + got + t)) := by
  have hb : (L + got) % ow < ow := Nat.mod_lt _ how
  have hfit : (L + got) % ow + min (w - got) (ow - (L + got) % ow) ≤ ow := by omega
  have hbits := slice_getD_eq (k := (L + got) / ow) hfit ps
  rw [Nat.div_add_mod', slice] at hbits
  refine ⟨min (w - got) (ow - (L + got) % ow), by omega, by omega, ?_⟩
  rw [gatherValue, if_pos hgot]
  simp only [UnpackCursor.past, hbits, slice_or_slice]
  split
  case isTrue hfull => rw [← UnpackCursor.past_add_of_full how hfull, UnpackCursor.past]
  case isFalse hroom => rw [← UnpackCursor.past_add_of_room how (by omega), UnpackCursor.past]

/-- The inner loop gathers a value: the next `W` bits of the stream. -/
theorem gatherValue_past (n : Nat) {got L : Nat} (hle : got ≤ w) (hn : w - got ≤ n) :
    gatherValue ow w ps n got (slice (packStream ow (indexed ps)) L got) (UnpackCursor.past ow (L + got))
      = (slice (packStream ow (indexed ps)) L w, UnpackCursor.past ow (L + w)) := by
  induction n generalizing got with
  | zero =>
    obtain rfl : got = w := by omega
    rfl
  | succ n ih =>
    rcases Nat.eq_or_lt_of_le hle with rfl | hlt
    · rw [gatherValue, if_neg (Nat.lt_irrefl _)]
    · obtain ⟨t, hpos, hfit, hturn⟩ := gatherValue_past_succ how ps (n := n) (L := L) hlt
      rw [hturn, Nat.add_assoc]
      exact ih hfit (by omega)

/-- The outer loop gathers the values one after the other. -/
theorem gatherValues_past (n i : Nat) : gatherValues ow w ps n (UnpackCursor.past ow (i * w))
    = (List.range' i n).map fun m => slice (packStream ow (indexed ps)) (m * w) w := by
  induction n generalizing i with
  | zero => rfl
  | succ n ih =>
    have hvalue : gatherValue ow w ps w 0 0 (UnpackCursor.past ow (i * w))
        = (slice (packStream ow (indexed ps)) (i * w) w, UnpackCursor.past ow (i * w + w)) := by
      simpa [slice, maskTo, Nat.mod_one] using gatherValue_past how ps w (got := 0) (L := i * w) (Nat.zero_le w) (by omega)
    rw [gatherValues, hvalue, ← Nat.succ_mul, ih, List.range'_succ, List.map_cons]

end

/-- Settles O47: from the stream's first bit on, the loops gather the slices that are the values of the formula. -/
theorem sequentialUnpackWritesTheSameValues : Obligations.SequentialUnpackWritesTheSameValues := by
  intro outw w count ps _ _ hps
  have how := Width.bits_pos outw
  have hloops := gatherValues_past (w := w) how ps count 0
  rw [Nat.zero_mul, UnpackCursor.past, Nat.zero_div, Nat.zero_mod, ← List.range_eq_range', ← unpackStream_indexedPacked hps]
    at hloops
  exact hloops

end Sys2Proof.Machine
end

section
/-! PROOF. UNPACK from its command word to its result (42_unpack.md R98 to R102): every packed word with a bit of a value is read
before the value is written (R106), so the value written is that of the whole stream. -/

namespace Sys2Proof.Machine

/-! ### The values from the packed words read -/

/-- A value of packed words that fit is a word of width `W` of their stream in base `2^OutW`. -/
theorem unpackedValue_eq_packedWord {ow : Nat} {r : List (Nat × Nat)} (h : ∀ p ∈ r, p.2 < 2 ^ ow) (w i : Nat) :
    unpackedValue ow w r i = packedWord w ow r i := by
  rw [unpackedValue, packedWord, unpackStream_eq_packStream h]

/-- A value is settled once every packed word with a bit of it is read. -/
theorem unpackedValue_of_reads {ow w n r i : Nat} (how : 0 < ow) (hr : r ≤ n)
    (hread : ∀ k, k < n → k * ow < (i + 1) * w → k < r) {src : Nat → Nat} (hsrc : ∀ k, src k < 2 ^ ow) :
    unpackedValue ow w ((List.range r).map fun k => (k, src k)) i
      = unpackedValue ow w ((List.range n).map fun k => (k, src k)) i := by
  have hfit (m : Nat) : ∀ p ∈ (List.range m).map fun k => (k, src k), p.2 < 2 ^ ow :=
    List.forall_mem_map.2 fun k _ => hsrc k
  rw [unpackedValue_eq_packedWord (hfit r), unpackedValue_eq_packedWord (hfit n)]
  exact packedWord_of_reads how hr hread src

/-- A value as a slice of the sum over the packed words (42_unpack.md R99). -/
theorem unpackedValue_eq_sum (ow w n i : Nat) (src : Nat → Nat) :
    unpackedValue ow w ((List.range n).map fun k => (k, src k)) i
      = (∑ k ∈ Finset.range n, src k * 2 ^ (k * ow)) / 2 ^ (i * w) % 2 ^ w := by
  rw [unpackedValue, slice_eq, unpackStream_eq_sum, List.map_map]
  rfl

/-! ### An UNPACK that runs -/

theorem State.memRead_lt (s : State) (x : Extent) : s.memRead x < 256 ^ x.len := by
  simpa [State.memRead] using numberOfBytes_lt s.platform.endian (Memory.readBytes s.mem x.base x.len)

/-- A source word fits its width. -/
theorem State.sourceWord_lt (s : State) (j : Job) (i : Nat) : s.sourceWord j i < 2 ^ (jobSrcWidth j).bits := by
  rw [Width.bits_eq_bytes, Nat.pow_mul]
  exact s.memRead_lt (jobSrcWord j i)

theorem jobValue_after_of_unpack {j : Job} (hop : j.op = .unpack) (src : Nat → Nat) (p i : Nat) : jobValue (j.after src p) i
    = unpackedValue j.outw.bits j.w ((jobReadsDone { j with pos := p }).map fun k => (k, src k)) i := by
  simp only [jobValue, Job.after, hop]

theorem Job.writesAfterReads_of_unpack {j : Job} (hop : j.op = .unpack) (hw : 1 ≤ j.w) {src : Nat → Nat}
    (hsrc : ∀ k, src k < 2 ^ j.outw.bits) : j.WritesAfterReads src := by
  intro p i hi
  obtain ⟨r, hr, hdone⟩ := jobReadsDone_eq_range hw p
  have how := Width.bits_pos j.outw
  have hseq : jobSeq j = unpackSeq j.cnt j.outw.bits j.w := by simp only [jobSeq, hop]
  rw [jobValue_after_of_unpack hop, jobValue_after_of_unpack hop, hdone, jobReadsDone_all hw]
  refine unpackedValue_of_reads how hr (fun k _ hlo => ?_) hsrc
  have hmem : .rd k ∈ (jobSeq j).take p := by
    rw [hseq] at hi ⊢
    rw [Nat.succ_mul] at hlo
    exact rd_mem_take_unpackSeq how hw hi ((Nat.le_div_iff_mul_le how).2 (by omega))
  rw [← List.mem_range, ← hdone]
  exact mem_filterMap_readIndex.2 hmem

/-! ### From the command word -/

/-- Settles O42: the word starts its command, whose run writes each value after the reads it depends on. -/
theorem unpackWritesTheValues : Obligations.UnpackWritesTheValues := by
  intro inw outw w s count n sb db hcount hn hsb hdb hm hr hb hpos hle hone hpass hosrc hodst hreads hwrites hsrc hdst
  subst hcount hn hsb hdb
  obtain ⟨hlen, -⟩ := id hpass
  set v := encodeCommand .unpack inw outw w
  set j := jobOf ⟨.unpack, inw, outw, w.toNat⟩ s.codec with hj
  have hexec : exec (.unpack inw outw w) s = .next (s.started v .unpack inw outw w.toNat) :=
    (passingCommandsStart .unpack inw outw w s hr hb outw inw _ _ rfl hpos hle
      (fun h => by simp [h] at hone) hpass hosrc hodst).1
  have hstart : (s.started v .unpack inw outw w.toNat).JustStarted j :=
    State.justStarted_of_passes hj hm hr hpos hle hone hpass hreads hwrites hsrc hdst
  obtain ⟨hcodec, hwords, houtside⟩ :=
    hstart.completes (Job.writesAfterReads_of_unpack rfl hpos (State.sourceWord_lt _ j))
  have hN : jobPackedWords j < 2 ^ 64 := lt_of_le_of_lt hlen s.codec.srcLen.isLt
  have hlength : (s.codec.count.toNat * w.toNat + outw.bits - 1) / outw.bits + s.codec.count.toNat = jobLength j :=
    Nat.add_comm _ _
  refine ⟨_, _, hexec, rfl, rfl, ?_⟩
  rw [hlength]
  refine ⟨fun i hi => ?value, houtside, ?flags⟩
  case value =>
    refine (hwords i hi).trans ?_
    rw [jobValue_after_of_unpack rfl, jobReadsDone_all hpos]
    exact unpackedValue_eq_sum _ _ _ _ _
  case flags =>
    rw [hcodec]
    exact ⟨rfl, rfl, rfl, Nat.mod_eq_of_lt hN, Codec.sameOperands_refl _⟩

end Sys2Proof.Machine
end

section
/-! PROOF. The packed length (43_width_adaptation.md R113): `ceildiv` is the least number of words that holds the packed bits,
and a command's extents are `count` and `N` words in the order of its operation. -/

namespace Sys2Proof.Machine

/-- Rounding up to whole words adds less than one word. -/
theorem ceildiv_mul_lt_add (a : Nat) {b : Nat} (hb : 0 < b) : ceildiv a b * b < a + b :=
  calc ceildiv a b * b ≤ a + b - 1 := Nat.div_mul_le_self _ b
    _ < a + b := by omega

theorem pred_ceildiv_mul_lt {a b : Nat} (ha : 0 < a) (hb : 0 < b) : (ceildiv a b - 1) * b < a := by
  have hlt := ceildiv_mul_lt_add a hb
  rw [Nat.sub_one_mul]
  omega

theorem ceildiv_mul_sub_lt (a : Nat) {b : Nat} (hb : 0 < b) : ceildiv a b * b - a < b := by
  have hlt := ceildiv_mul_lt_add a hb
  omega

theorem jobWords_of_pack {j : Job} (hop : j.op = .pack) :
    jobSrcWords j = j.cnt ∧ jobDstWords j = packedLength j.cnt j.w j.outw := by
  simp only [jobSrcWords, jobDstWords, jobPackedWords, hop, and_self]

theorem jobWords_of_unpack {j : Job} (hop : j.op = .unpack) :
    jobSrcWords j = packedLength j.cnt j.w j.outw ∧ jobDstWords j = j.cnt := by
  simp only [jobSrcWords, jobDstWords, jobPackedWords, hop, and_self]

/-- Settles O49: the bounds are those of `ceildiv`, whose argument `count * W` is positive when there are values. -/
theorem packedLengthBounds : Obligations.PackedLengthBounds := by
  intro count w outw hw
  have how := Width.bits_pos outw
  refine ⟨fun hcount => ?_, packedLength_zero w outw, fun j => ⟨jobWords_of_pack, jobWords_of_unpack⟩⟩
  exact ⟨pred_ceildiv_mul_lt (Nat.mul_pos hcount hw) how, le_ceildiv_mul _ how, ceildiv_mul_sub_lt _ how⟩

end Sys2Proof.Machine
end

section
/-! PROOF. A command that fails one of its checks (60_exceptions.md R124, R128 to R133, R136): the checks come in code order, and the
conditions on the two extents are the numbers written out. -/

namespace Sys2Proof.Machine

/-! ### The conditions on the extents -/

/-- A buffer of words reaches past data memory when it has a word and ends there. -/
theorem extentOutOfRange_words_iff {addrW base n b : Nat} (hb : 0 < b) :
    extentOutOfRange addrW ⟨base, n * b⟩ = true ↔ n ≠ 0 ∧ 2 ^ addrW < base + n * b := by
  simp only [extentOutOfRange, Bool.and_eq_true, decide_eq_true_eq]
  simp [extentEnd, hb.ne']

/-- Two buffers of words meet when both have a word and each begins before the other ends. -/
theorem extentsMeet_words_iff {base n b base' n' b' : Nat} (hb : 0 < b) (hb' : 0 < b') :
    extentsMeet ⟨base, n * b⟩ ⟨base', n' * b'⟩ = true
      ↔ n ≠ 0 ∧ n' ≠ 0 ∧ base < base' + n' * b' ∧ base' < base + n * b := by
  simp only [extentsMeet, Bool.and_eq_true, decide_eq_true_eq]
  simp [extentEnd, hb.ne', hb'.ne', and_assoc]

theorem extentOutOfRange_jobSrc_iff {addrW : Nat} {j : Job} : extentOutOfRange addrW (jobSrc j) = true
    ↔ jobSrcWords j ≠ 0 ∧ 2 ^ addrW < j.sb + jobSrcWords j * (jobSrcWidth j).bytes :=
  extentOutOfRange_words_iff (Width.bytes_pos _)

theorem extentOutOfRange_jobDst_iff {addrW : Nat} {j : Job} : extentOutOfRange addrW (jobDst j) = true
    ↔ jobDstWords j ≠ 0 ∧ 2 ^ addrW < j.db + jobDstWords j * (jobDstWidth j).bytes :=
  extentOutOfRange_words_iff (Width.bytes_pos _)

/-! ### The first failing check -/

section
variable {addrW : Nat} {c : Codec} {j : Job}

theorem checkJob_of_srcLen (h : c.srcLen.toNat < jobSrcWords j) : checkJob addrW c j = .error .srcLen := if_pos h

variable (hlen : jobSrcWords j ≤ c.srcLen.toNat)
include hlen

theorem checkJob_of_capacity (h : c.dstCap.toNat < jobDstWords j) : checkJob addrW c j = .error .capacity := by
  rw [checkJob, if_neg (Nat.not_lt.2 hlen), if_pos h]

variable (hcap : jobDstWords j ≤ c.dstCap.toNat)
include hcap

theorem checkJob_of_align (h : j.sb % (jobSrcWidth j).bytes ≠ 0 ∨ j.db % (jobDstWidth j).bytes ≠ 0) :
    checkJob addrW c j = .error .align := by
  rw [checkJob, if_neg (Nat.not_lt.2 hlen), if_neg (Nat.not_lt.2 hcap), if_pos h]

variable (hsrc : j.sb % (jobSrcWidth j).bytes = 0) (hdst : j.db % (jobDstWidth j).bytes = 0)
include hsrc hdst

theorem checkJob_of_range (h : extentOutOfRange addrW (jobSrc j) = true ∨ extentOutOfRange addrW (jobDst j) = true) :
    checkJob addrW c j = .error .range := by
  rw [checkJob, if_neg (Nat.not_lt.2 hlen), if_neg (Nat.not_lt.2 hcap), if_neg (by simp [hsrc, hdst]), if_pos h]

theorem checkJob_of_overlap (hrange : ¬ (extentOutOfRange addrW (jobSrc j) = true ∨ extentOutOfRange addrW (jobDst j) = true))
    (h : extentsMeet (jobSrc j) (jobDst j) = true) : checkJob addrW c j = .error .overlap := by
  rw [checkJob, if_neg (Nat.not_lt.2 hlen), if_neg (Nat.not_lt.2 hcap), if_neg (by simp [hsrc, hdst]), if_neg hrange, if_pos h]

end

/-- A command word that fails a check is taken and ends with its code. -/
theorem exec_commandOf_of_error {op : Op} {inw outw : Width} {w : BitVec 7} {e : Err} {s : State}
    (hr : s.codec.inReset = false) (hb : s.codec.busy = false)
    (h : checkCommand s.platform.addrW (s.codec.take (encodeCommand op inw outw w)) (encodeCommand op inw outw w) = .error e) :
    exec (commandOf op inw outw w) s = .next (s.failedWith (encodeCommand op inw outw w) e) := by
  rw [exec_commandOf, writeCommand_of_idle hr hb, acceptCommand, h]
  rfl

/-- Settles O26: the word fails to decode, or the checks on the registers come in code order and end at the first that fails. -/
theorem commandsFailAtTheirFirstFailingCheck : Obligations.CommandsFailAtTheirFirstFailingCheck := by
  intro op inw outw w s hr hb sw dw sreq dreq hops c outcome v
  set j := jobOf ⟨op, inw, outw, w.toNat⟩ (c.take v)
  obtain ⟨rfl, rfl, rfl, rfl⟩ : sw = jobSrcWidth j ∧ sreq = jobSrcWords j ∧ dw = jobDstWidth j ∧ dreq = jobDstWords j := by
    simpa only [Prod.mk.injEq] using hops.trans (acceptOperands_jobOf ⟨op, inw, outw, w.toNat⟩ (c.take v))
  have hfail {e : Err} (hpos : 1 ≤ w.toNat) (hle : w.toNat ≤ inw.bits)
      (h : checkJob s.platform.addrW (c.take v) j = .error e) : outcome = .next (s.failedWith v e) :=
    exec_commandOf_of_error hr hb (by rwa [checkCommand, decodeCommand_encodeCommand hpos hle])
  refine ⟨fun hw => ?width, fun hpos hle h => ?srcLen, fun hpos hle hlen h => ?capacity, fun hpos hle hlen hcap h => ?align,
    fun hpos hle hlen hcap hsrc hdst h => ?range,
    fun hpos hle hlen hcap hsrc hdst hsrange hdrange hsreq hdreq hlt hlt' => ?overlap⟩
  case width =>
    exact exec_commandOf_of_error hr hb (by rw [checkCommand, decodeCommand_encodeCommand_of_width hw])
  case srcLen => exact hfail hpos hle (checkJob_of_srcLen h)
  case capacity => exact hfail hpos hle (checkJob_of_capacity hlen h)
  case align => exact hfail hpos hle (checkJob_of_align hlen hcap h)
  case range =>
    refine hfail hpos hle (checkJob_of_range hlen hcap hsrc hdst ?_)
    rwa [extentOutOfRange_jobSrc_iff, extentOutOfRange_jobDst_iff]
  case overlap =>
    refine hfail hpos hle (checkJob_of_overlap hlen hcap hsrc hdst ?_ ?_)
    · rw [extentOutOfRange_jobSrc_iff, extentOutOfRange_jobDst_iff]
      rintro (⟨-, hpast⟩ | ⟨-, hpast⟩)
      · exact Nat.not_lt.2 (hsrange hsreq) hpast
      · exact Nat.not_lt.2 (hdrange hdreq) hpast
    · exact (extentsMeet_words_iff (Width.bytes_pos _) (Width.bytes_pos _)).2 ⟨hsreq, hdreq, hlt, hlt'⟩

end Sys2Proof.Machine
end

section
/-! PROOF. How an engine step ends a command: what it can make of the codec (60_exceptions.md R135, R137), and the refused access
(R134). -/

namespace Sys2Proof.Machine

/-! ### What an engine step makes of the codec -/

theorem advance_codec_cases (j : Job) (s : State) :
    (∃ j', (advance j s).codec = { s.codec with phase := .run j' })
      ∨ ∃ n, (advance j s).codec = { s.codec.complete n with raced := [] } := by
  rcases advance_cases j s with ⟨-, h⟩ | ⟨-, h⟩ <;> rw [h]
  · exact .inl ⟨_, rfl⟩
  · exact .inr ⟨_, rfl⟩

/-- An engine step leaves the codec, keeps its command in RUN, completes it, or ends it with ERR_BUS. -/
theorem engineStep_codec_cases (s : State) :
    (engineStep s).codec = s.codec
      ∨ (∃ j, (engineStep s).codec = { s.codec with phase := .run j })
      ∨ (∃ n, (engineStep s).codec = { s.codec.complete n with raced := [] })
      ∨ (engineStep s).codec = { s.codec.fail .bus with raced := [] } := by
  have hcounted {t : State} (j : Job) (hstep : engineStep s = advance j t) (ht : t.codec = s.codec) :
      (∃ j, (engineStep s).codec = { s.codec with phase := .run j })
        ∨ ∃ n, (engineStep s).codec = { s.codec.complete n with raced := [] } := by
    rw [hstep, ← ht]
    exact advance_codec_cases j t
  rcases engineStep_cases s with h | ⟨j, -, -, ⟨i, -, ⟨-, h⟩ | ⟨-, h⟩⟩ | ⟨k, -, ⟨-, h⟩ | ⟨-, h⟩⟩⟩
  · exact .inl (by rw [h])
  · exact .inr (.inr (.inr (by rw [h]; rfl)))
  · exact .inr ((hcounted _ h (by rw [State.engineLoad_frame])).imp_right .inl)
  · exact .inr (.inr (.inr (by rw [h]; rfl)))
  · exact .inr ((hcounted _ h (by rw [State.engineStore_frame])).imp_right .inl)

/-- Settles O30: no instruction changes memory, and an engine step sets no code but those of `complete` and of the bus error. -/
theorem acceptanceErrorsChangeNoMemory : Obligations.AcceptanceErrorsChangeNoMemory := by
  refine ⟨fun i s t _ h => ?_, fun s j _ => ?_⟩
  · rw [(exec_frame h).1]
    exact ⟨rfl, rfl⟩
  · rcases engineStep_codec_cases s with h | ⟨_, h⟩ | ⟨_, h⟩ | h <;> rw [h]
    · exact .inl rfl
    · exact .inl rfl
    · exact .inr (.inl rfl)
    · exact .inr (.inr rfl)

/-! ### The refused access -/

theorem engineStep_of_refused {s : State} {j : Job} {a : Access} (hr : s.codec.inReset = false) (hp : s.codec.phase = .run j)
    (ha : (jobSeq j)[j.pos]? = some a) (hrd : ∀ i, a = .rd i → s.busOK (jobSrcWord j i) .read = false)
    (hwr : ∀ k, a = .wr k → s.busOK (jobDstWord j k) .write = false) : engineStep s = busFail j s := by
  cases a with
  | rd i => simp [engineStep, engineRead, hr, hp, ha, hrd i rfl]
  | wr k => simp [engineStep, engineWrite, hr, hp, ha, hwr k rfl]

theorem extentMisses_of_not_meet {x y : Extent} (h : extentsMeet x y = false) {a : Nat} (ha : extentHas x a) :
    extentMisses y a :=
  extentMisses_iff.2 fun hy => Bool.eq_false_iff.1 h (extentsMeet_iff.2 ⟨a, ha, hy⟩)

/-- Settles O34: the step is `busFail`, whose only change to memory is the draws over the destination. -/
theorem busErrorEndsTheCommand : Obligations.BusErrorEndsTheCommand := by
  intro s j a hm hr hp ha hrd hwr
  rw [engineStep_of_refused hr hp ha hrd hwr]
  exact ⟨rfl, rfl, rfl, State.freeRange_inside s (jobDst j) hm, State.freeRange_outside s (jobDst j),
    fun hmeet n hn => State.freeRange_outside s (jobDst j) _
      (extentMisses_of_not_meet hmeet ⟨Nat.le_add_right _ _, Nat.add_lt_add_left hn _⟩)⟩

end Sys2Proof.Machine
end

section
/-! PROOF. A step with no input pending (60_exceptions.md R147, 70_reset_and_hazards.md R161): which codec takes an engine step. -/

namespace Sys2Proof.Machine

theorem step_of_no_inputs {s : State} (h : s.inputs = []) : step s = freeRunning s := by
  rw [step, h]

theorem State.runner_of_busy {s : State} (h : s.codec.busy = true) : s.runner = some s.selected := if_pos h

theorem State.runner_of_idle {s : State} (h : s.codec.busy = false) : s.runner = s.codecs.findIdx? Codec.busy :=
  if_neg (by simp [h])

/-- A codec that is next to run, once selected, takes its engine step. -/
theorem freeRunning_of_runner {s t : State} {k : Nat} (hk : s.runner = some k) (ht : s.select k = some t) :
    freeRunning s = .next (engineStep t) := by
  rw [freeRunning, hk]
  exact onInst_of_select ht

/-- Settles O13: the runner is the selected codec, the first that runs, or none. -/
theorem stepWithNoInputRunsTheEngine : Obligations.StepWithNoInputRunsTheEngine := by
  intro s hin
  rw [step_of_no_inputs hin]
  refine ⟨fun hb => freeRunning_of_runner (State.runner_of_busy hb) (State.select_selected s), fun hidle => ?_,
    fun t k hb hk ht => freeRunning_of_runner ((State.runner_of_idle hb).trans hk) ht⟩
  have hnone : s.runner = none :=
    (State.runner_of_idle (hidle s.codec (by simp [State.codecs]))).trans (List.findIdx?_eq_none_iff.2 hidle)
  rw [freeRunning, hnone]

end Sys2Proof.Machine
end

section
/-! PROOF. The interrupt output (60_exceptions.md R138): it follows IE and DONE, so what each operation does to these two. -/

namespace Sys2Proof.Machine

theorem Codec.irq_of_not_done {c : Codec} (h : c.done = false) : c.irq = false := by
  rw [Codec.irq, h, Bool.and_false]

/-- A taken command that is left running has DONE clear. -/
theorem acceptCommand_not_done {v : Word} {s t : State} (h : acceptCommand v s = .next t) (hb : t.codec.busy = true) :
    t.codec.done = false := by
  rcases acceptCommand_cases v s with ⟨e, -, ha⟩ | ⟨j, -, ⟨-, ha⟩ | ⟨-, -, ha⟩ | ⟨-, -, ha⟩⟩ <;> rw [ha] at h <;> cases h
  · simp at hb
  · simp at hb
  · rfl

/-- An engine step that ends a command raises DONE. -/
theorem engineStep_done_of_ends {s : State} (hb : s.codec.busy = true) (hb' : (engineStep s).codec.busy = false) :
    (engineStep s).codec.done = true := by
  rcases engineStep_codec_cases s with h | ⟨j, h⟩ | ⟨n, h⟩ | h <;> rw [h] at hb' ⊢
  · simp [hb] at hb'
  · exact absurd hb' (by simp [Codec.busy])
  · rfl
  · rfl

/-- Settles O60: an acknowledgement and a command that runs clear DONE, a write to CTRL sets IE, and the end of a command raises
DONE and keeps IE. -/
theorem interruptFollowsDone : Obligations.InterruptFollowsDone := by
  refine ⟨fun c => rfl, fun s hr => ⟨?ack, ?disable, ?enable⟩, fun v s t hr hb h hrun => ?start, fun s hb hb' => ?ends⟩
  case ack => exact ⟨_, regWriteStatusClearsByOnes 0x2 s hr, Codec.irq_of_not_done (by simp)⟩
  case disable => exact ⟨_, regWriteCtrlSetsTheInterruptEnable 0 s hr, rfl⟩
  case enable => exact ⟨_, regWriteCtrlSetsTheInterruptEnable 1 s hr, by simp [Codec.irq]⟩
  case start =>
    rw [exec_regWriteCmd, writeCommand_of_idle hr hb] at h
    exact Codec.irq_of_not_done (acceptCommand_not_done h hrun)
  case ends =>
    obtain ⟨-, -, hie, -⟩ := (engineStep_engineFrame s).operands
    rw [Codec.irq, engineStep_done_of_ends hb hb', Bool.and_true, hie]

end Sys2Proof.Machine
end

section
/-! PROOF. A command's run, whatever the platform answers and whatever other agents do to memory (70_reset_and_hazards.md R162): one access
per engine step to the last one, or to the first one the platform refuses. -/

namespace Sys2Proof.Machine

/-! ### What engine steps keep -/

theorem engineRun_inReset (n : Nat) (s : State) : (engineRun n s).codec.inReset = s.codec.inReset := by
  induction n with
  | zero => rfl
  | succ n ih =>
    obtain ⟨-, hr, -⟩ := (engineStep_engineFrame (engineRun n s)).operands
    rw [engineRun_succ, hr, ih]

theorem engineRun_platform (n : Nat) (s : State) : (engineRun n s).platform = s.platform := by
  induction n with
  | zero => rfl
  | succ n ih => rw [engineRun_succ, (engineStep_engineFrame _).platform, ih]

theorem engineStep_of_idle {s : State} (hp : s.codec.phase = .idle) : engineStep s = s := by
  simp [engineStep, hp]

theorem State.busRefuses_ne_nil {s : State} {x : Extent} {dir : BusDir} (h : s.busOK x dir = false) :
    s.platform.busRefuses ≠ [] := by
  intro hnone
  simp [State.busOK, hnone] at h

/-- A command with an access left makes it and counts it, or meets a platform's refusal. -/
theorem engineStep_of_access_left {s : State} {j : Job} (hr : s.codec.inReset = false) (hp : s.codec.phase = .run j)
    (hpos : j.pos < (jobSeq j).length) :
    (s.platform.busRefuses ≠ [] ∧ engineStep s = busFail j s)
      ∨ ∃ r t, engineStep s = advance { j with rdata := r } t := by
  have ha := List.getElem?_eq_getElem hpos
  cases hacc : (jobSeq j)[j.pos] with
  | rd i =>
    rw [hacc] at ha
    cases hok : s.busOK (jobSrcWord j i) .read with
    | false => exact .inl ⟨State.busRefuses_ne_nil hok, engineStep_of_refused hr hp ha (by rintro _ ⟨⟩; exact hok) nofun⟩
    | true => exact .inr ⟨_, _, engineStep_rd hr hp ha hok⟩
  | wr k =>
    rw [hacc] at ha
    cases hok : s.busOK (jobDstWord j k) .write with
    | false => exact .inl ⟨State.busRefuses_ne_nil hok, engineStep_of_refused hr hp ha nofun (by rintro _ ⟨⟩; exact hok)⟩
    | true => exact .inr ⟨j.rdata, _, engineStep_wr hr hp ha hok⟩

/-! ### The run -/

/-- How far command `j` is after `n` engine steps: it runs with `n` accesses made, has completed with the last one, or has ended at
an access the platform refused. -/
inductive State.Progress (j : Job) (n : Nat) (u : State) : Prop where
  | running (rdata : List (Nat × Nat)) (hn : n < jobLength j) (phase : u.codec.phase = .run { j with pos := n, rdata := rdata })
  | completed (hn : n = jobLength j) (phase : u.codec.phase = .idle) (done : u.codec.done = true) (err : u.codec.err = .ok)
  | refused (refuses : u.platform.busRefuses ≠ []) (phase : u.codec.phase = .idle) (done : u.codec.done = true)
      (err : u.codec.err = .bus)

/-- The access made is counted, and the last one completes the command. -/
theorem State.progress_advance {j : Job} {n : Nat} {rdata : List (Nat × Nat)} (hn : n < jobLength j) (t : State) :
    State.Progress j (n + 1) (advance { j with pos := n, rdata := rdata } t) := by
  rcases advance_cases { j with pos := n, rdata := rdata } t with ⟨hne, h⟩ | ⟨hlast, h⟩ <;> rw [h]
  · exact .running rdata (Nat.lt_of_le_of_ne hn hne) rfl
  · exact .completed hlast rfl rfl rfl

theorem State.Progress.engineStep {j : Job} {n : Nat} {u : State} (h : u.Progress j n) (hw : 1 ≤ j.w)
    (hr : u.codec.inReset = false) (hn : n < jobLength j) : (engineStep u).Progress j (n + 1) := by
  cases h with
  | running rdata _ hp =>
    have hpos : n < (jobSeq { j with pos := n, rdata := rdata }).length := hn.trans_eq (jobSeq_length hw).symm
    rcases engineStep_of_access_left hr hp hpos with ⟨hbus, h⟩ | ⟨r, t, h⟩ <;> rw [h]
    · exact .refused hbus rfl rfl rfl
    · exact State.progress_advance hn t
  | completed hlast => omega
  | refused hbus hp hdone herr =>
    rw [engineStep_of_idle hp]
    exact .refused hbus hp hdone herr

theorem State.progress_engineRun {s : State} {j : Job} (hr : s.codec.inReset = false) (hp : s.codec.phase = .run j)
    (hw : 1 ≤ j.w) (hpos : j.pos = 0) (hlen : 0 < jobLength j) {n : Nat} (hn : n ≤ jobLength j) :
    (engineRun n s).Progress j n := by
  induction n with
  | zero => exact .running j.rdata hlen (hp.trans (by rw [← hpos]))
  | succ n ih =>
    rw [engineRun_succ]
    exact (ih (Nat.le_of_succ_le hn)).engineStep hw ((engineRun_inReset n s).trans hr) hn

/-- Before the last access the command runs, or was refused one. -/
theorem State.Progress.of_before {j : Job} {n : Nat} {u : State} (h : u.Progress j n) (hn : n < jobLength j) :
    (∃ j', u.codec.phase = .run j' ∧ j'.pos = n) ∨ (u.codec.err = .bus ∧ u.platform.busRefuses ≠ []) := by
  cases h with
  | running rdata _ hp => exact .inl ⟨_, hp, rfl⟩
  | completed hlast => exact absurd hlast hn.ne
  | refused hbus _ _ herr => exact .inr ⟨herr, hbus⟩

/-- After the last access the command has ended, and with success unless it was refused one. -/
theorem State.Progress.of_last {j : Job} {u : State} (h : u.Progress j (jobLength j)) :
    u.codec.busy = false ∧ u.codec.done = true ∧ (u.codec.err = .ok ∨ u.platform.busRefuses ≠ []) := by
  cases h with
  | running _ hlt => exact absurd hlt (lt_irrefl _)
  | completed _ hp hdone herr => exact ⟨Codec.busy_of_idle hp, hdone, .inl herr⟩
  | refused hbus hp hdone => exact ⟨Codec.busy_of_idle hp, hdone, .inr hbus⟩

/-- Settles O40: the progress of the command after each number of engine steps, and no refusal where the platform makes none. -/
theorem commandsMakeExactlyTheirAccesses : Obligations.CommandsMakeExactlyTheirAccesses := by
  intro s j hr hp hw hpos hcnt
  have hlen : 0 < jobLength j := Nat.add_pos_left hcnt _
  have hrun {n : Nat} (hn : n ≤ jobLength j) : (engineRun n s).Progress j n :=
    State.progress_engineRun hr hp hw hpos hlen hn
  obtain ⟨hidle, hdone, herr⟩ := (hrun le_rfl).of_last
  rw [engineRun_platform] at herr
  refine ⟨fun n hn => ((hrun hn.le).of_before hn).imp_right And.left, hidle, hdone,
    fun hnone => ⟨fun n hn => ?_, herr.resolve_right (not_not_intro hnone)⟩⟩
  rcases (hrun hn.le).of_before hn with ⟨j', hp', -⟩ | ⟨-, hbus⟩
  · exact Codec.busy_of_run hp'
  · rw [engineRun_platform] at hbus
    exact absurd hnone hbus

end Sys2Proof.Machine
end

section
/-! PROOF. Reset (70_reset_and_hazards.md R148 to R151): the reset state, the step that asserts the reset input, and the accesses it holds
off. -/

namespace Sys2Proof.Machine

/-! ### The step that asserts reset -/

/-- Asserting reset changes the selected codec, memory and the draw counter only. -/
theorem assertReset_frame (s : State) : assertReset s = { s with
    codec := (assertReset s).codec
    mem := (assertReset s).mem
    draws := (assertReset s).draws } := by
  rcases s.codec.phase_cases with hp | ⟨j, hp⟩
  · rw [(assertReset_eq s).1 hp]
  · rw [(assertReset_eq s).2 j hp]
    rfl

/-- A step whose input asserts a reset does so to the codec it names. -/
theorem step_reset {s t : State} {k : Nat} {rest : List Input} (hi : s.inputs = .reset k true :: rest)
    (ht : State.select { s with inputs := rest } k = some t) : step s = .next (assertReset t) :=
  (step_of_inputs hi).trans (onInst_of_select ht)

/-- Settles O6: the step asserts the reset of the selected codec, which draws over the destination of the command it ran. -/
theorem resetAbandonsTheRunningCommand : Obligations.ResetAbandonsTheRunningCommand := by
  intro s t k rest hm hi ht
  obtain ⟨-, -, hsel⟩ := State.select_some ht
  have hmem : t.mem = s.mem := by rw [hsel]
  have hdraws : t.draws = s.draws := by rw [hsel]
  refine ⟨assertReset t, step_reset hi ht, rfl, ?_⟩
  rw [← hmem, ← hdraws]
  refine ⟨by rw [assertReset_frame], by rw [assertReset_frame], by rw [assertReset_frame, hsel],
    by rw [assertReset_frame, hsel], by rw [assertReset_frame, hsel], fun hp => ?idle, fun j hp => ?run⟩
  case idle =>
    rw [(assertReset_eq t).1 hp]
    exact ⟨rfl, rfl⟩
  case run =>
    rw [(assertReset_eq t).2 j hp]
    exact ⟨State.freeRange_inside t (jobDst j) (hmem ▸ hm), State.freeRange_outside t (jobDst j), rfl⟩

/-! ### The reset state -/

theorem statusWord_resetState (b : Nat) (asserted : Bool) (cls : List Claim) :
    statusWord (Codec.resetState b asserted cls) = 0 := by
  simp [statusWord, flagWord, errCode, Codec.resetState, Codec.busy]

theorem readReg_resetState (b : Nat) (asserted : Bool) (cls : List Claim) (off : Nat) :
    readReg (Codec.resetState b asserted cls) off = 0 := by
  unfold readReg
  split
  any_goals rfl
  exact statusWord_resetState b asserted cls

theorem Codec.resetState_isReset (b : Nat) (asserted : Bool) (cls : List Claim) :
    (Codec.resetState b asserted cls).IsReset :=
  ⟨rfl, rfl, rfl, rfl, rfl, rfl, rfl, rfl, rfl, rfl, rfl, rfl, rfl, rfl, readReg_resetState b asserted cls⟩

/-- Every codec of a machine right after reset is in its reset state. -/
theorem State.mem_codecs_resetOn {p : Platform} {base : Nat} {more : List Nat} {c : Codec}
    (h : c ∈ (State.resetOn p base more).codecs) : ∃ b, c = Codec.resetState b false [] := by
  rcases List.mem_cons.1 h with rfl | h
  · exact ⟨base, rfl⟩
  · obtain ⟨b, -, rfl⟩ := List.mem_map.1 h
    exact ⟨b, rfl⟩

/-- Settles O5: the codecs of both machines are in the reset state, whose registers all read 0. -/
theorem resetClearsEveryRegister : Obligations.ResetClearsEveryRegister := by
  refine ⟨fun p base more c hc => ?_, fun s => Codec.resetState_isReset _ _ _⟩
  obtain ⟨b, rfl⟩ := State.mem_codecs_resetOn hc
  exact Codec.resetState_isReset b false []

/-- Settles O8: memory is empty and every codec is in the reset state, which meets the invariant of a codec. -/
theorem resetMeetsTheInvariant : Obligations.ResetMeetsTheInvariant := fun p base more hp => {
  platform := hp
  mem_wf := rfl
  mem_inside := List.forall_mem_nil _
  codecs := fun c hc => by
    obtain ⟨b, rfl⟩ := State.mem_codecs_resetOn hc
    exact Codec.resetState_inv (List.forall_mem_nil _) }

/-! ### What the reset input holds off -/

section
variable {s : State} (hr : s.codec.inReset = true)
include hr

theorem engineStep_of_inReset : engineStep s = s := if_pos hr

theorem writeAlways_of_inReset (f : Codec → Codec) : writeAlways f s = .next s := if_pos hr

theorem writeOperand_of_inReset (f : Codec → Codec) : writeOperand f s = .next s := writeAlways_of_inReset hr _

theorem writeCommand_of_inReset (v : Word) : writeCommand v s = .next s := if_pos hr

end

/-- Settles O7: each writing form is a write to CMD, to an operand register or to another register, and all three are held off. -/
theorem resetHoldsOffEveryWrite : Obligations.ResetHoldsOffEveryWrite := by
  intro s hr
  refine ⟨engineStep_of_inReset hr, fun op inw outw w => ?word, fun v => ?registers, fun off v hwf => ?reserved⟩
  case word => rw [exec_commandOf, writeCommand_of_inReset hr]
  case registers =>
    simp [exec_regWriteCmd, writeAlways_of_inReset hr, writeOperand_of_inReset hr, writeCommand_of_inReset hr]
  case reserved =>
    obtain ⟨halign, hoff⟩ : off.toNat % 8 = 0 ∧ 0x48 ≤ off.toNat := by simpa [Instr.wf, alignedOffset] using hwf
    rw [exec_regWriteReserved halign hoff, writeAlways_of_inReset hr]

end Sys2Proof.Machine
end
